-- ==== Sys2Proof/Word.lean ====
section
/-! DEFINITION. The widths of the CORE (00_scope.md R7) and its node record (10_state.md R36). -/

namespace Sys2Proof

/-- REG_BITS = 32: a host-visible register or a command word (00_scope.md R7). -/
abbrev Word := BitVec 32

/-- One byte of a buffer or of the compressed stream. -/
abbrev Byte := BitVec 8

/-- SYM_BITS = 8: a symbol is one byte (00_scope.md R7). -/
abbrev Sym := BitVec 8

/-- One entry of the node store (10_state.md R36). The constructor is the bit IS_LEAF: a leaf carries SYM and
NFREQ, an internal node NFREQ, LEFT and RIGHT. The fields that R36 calls meaningful only for the other kind
are not stored; no rule reads them (DESIGN CHOICE, safe: log entry 9). -/
inductive Node where
  /-- IS_LEAF = 1. -/
  | leaf (sym : Sym) (nfreq : Word)
  /-- IS_LEAF = 0; `left` and `right` are the 9-bit node indices LEFT and RIGHT. -/
  | branch (nfreq : Word) (left right : BitVec 9)
  deriving DecidableEq, Repr, Inhabited

/-- NFREQ of either kind of node (10_state.md R36). -/
def Node.nfreq : Node → Word
  | .leaf _ f => f
  | .branch f _ _ => f

end Sys2Proof
end

