-- ==== Sys2Proof/Config.lean ====
section
/-! DEFINITION. The implementation parameters of 00_scope.md R7 and the free values, which the spec leaves open. -/

namespace Sys2Proof

/-- TIE_POLICY (00_scope.md R7, R8): SEQ is the deterministic tie-break of 42_tree_builder.md R142, ANY the
free choice of R143. -/
inductive TiePolicy where
  | seq
  | any
  deriving DecidableEq, Repr, Inhabited

/-- The OPEN parameters of 00_scope.md R7 and BASE of 20_memory.md R61. They stand in State as plain data, so that
every statement about every state holds for every configuration; no step changes them (log entry 8). -/
structure Config where
  /-- IN_CAP, the capacity of IN_MEM in bytes. -/
  inCap  : Nat
  /-- OUT_CAP, the capacity of OUT_MEM in bytes. -/
  outCap : Nat
  /-- TIE_POLICY. -/
  tie    : TiePolicy
  /-- BASE, the address of the register window. -/
  base   : Word
  deriving DecidableEq, Repr, Inhabited

/-- The defaults of 00_scope.md R7. BASE is OPEN and has no default: 0 is a DESIGN CHOICE, unsafe only for a
claim about absolute addresses (log entry 8). -/
def Config.default : Config := { inCap := 65536, outCap := 65536, tie := .seq, base := 0 }

/-- ID reads this constant (10_state.md R33). -/
def Config.ident : Word := 0x48554631

/-- MAX_CODE_LEN (00_scope.md R7). -/
def Config.maxCodeLen : Nat := 255

/-- MAX_NODES (00_scope.md R7). -/
def Config.maxNodes : Nat := 511

/-- Free value of a 32-bit word: PENDING and PENDING_DATA after reset (10_state.md R47), a result slot read
while BUSY = 1 (70_reset_and_hazards.md R284). The argument is the draw's number. -/
opaque Config.freeWord : Nat → Word

/-- Free value of a byte of IN_MEM that the spec leaves unspecified: draw's number, index (10_state.md R47,
45_bit_unpacker.md R222; log entry 5). -/
opaque Config.freeInByte : Nat → Nat → Byte

/-- Free value of a byte of OUT_MEM that the spec leaves unspecified: draw's number, index (10_state.md R47,
45_bit_unpacker.md R226; log entry 5). -/
opaque Config.freeOutByte : Nat → Nat → Byte

/-- Free value of a node entry that nothing has written: draw's number, index (10_state.md R47). -/
opaque Config.freeNode : Nat → Nat → Node

/-- Free value behind ROOT after reset, taken modulo MAX_NODES (10_state.md R47). -/
opaque Config.freeIndex : Nat → Nat

/-- Free value of a host variable that nothing has been read into: the variable's number (log entry 20). -/
opaque Config.freeVar : Nat → Word

/-- Free choice among equal-frequency nodes under TIE_POLICY = ANY (42_tree_builder.md R143): the draw's number
to a number that is taken modulo the count of candidates. -/
opaque Config.freeChoice : Nat → Nat

/-- Free value of the schedule where no turn is listed and the core is enabled: how many turns the host takes before the core
moves. It is finite and nothing bounds it (70_reset_and_hazards.md R291; log entry 1). The argument is the draw's number. -/
opaque Config.freeDelay : Nat → Nat

end Sys2Proof
end

