-- ==== Sys2Proof/Syntax.lean ====
section
/-! DEFINITION. The commands of the CORE: one constructor per row of the opcode map (30_encoding.md R83). -/

namespace Sys2Proof

/-- A decoded command with its operand fields (30_encoding.md R81, R82): `s` a symbol, `w` a word index 0..7, `l` a
code length 0..255, `a` a byte index below 2^24, `b` a stream byte. Every value of a field is encodable, so the
field's width is its whole well-formedness. -/
inductive Instr where
  /-- NOP, 40_control.md R107. -/
  | nop
  /-- CLEAR, 40_control.md R108. -/
  | clear
  /-- ERR_CLEAR, 40_control.md R109. -/
  | errClear
  /-- COUNT s, 41_frequency_counter.md R121. -/
  | count (s : Sym)
  /-- READ_FREQ s, 41_frequency_counter.md R124. -/
  | readFreq (s : Sym)
  /-- BUILD_TREE, 42_tree_builder.md R141. -/
  | buildTree
  /-- GEN_CODES, 43_code_table.md R161. -/
  | genCodes
  /-- READ_CODE_LEN s, 43_code_table.md R166. -/
  | readCodeLen (s : Sym)
  /-- READ_CODE_WORD s, w, 43_code_table.md R167. -/
  | readCodeWord (s : Sym) (w : BitVec 3)
  /-- STAGE_CODE_WORD w, 43_code_table.md R168. -/
  | stageCodeWord (w : BitVec 3)
  /-- WRITE_CODE s, l, 43_code_table.md R169. -/
  | writeCode (s : Sym) (l : BitVec 8)
  /-- ENC_SYM s, 44_bit_packer.md R191. -/
  | encSym (s : Sym)
  /-- ENC_FINISH, 44_bit_packer.md R196. -/
  | encFinish
  /-- READ_OUT a, 44_bit_packer.md R203. -/
  | readOut (a : BitVec 24)
  /-- IN_PUSH b, 45_bit_unpacker.md R221. -/
  | inPush (b : Byte)
  /-- IN_CLEAR, 45_bit_unpacker.md R222. -/
  | inClear
  /-- DECODE, 45_bit_unpacker.md R224. -/
  | decode
  deriving DecidableEq, Repr

end Sys2Proof
end

