-- ==== Sys2Proof/WellFormed.lean ====
section
/-! DEFINITION. What must hold of the data a user of the model supplies: operands that fit their form's fields
(30_encoding.md R81, R82, R89) and a configuration inside the ranges of 00_scope.md R7. -/

namespace Sys2Proof

/-- The seven operand forms of 30_encoding.md R81. -/
inductive Form where
  | none
  | sym
  | byte
  | symw
  | widx
  | code
  | addr
  deriving DecidableEq, Repr

/-- The form of a command (30_encoding.md R83). -/
def Instr.form : Instr → Form
  | .nop => .none
  | .clear => .none
  | .errClear => .none
  | .count _ => .sym
  | .readFreq _ => .sym
  | .buildTree => .none
  | .genCodes => .none
  | .readCodeLen _ => .sym
  | .readCodeWord _ _ => .symw
  | .stageCodeWord _ => .widx
  | .writeCode _ _ => .code
  | .encSym _ => .sym
  | .encFinish => .none
  | .readOut _ => .addr
  | .inPush _ => .byte
  | .inClear => .none
  | .decode => .none

/-- The operands of a command as numbers, in the order of the form's fields (30_encoding.md R89). -/
def Instr.operands : Instr → List Nat
  | .nop => []
  | .clear => []
  | .errClear => []
  | .count s => [s.toNat]
  | .readFreq s => [s.toNat]
  | .buildTree => []
  | .genCodes => []
  | .readCodeLen s => [s.toNat]
  | .readCodeWord s w => [s.toNat, w.toNat]
  | .stageCodeWord w => [w.toNat]
  | .writeCode s l => [s.toNat, l.toNat]
  | .encSym s => [s.toNat]
  | .encFinish => []
  | .readOut a => [a.toNat]
  | .inPush b => [b.toNat]
  | .inClear => []
  | .decode => []

/-- The ranges of 30_encoding.md R82: an operand list fits a form when it has the form's fields and each number fits its
field. An operand that does not fit is an assembly error, not a truncation (R89). -/
def operandsFit : Form → List Nat → Bool
  | .none, [] => true
  | .sym, [s] => s < 256
  | .byte, [b] => b < 256
  | .symw, [s, w] => s < 256 && w < 8
  | .widx, [w] => w < 8
  | .code, [s, l] => s < 256 && l < 256
  | .addr, [a] => a < 2 ^ 24
  | _, _ => false

/-- A command is well-formed when its operands fit its form. The fields of `Instr` have the fields' widths, so every
term is (`Sys2Proof.Laws.wellFormed_all`); the check bites on operand lists. -/
def Instr.wellFormed (i : Instr) : Bool := operandsFit i.form i.operands

/-- The ranges of 00_scope.md R7. -/
def Config.wf (c : Config) : Bool :=
  1 ≤ c.inCap && c.inCap ≤ 2 ^ 24 && 2 ≤ c.outCap && c.outCap ≤ 2 ^ 24

end Sys2Proof
end

