-- ==== Sys2Proof/Decode.lean ====
section
/-! DEFINITION. The command decoder (30_encoding.md R83 to R85), total on every 32-bit word, and the encoder
(30_encoding.md R80, R81). -/

namespace Sys2Proof

/-- Why a word is no command (30_encoding.md R84). -/
inductive Reject where
  /-- The opcode is not in the map of R83. -/
  | unassignedOpcode (opc : BitVec 8)
  /-- The opcode is assigned and a reserved operand bit is not zero. -/
  | reservedBits (opc : BitVec 8)
  deriving DecidableEq, Repr

/-- The field OPC, bits 31:24 (30_encoding.md R80). -/
def opcField (w : Word) : BitVec 8 := w.extractLsb' 24 8

/-- `form(opc)` of 30_encoding.md R83, nothing for the 239 unassigned opcodes of R84. -/
def formOf (opc : BitVec 8) : Option Form :=
  match opc.toNat with
  | 0x00 => some .none
  | 0x01 => some .none
  | 0x02 => some .none
  | 0x10 => some .sym
  | 0x11 => some .sym
  | 0x20 => some .none
  | 0x21 => some .none
  | 0x22 => some .sym
  | 0x23 => some .symw
  | 0x24 => some .widx
  | 0x25 => some .code
  | 0x30 => some .sym
  | 0x31 => some .none
  | 0x32 => some .addr
  | 0x40 => some .byte
  | 0x41 => some .none
  | 0x50 => some .none
  | _ => none

/-- `reservedMask(F)` of 30_encoding.md R85. -/
def reservedMask : Form → Word
  | .none => 0x00FFFFFF
  | .sym  => 0x00FFFF00
  | .byte => 0x00FFFF00
  | .symw => 0x00FFF800
  | .widx => 0x00FFFFF8
  | .code => 0x00FF0000
  | .addr => 0x00000000

/-- `s` or `b` = OPD[7:0] (30_encoding.md R81). -/
def fieldLow (w : Word) : BitVec 8 := w.extractLsb' 0 8

/-- `l` = OPD[15:8] of the CODE form (30_encoding.md R81). -/
def fieldLen (w : Word) : BitVec 8 := w.extractLsb' 8 8

/-- `w` = OPD[10:8] of the SYMW form (30_encoding.md R81). -/
def fieldSymWord (w : Word) : BitVec 3 := w.extractLsb' 8 3

/-- `w` = OPD[2:0] of the WIDX form (30_encoding.md R81). -/
def fieldWordIndex (w : Word) : BitVec 3 := w.extractLsb' 0 3

/-- `a` = OPD[23:0] of the ADDR form (30_encoding.md R81). -/
def fieldAddr (w : Word) : BitVec 24 := w.extractLsb' 0 24

/-- `mnemonic(opc)` with the fields of its form taken from the word (30_encoding.md R83, R85). -/
def commandOf (opc : BitVec 8) (w : Word) : Option Instr :=
  match opc.toNat with
  | 0x00 => some .nop
  | 0x01 => some .clear
  | 0x02 => some .errClear
  | 0x10 => some (.count (fieldLow w))
  | 0x11 => some (.readFreq (fieldLow w))
  | 0x20 => some .buildTree
  | 0x21 => some .genCodes
  | 0x22 => some (.readCodeLen (fieldLow w))
  | 0x23 => some (.readCodeWord (fieldLow w) (fieldSymWord w))
  | 0x24 => some (.stageCodeWord (fieldWordIndex w))
  | 0x25 => some (.writeCode (fieldLow w) (fieldLen w))
  | 0x30 => some (.encSym (fieldLow w))
  | 0x31 => some .encFinish
  | 0x32 => some (.readOut (fieldAddr w))
  | 0x40 => some (.inPush (fieldLow w))
  | 0x41 => some .inClear
  | 0x50 => some .decode
  | _ => none

/-- `decode(w)` of 30_encoding.md R85: the opcode first, then the reserved bits of its form. -/
def decodeWord (w : Word) : Except Reject Instr :=
  match formOf (opcField w), commandOf (opcField w) w with
  | some f, some i => if w &&& reservedMask f = 0 then .ok i else .error (.reservedBits (opcField w))
  | _, _ => .error (.unassignedOpcode (opcField w))

/-- The opcode of a command (30_encoding.md R83). -/
def opcodeOf : Instr → BitVec 8
  | .nop => 0x00
  | .clear => 0x01
  | .errClear => 0x02
  | .count _ => 0x10
  | .readFreq _ => 0x11
  | .buildTree => 0x20
  | .genCodes => 0x21
  | .readCodeLen _ => 0x22
  | .readCodeWord _ _ => 0x23
  | .stageCodeWord _ => 0x24
  | .writeCode _ _ => 0x25
  | .encSym _ => 0x30
  | .encFinish => 0x31
  | .readOut _ => 0x32
  | .inPush _ => 0x40
  | .inClear => 0x41
  | .decode => 0x50

/-- The operand field OPD of a command, laid out by its form (30_encoding.md R81). -/
def operandField : Instr → BitVec 24
  | .nop => 0
  | .clear => 0
  | .errClear => 0
  | .count s => 0#16 ++ s
  | .readFreq s => 0#16 ++ s
  | .buildTree => 0
  | .genCodes => 0
  | .readCodeLen s => 0#16 ++ s
  | .readCodeWord s w => 0#13 ++ w ++ s
  | .stageCodeWord w => 0#21 ++ w
  | .writeCode s l => 0#8 ++ l ++ s
  | .encSym s => 0#16 ++ s
  | .encFinish => 0
  | .readOut a => a
  | .inPush b => 0#16 ++ b
  | .inClear => 0
  | .decode => 0

/-- The command word: OPC above OPD (30_encoding.md R80). -/
def encode (i : Instr) : Word := opcodeOf i ++ operandField i

/-- The decoder on a table row's word. A command is one 32-bit word, so a row has at most 32 bits; a shorter
row is zero-extended. Registers carry no byte order (20_memory.md R66), so no byte layout comes in. -/
def decodeTableWord (nbits w : Nat) : Option Instr :=
  if nbits ≤ 32 then (decodeWord (BitVec.ofNat 32 (w % 2 ^ nbits))).toOption else none

end Sys2Proof
end

