-- ==== Sys2Proof/Machine/Bits.lean ====
section
/-! DEFINITION. Bit strings (00_scope.md R10) and their grouping into bytes (20_memory.md R67). -/

namespace Sys2Proof.Machine

/-- A bit string, first bit first (00_scope.md R10). -/
abbrev BitString := List Bool

/-- `val(p)`: the number whose binary numeral is `p`, most significant bit first (00_scope.md R10). -/
def bitsVal : BitString → Nat
  | [] => 0
  | b :: p => b.toNat * 2 ^ p.length + bitsVal p

/-- `bits_n(v)`: the `n`-bit string of `v`, most significant bit first (00_scope.md R10). Bits of `v` at and above `n`
do not show. -/
def bitsOf : Nat → Nat → BitString
  | 0, _ => []
  | n + 1, v => v.testBit n :: bitsOf n v

/-- `zeros(n)` (00_scope.md R10). -/
def zeros (n : Nat) : BitString := List.replicate n false

/-- `p{i..j}`: bits `i` to `j - 1` (00_scope.md R10). -/
def bitSlice (p : BitString) (i j : Nat) : BitString := (p.drop i).take (j - i)

/-- Byte `k` of a bit string grouped into bytes: `val(P{8k .. 8k+8})`, so the first bit of the group is bit 7
(20_memory.md R67). -/
def byteOfBits (p : BitString) (k : Nat) : Byte := BitVec.ofNat 8 (bitsVal (bitSlice p (8 * k) (8 * k + 8)))

/-- The first `n` bytes of a bit string (20_memory.md R67). -/
def bytesOfBits (p : BitString) (n : Nat) : List Byte := (List.range n).map (byteOfBits p)

/-- The bit string of a byte sequence (20_memory.md R67, 45_bit_unpacker.md R223). -/
def bitsOfBytes (bs : List Byte) : BitString := bs.flatMap (fun b => bitsOf 8 b.toNat)

/-- The padding amount for `len` encoded bits: 1 to 8, and 8 when `len` is a multiple of 8
(30_encoding.md R86, 44_bit_packer.md R195). -/
def padAmount (len : Nat) : Nat := 8 - len % 8

/-- The PaddedStream of an EncodedStream: header, codes, padding (30_encoding.md R86). -/
def paddedStream (e : BitString) : BitString :=
  bitsOf 8 (padAmount e.length) ++ e ++ zeros (padAmount e.length)

end Sys2Proof.Machine
end

