-- ==== Sys2Proof/Machine/State.lean ====
section
/-! DEFINITION. The state of the CORE (10_state.md R20), the agents around it, and the state after reset (R47). -/

namespace Sys2Proof.Machine

/-- Sparse storage: pairs of an index and a value, indices strictly rising. An index that is not listed holds an
unspecified value (10_state.md R47), which a read takes from a free value of Config (log entry 5). -/
abbrev Store (α : Type) := List (Nat × α)

/-- A byte buffer, IN_MEM or OUT_MEM (10_state.md R42, R43). -/
abbrev Memory := List Host.Cell

/-- The canonical form of a store: indices strictly rising, so each at most once. An unlisted index reads as an
unspecified value, to which no listed value is equal, so the form asks no more. -/
abbrev Store.wf {α : Type} (m : Store α) : Prop := m.Pairwise (fun x y => x.1 < y.1)

/-- The canonical form of a buffer. -/
abbrev Memory.wf (m : Memory) : Prop := Store.wf (α := Byte) m

/-- Where the CORE stands with respect to its reset input (70_reset_and_hazards.md R280, R282; log entry 14). -/
inductive Phase where
  /-- Powered, not yet reset: no rule applies until reset has been asserted and released (R282). -/
  | powerUp
  /-- The reset input is asserted (R280). -/
  | resetAsserted
  /-- Reset has been released. -/
  | running
  deriving DecidableEq, Repr, Inhabited

/-- The one agent that moves in a step (00_scope.md R3; the platform's moves are the reset input and the
power, 70_reset_and_hazards.md R280, R282). -/
inductive Turn where
  /-- The core: executes the accepted command, if BUSY = 1 (40_control.md R103). -/
  | core
  /-- The host: the next operation of its program (30_encoding.md R89). -/
  | host
  /-- The platform asserts the reset input (70_reset_and_hazards.md R280). -/
  | assertReset
  /-- The platform releases the reset input (70_reset_and_hazards.md R280). -/
  | releaseReset
  /-- Power is restored after it was removed (60_exceptions.md R264, 70_reset_and_hazards.md R282). -/
  | powerRestored
  deriving DecidableEq, Repr

/-- A host operation (30_encoding.md R89, R90). Variables are numbered; branch targets are positions in the
program; `width` is the access width in bits (20_memory.md R62). -/
inductive HostOp where
  /-- `wr`: write `v` at an address. -/
  | wr (width : Nat) (addr v : Word)
  /-- `rd`: read an address into variable `var`. -/
  | rd (width : Nat) (addr : Word) (var : Nat)
  /-- `bnz`: branch if bit `bit` of variable `var` is 1. -/
  | bnz (var bit target : Nat)
  /-- `bz`: branch if that bit is 0. -/
  | bz (var bit target : Nat)
  /-- The assertion of `check`: bits 11:8 of variable `var` are 0 (30_encoding.md R90). -/
  | requireNoErr (var : Nat)
  deriving DecidableEq, Repr

/-- The host agent: its program, its position, its variables, and whether an assertion of its own failed
(then it moves no more). It is outside the CORE (10_state.md R22; log entry 2). -/
structure HostAgent where
  prog   : List HostOp
  pc     : Nat
  vars   : List (Nat × Word)
  failed : Bool
  deriving DecidableEq, Repr, Inhabited

/-- The state. The first part is the record of 10_state.md R20, field for field; the second part is the model's
own (configuration, reset line, schedule, host agent, counter of free values). -/
structure State where
  /-- DATA (R24). -/
  data : Word
  /-- RESP (R26). -/
  resp : Word
  /-- STATUS.BUSY (R25). -/
  busy : Bool
  /-- STATUS.TREE_VALID (R25). -/
  treeValid : Bool
  /-- STATUS.CODES_VALID (R25). -/
  codesValid : Bool
  /-- STATUS.ENC_ACTIVE (R25). -/
  encActive : Bool
  /-- STATUS.OUT_VALID (R25). -/
  outValid : Bool
  /-- STATUS.OUT_KIND (R25): 0 compressed stream, 1 decoded symbols. -/
  outKind : Bool
  /-- STATUS.ERR (R25, 60_exceptions.md R250). -/
  err : BitVec 4
  /-- STATUS.ERR_OPC (R25, 60_exceptions.md R251). -/
  errOpc : BitVec 8
  /-- TOTAL (R27). -/
  total : Word
  /-- NSYM (R28), 0..256. -/
  nsym : Nat
  /-- ENC_BITS (R31). -/
  encBits : Word
  /-- PAD (R32). -/
  pad : Byte
  /-- IN_LEN (R30), 0..IN_CAP. -/
  inLen : Nat
  /-- OUT_LEN (R29), 0..OUT_CAP. -/
  outLen : Nat
  /-- PENDING (R44). -/
  pending : Word
  /-- PENDING_DATA (R44). -/
  pendingData : Word
  /-- FREQ[0..255] (R35). -/
  freq : Vector Word 256
  /-- NODE[0..510] (R36). -/
  nodes : List (Nat × Node)
  /-- NNODES (R37), 0..511. -/
  nnodes : Nat
  /-- ROOT (R37), 0..510. -/
  root : Nat
  /-- PQ (R38): the set of node indices, listed rising. -/
  pq : List Nat
  /-- CODE_LEN[0..255] (R39). -/
  codeLen : Vector (BitVec 8) 256
  /-- CODE_VAL[0..255] (R39). -/
  codeVal : Vector (BitVec 256) 256
  /-- CODE_STAGE[0..7] (R40). -/
  codeStage : Vector Word 8
  /-- ENC_STREAM (R41), first bit first. -/
  encStream : List Bool
  /-- IN_MEM (R42). -/
  inMem : Memory
  /-- OUT_MEM (R43). -/
  outMem : Memory
  /-- The model's: the parameters of 00_scope.md R7 (log entry 8). -/
  cfg : Config
  /-- The model's: the reset line (log entry 14). -/
  phase : Phase
  /-- The model's: which agents move next. Where none is listed, the host moves, and once the core is enabled its turn comes
  after a free finite number of the host's (`turnStep`, log entry 1). -/
  turns : List Turn
  /-- The model's: the host agent (log entry 2). -/
  host : HostAgent
  /-- The model's: the number of the next free value (log entry 19). -/
  draws : Nat
  deriving DecidableEq, Repr, Inhabited

/-- Reasons the machine stops. Both belong to states that no run reaches (log entries 10 and 11). -/
inductive Fault where
  /-- Raised by GEN_CODES: the walk of 43_code_table.md R162 goes deeper than MAX_CODE_LEN edges, so NODE is no
  tree that BUILD_TREE builds (R164). Safe. -/
  | walkTooDeep
  /-- Raised by BUILD_TREE: NSYM > 0 while no FREQ[s] > 0, so PQ has no element to be ROOT (42_tree_builder.md R141).
  Safe. -/
  | emptyQueue
  deriving DecidableEq, Repr

/-- Reasons for a step to have no meaning. -/
inductive Refusal where
  /-- An instruction that has no meaning in the model yet. Safe. -/
  | notModelled (mnemonic : String)
  /-- Raised by a host access of a width other than 32 bits: the spec gives it no step (20_memory.md R62). Safe. -/
  | accessWidth
  /-- Raised by a host access while reset is asserted (70_reset_and_hazards.md R280). Safe. -/
  | accessDuringReset
  /-- Raised by a host access after power-up and before a reset (70_reset_and_hazards.md R282). Safe. -/
  | accessBeforeReset
  deriving DecidableEq, Repr

/-- What a meaning answers. -/
abbrev Out := Host.Outcome State Fault Refusal

/-- The state after reset (10_state.md R47), `k` being the number of the free values that stand for the
elements R47 calls unspecified: ROOT, PENDING and PENDING_DATA take `Config` constants, NODE, IN_MEM and
OUT_MEM list nothing (log entries 4 and 5). -/
def State.resetAt (c : Config) (k : Nat) : State where
  data := 0
  resp := 0
  busy := false
  treeValid := false
  codesValid := false
  encActive := false
  outValid := false
  outKind := false
  err := 0
  errOpc := 0
  total := 0
  nsym := 0
  encBits := 0
  pad := 0
  inLen := 0
  outLen := 0
  pending := Config.freeWord k
  pendingData := Config.freeWord (k + 1)
  freq := Vector.replicate 256 0
  nodes := []
  nnodes := 0
  root := Config.freeIndex k % Config.maxNodes
  pq := []
  codeLen := Vector.replicate 256 0
  codeVal := Vector.replicate 256 0
  codeStage := Vector.replicate 8 0
  encStream := []
  inMem := []
  outMem := []
  cfg := c
  phase := .running
  turns := []
  host := { prog := [], pc := 0, vars := [], failed := false }
  draws := k + 2

/-- The machine right after reset, with the default parameters. -/
def State.reset : State := State.resetAt Config.default 0

end Sys2Proof.Machine

namespace Sys2Proof

/-- Free value of the whole CORE at power-up, which the spec leaves unspecified (70_reset_and_hazards.md R282; log entry 14).
The argument is the draw's number. -/
opaque Config.freePowerUp : Nat → Machine.State

end Sys2Proof
end

