-- ==== Sys2Proof/Machine/Ops.lean ====
section
/-! DEFINITION. The named operations over the state: stores and buffers, tables, error entry and its return, reset,
and the start and the aborts of a stream. -/

namespace Sys2Proof.Machine

/-! ## Stores and buffers -/

/-- The value listed at an index, if one is. -/
def storeGet {α : Type} : Store α → Nat → Option α
  | [], _ => none
  | (k, v) :: m, a => if k = a then some v else storeGet m a

/-- Write one value, keeping the indices rising. -/
def storePut {α : Type} : Store α → Nat → α → Store α
  | [], a, v => [(a, v)]
  | (k, w) :: m, a, v =>
    if a < k then (a, v) :: (k, w) :: m
    else if a = k then (a, v) :: m
    else (k, w) :: storePut m a v

/-- Write a list of values from an index up, in order. -/
def storePutFrom {α : Type} : Store α → Nat → List α → Store α
  | m, _, [] => m
  | m, a, v :: vs => storePutFrom (storePut m a v) (a + 1) vs

/-- `MemRead(IN_MEM, a, 1)` (00_scope.md R12). An unlisted byte is unspecified: a free value of IN_MEM's own. -/
def readIn (s : State) (a : Nat) : Byte := (storeGet s.inMem a).getD (Config.freeInByte s.draws a)

/-- `MemRead(OUT_MEM, a, 1)` (00_scope.md R12). An unlisted byte is unspecified: a free value of OUT_MEM's own. -/
def readOutByte (s : State) (a : Nat) : Byte := (storeGet s.outMem a).getD (Config.freeOutByte s.draws a)

/-- `MemWrite(IN_MEM, a, 1, v)` (00_scope.md R12). -/
def writeIn (s : State) (a : Nat) (v : Byte) : State := { s with inMem := storePut s.inMem a v }

/-- `MemWrite(OUT_MEM, k, 1, v)` for the bytes of a list at indices 0, 1, ... (00_scope.md R12). -/
def writeOutBytes (s : State) (vs : List Byte) : State := { s with outMem := storePutFrom s.outMem 0 vs }

/-- NODE[i] in a node store. An unlisted entry is unspecified: a free value (10_state.md R47). -/
def nodeAt (nodes : Store Node) (k i : Nat) : Node := (storeGet nodes i).getD (Config.freeNode k i)

/-! ## Tables indexed by a symbol or a word index -/

/-- Entry `s` of a table with one entry per symbol. -/
def symGet {α : Type} (t : Vector α 256) (s : Sym) : α := t[s.toNat]'s.isLt

/-- Write entry `s` of a table with one entry per symbol. -/
def symSet {α : Type} (t : Vector α 256) (s : Sym) (v : α) : Vector α 256 := t.set s.toNat v s.isLt

/-- Entry `w` of the eight staging words. -/
def stageGet (t : Vector Word 8) (w : BitVec 3) : Word := t[w.toNat]'w.isLt

/-- Write entry `w` of the eight staging words. -/
def stageSet (t : Vector Word 8) (w : BitVec 3) (v : Word) : Vector Word 8 := t.set w.toNat v w.isLt

/-- The symbols 0, 1, ..., 255, ascending. -/
def allSyms : List Sym := (List.range 256).map (BitVec.ofNat 8)

/-- The code of a symbol in a table: the low CODE_LEN[s] bits of CODE_VAL[s], first path bit most significant
(10_state.md R39). -/
def codeOf (len : Vector (BitVec 8) 256) (val : Vector (BitVec 256) 256) (s : Sym) : BitString :=
  bitsOf (symGet len s).toNat (symGet val s).toNat

/-! ## Streams -/

/-- `start_stream()` (44_bit_packer.md R192). -/
def startStream (s : State) : State :=
  { s with encStream := [], encBits := 0, outValid := false, outLen := 0, encActive := true }

/-- The encode abort effect (44_bit_packer.md R194). -/
def encodeAbort (s : State) : State :=
  { s with encActive := false, encStream := [], encBits := 0, outValid := false, outLen := 0 }

/-- The decode abort effect (45_bit_unpacker.md R226). The bytes of OUT_MEM become unspecified. -/
def decodeAbort (s : State) : State :=
  { s with outValid := false, outLen := 0, outMem := [] }

/-! ## Errors -/

/-- The errors of 60_exceptions.md R250. -/
inductive Err where
  | illegalCmd
  | sequence
  | badOperand
  | emptyInput
  | countOverflow
  | unknownSymbol
  | capacity
  | duplicateCode
  | corruptPadding
  | corruptLeftover
  | busyOverrun
  deriving DecidableEq, Repr

/-- The code of an error in STATUS.ERR (60_exceptions.md R250). -/
def errCode : Err → BitVec 4
  | .illegalCmd => 1
  | .sequence => 2
  | .badOperand => 3
  | .emptyInput => 4
  | .countOverflow => 5
  | .unknownSymbol => 6
  | .capacity => 7
  | .duplicateCode => 8
  | .corruptPadding => 9
  | .corruptLeftover => 10
  | .busyOverrun => 11

/-- The abort effect of an error on a command, the last column of the table of 60_exceptions.md R250. -/
def abortEffect (e : Err) (i : Instr) (s : State) : State :=
  match i, e with
  | .encSym _, .unknownSymbol => encodeAbort s
  | .encSym _, .capacity => encodeAbort s
  | .decode, .capacity => decodeAbort s
  | .decode, .corruptPadding => decodeAbort s
  | .decode, .corruptLeftover => decodeAbort s
  | _, _ => s

/-- The recording half of error entry: the first error is kept until it is acknowledged (60_exceptions.md R252). -/
def recordErr (e : Err) (opc : BitVec 8) (s : State) : State :=
  if s.err = 0 then { s with err := errCode e, errOpc := opc } else s

/-- Error entry (60_exceptions.md R252), the one operation behind every `raise` (00_scope.md R13): record the error
and apply its abort effect. `cmd` is the command that raises it, nothing for an illegal word and for a host
write (BUSY_OVERRUN), which have no abort effect. -/
def enterErr (e : Err) (opc : BitVec 8) (cmd : Option Instr) (s : State) : State :=
  match cmd with
  | none => recordErr e opc s
  | some i => abortEffect e i (recordErr e opc s)

/-- `raise E` in the body of a command (00_scope.md R13): none of the command's writes take effect but those of error
entry (60_exceptions.md R253), so `s` is the state before the command. -/
def raiseErr (e : Err) (i : Instr) (s : State) : Out := .next (enterErr e (opcodeOf i) (some i) s)

/-- The return from an error: ERR and ERR_OPC are acknowledged (60_exceptions.md R255, 40_control.md R109). -/
def leaveErr (s : State) : State := { s with err := 0, errOpc := 0 }

/-! ## Reset -/

/-- Every element of the CORE takes its reset value (10_state.md R47): the effect of CLEAR (40_control.md R108) and of the
release of the reset input (70_reset_and_hazards.md R280). The parameters, the schedule and the host are
outside the CORE. -/
def resetCore (s : State) : State :=
  { State.resetAt s.cfg s.draws with turns := s.turns, host := s.host }

end Sys2Proof.Machine
end

