-- ==== Sys2Proof/Machine/Operands.lean ====
section
/-! DEFINITION. Operand forms: the register slots a host access names, the words of a code value, and the value
staged for WRITE_CODE. -/

namespace Sys2Proof.Machine

/-- The slots of the register window (10_state.md R23). -/
inductive Slot where
  | cmd
  | data
  | status
  | resp
  | total
  | nsym
  | outLen
  | inLen
  | encBits
  | pad
  | ident
  | inCap
  | outCap
  /-- 0x34 to 0x3C. -/
  | reserved
  deriving DecidableEq, Repr

/-- The slot at offset `4 * n` (10_state.md R23). -/
def slotOfIndex (n : BitVec 4) : Slot :=
  match n.toNat with
  | 0 => .cmd
  | 1 => .data
  | 2 => .status
  | 3 => .resp
  | 4 => .total
  | 5 => .nsym
  | 6 => .outLen
  | 7 => .inLen
  | 8 => .encBits
  | 9 => .pad
  | 10 => .ident
  | 11 => .inCap
  | 12 => .outCap
  | _ => .reserved

/-- The slot a host address names: `off = address - BASE`, and only `off[5:2]` selects (20_memory.md R61).
Which addresses reach the window is the platform's (R61, R70). DESIGN CHOICE: every 32-bit address does, so the window repeats
every 64 bytes over the whole address space (log entry 24). -/
def slotOfAddr (c : Config) (addr : Word) : Slot := slotOfIndex ((addr - c.base).extractLsb' 2 4)

/-- The seven result slots, unspecified while BUSY = 1 (70_reset_and_hazards.md R284). -/
def Slot.isResult : Slot → Bool
  | .resp => true
  | .total => true
  | .nsym => true
  | .outLen => true
  | .inLen => true
  | .encBits => true
  | .pad => true
  | .cmd => false
  | .data => false
  | .status => false
  | .ident => false
  | .inCap => false
  | .outCap => false
  | .reserved => false

/-- Word `w` of a code value, bits 32w+31 down to 32w (20_memory.md R69). -/
def codeWord (v : BitVec 256) (w : BitVec 3) : Word := v.extractLsb' (32 * w.toNat) 32

/-- The staged value: the sum of CODE_STAGE[w] * 2^(32w) (10_state.md R40). -/
def stagedValue (t : Vector Word 8) : Nat :=
  t[0].toNat + t[1].toNat * 2 ^ 32 + t[2].toNat * 2 ^ 64 + t[3].toNat * 2 ^ 96 + t[4].toNat * 2 ^ 128
    + t[5].toNat * 2 ^ 160 + t[6].toNat * 2 ^ 192 + t[7].toNat * 2 ^ 224

end Sys2Proof.Machine
end

