-- ==== Sys2Proof/Machine/Flags.lean ====
section
/-! DEFINITION. The STATUS flags: how they are packed (10_state.md R25) and how the sequencing check and the error gate
read them (40_control.md R101, R106). -/

namespace Sys2Proof.Machine

/-- A flag as one bit. -/
def flagBit (b : Bool) : BitVec 1 := BitVec.ofBool b

/-- The STATUS word (10_state.md R25): reserved fields read 0. -/
def statusWord (s : State) : Word :=
  0#8 ++ s.errOpc ++ 0#4 ++ s.err ++ 0#2 ++ flagBit s.outKind ++ flagBit s.outValid ++ flagBit s.encActive
    ++ flagBit s.codesValid ++ flagBit s.treeValid ++ flagBit s.busy

/-- The sequencing condition SEQ_OK (40_control.md R106). -/
def seqOk (i : Instr) (s : State) : Bool :=
  match i with
  | .nop => true
  | .clear => true
  | .errClear => true
  | .count _ => !s.treeValid && !s.codesValid
  | .readFreq _ => true
  | .buildTree => !s.treeValid && !s.codesValid
  | .genCodes => s.treeValid && !s.codesValid
  | .readCodeLen _ => true
  | .readCodeWord _ _ => true
  | .stageCodeWord _ => true
  | .writeCode _ _ => !s.treeValid && !s.encActive
  | .encSym _ => s.codesValid
  | .encFinish => s.codesValid
  | .readOut _ => s.outValid
  | .inPush _ => true
  | .inClear => true
  | .decode => s.codesValid && !s.encActive

/-- The common sequencing step of every command (40_control.md R104): SEQUENCE if the condition does not hold, else
the body. -/
def sequenced (i : Instr) (s : State) (body : Out) : Out :=
  if seqOk i s then body else raiseErr .sequence i s

/-- The error gate judges a word on its opcode alone: only NOP, CLEAR and ERR_CLEAR pass (40_control.md R101). -/
def passesGate (w : Word) : Bool := opcField w = 0x00 || opcField w = 0x01 || opcField w = 0x02

end Sys2Proof.Machine
end

