-- ==== Sys2Proof/Machine/CodeTable.lean ====
section
/-! DEFINITION. The code table and path encoder: GEN_CODES, READ_CODE_LEN, READ_CODE_WORD, STAGE_CODE_WORD and WRITE_CODE
(43_code_table.md). -/

namespace Sys2Proof.Machine

/-- CODE_LEN and CODE_VAL together (10_state.md R39). -/
structure CodeTable where
  len : Vector (BitVec 8) 256
  val : Vector (BitVec 256) 256
  deriving DecidableEq, Repr

/-- The table with no code. -/
def emptyTable : CodeTable := { len := Vector.replicate 256 0, val := Vector.replicate 256 0 }

/-- Record the path `p` as the code of symbol `x` (43_code_table.md R162). -/
def recordCode (t : CodeTable) (x : Sym) (p : BitString) : CodeTable :=
  { len := symSet t.len x (BitVec.ofNat 8 p.length), val := symSet t.val x (BitVec.ofNat 256 (bitsVal p)) }

/-- `visit(n, p)` (43_code_table.md R162). `fuel` is how many edges the walk may still descend: MAX_CODE_LEN from the
root, since a built tree is no deeper (R164). Nothing if it would go deeper. -/
def visit (node : Nat → Node) : Nat → Nat → BitString → CodeTable → Option CodeTable
  | fuel, n, p, t =>
    match node n with
    | .leaf x _ => some (recordCode t x p)
    | .branch _ l r =>
      match fuel with
      | 0 => none
      | fuel + 1 => (visit node fuel l.toNat (p ++ [false]) t).bind (visit node fuel r.toNat (p ++ [true]))

/-- The table of a tree (43_code_table.md R161): the code "0" for a tree that is one leaf (R163), else the path
walk. -/
def tableOfTree (node : Nat → Node) (root : Nat) : Option CodeTable :=
  match node root with
  | .leaf x _ => some (recordCode emptyTable x [false])
  | .branch _ _ _ => visit node Config.maxCodeLen root [] emptyTable

/-- What GEN_CODES leaves (43_code_table.md R161). -/
def loadTable (t : CodeTable) (s : State) : State :=
  { s with codeLen := t.len, codeVal := t.val, codesValid := true }

/-- GEN_CODES (43_code_table.md R161 to R163). -/
def execGenCodes (s : State) : Out :=
  sequenced .genCodes s <|
    match tableOfTree (nodeAt s.nodes s.draws) s.root with
    | some t => .next (loadTable t s)
    | none => .fault .walkTooDeep

/-- READ_CODE_LEN s (43_code_table.md R166). -/
def execReadCodeLen (x : Sym) (s : State) : Out :=
  sequenced (.readCodeLen x) s (.next { s with resp := (symGet s.codeLen x).setWidth 32 })

/-- READ_CODE_WORD s, w (43_code_table.md R167). -/
def execReadCodeWord (x : Sym) (w : BitVec 3) (s : State) : Out :=
  sequenced (.readCodeWord x w) s (.next { s with resp := codeWord (symGet s.codeVal x) w })

/-- STAGE_CODE_WORD w (43_code_table.md R168): the data is PENDING_DATA, latched at acceptance (40_control.md R101). -/
def execStageCodeWord (w : BitVec 3) (s : State) : Out :=
  sequenced (.stageCodeWord w) s (.next { s with codeStage := stageSet s.codeStage w s.pendingData })

/-- The low `l` bits of the staged value (43_code_table.md R169). -/
def stagedCode (s : State) (l : BitVec 8) : BitVec 256 := BitVec.ofNat 256 (stagedValue s.codeStage % 2 ^ l.toNat)

/-- Another symbol than `x` has the code of length `l` and value `v` (43_code_table.md R169, R171). -/
def duplicateCode (s : State) (x : Sym) (l : BitVec 8) (v : BitVec 256) : Bool :=
  allSyms.any fun t => t ≠ x && symGet s.codeLen t = l && symGet s.codeVal t = v

/-- What WRITE_CODE leaves (43_code_table.md R169). -/
def putCode (x : Sym) (l : BitVec 8) (v : BitVec 256) (s : State) : State :=
  { s with codeLen := symSet s.codeLen x l, codeVal := symSet s.codeVal x v, codesValid := true }

/-- WRITE_CODE s, l (43_code_table.md R169 to R171). -/
def execWriteCode (x : Sym) (l : BitVec 8) (s : State) : Out :=
  sequenced (.writeCode x l) s <|
    if 0 < l.toNat && duplicateCode s x l (stagedCode s l) then raiseErr .duplicateCode (.writeCode x l) s
    else .next (putCode x l (stagedCode s l) s)

end Sys2Proof.Machine
end

