-- ==== Sys2Proof/Machine/Control.lean ====
section
/-! DEFINITION. The control commands NOP, CLEAR and ERR_CLEAR (40_control.md R107 to R109). -/

namespace Sys2Proof.Machine

/-- NOP (40_control.md R107). -/
def execNop (s : State) : Out := sequenced .nop s (.next s)

/-- CLEAR (40_control.md R108). -/
def execClear (s : State) : Out := sequenced .clear s (.next (resetCore s))

/-- ERR_CLEAR (40_control.md R109). -/
def execErrClear (s : State) : Out := sequenced .errClear s (.next (leaveErr s))

end Sys2Proof.Machine
end

