-- ==== Sys2Proof/Machine/Frequency.lean ====
section
/-! DEFINITION. The frequency counter: COUNT and READ_FREQ (41_frequency_counter.md). -/

namespace Sys2Proof.Machine

/-- One occurrence of a symbol is counted, by the pseudocode of 41_frequency_counter.md R121. -/
def countSym (x : Sym) (s : State) : State :=
  { s with
    nsym := if symGet s.freq x = 0 then s.nsym + 1 else s.nsym
    freq := symSet s.freq x (symGet s.freq x + 1)
    total := s.total + 1 }

/-- COUNT s (41_frequency_counter.md R121, R122). -/
def execCount (x : Sym) (s : State) : Out :=
  sequenced (.count x) s <|
    if s.total = 0xFFFFFFFF then raiseErr .countOverflow (.count x) s else .next (countSym x s)

/-- READ_FREQ s (41_frequency_counter.md R124). -/
def execReadFreq (x : Sym) (s : State) : Out :=
  sequenced (.readFreq x) s (.next { s with resp := symGet s.freq x })

end Sys2Proof.Machine
end

