-- ==== Sys2Proof/Machine/Packer.lean ====
section
/-! DEFINITION. The bitstream packer: ENC_SYM, ENC_FINISH and READ_OUT (44_bit_packer.md). -/

namespace Sys2Proof.Machine

/-- The open stream, or a stream started now (44_bit_packer.md R191, R192, R196). -/
def openStream (s : State) : State := if s.encActive then s else startStream s

/-- The bytes of a finished stream of `len` encoded bits (44_bit_packer.md R193, R197). -/
def finishedBytes (len : Nat) : Nat := 2 + len / 8

/-- The code of `x` is appended to the EncodedStream (44_bit_packer.md R191). -/
def appendCode (x : Sym) (s : State) : State :=
  { s with
    encStream := s.encStream ++ codeOf s.codeLen s.codeVal x
    encBits := BitVec.ofNat 32 (s.encBits.toNat + (symGet s.codeLen x).toNat) }

/-- ENC_SYM s (44_bit_packer.md R191 to R194). -/
def execEncSym (x : Sym) (s : State) : Out :=
  sequenced (.encSym x) s <|
    if symGet s.codeLen x = 0 then raiseErr .unknownSymbol (.encSym x) s
    else if finishedBytes ((openStream s).encBits.toNat + (symGet s.codeLen x).toNat) > s.cfg.outCap then
      raiseErr .capacity (.encSym x) s
    else .next (appendCode x (openStream s))

/-- Pad, prepend the header and write the ByteBuffer of the stream held in `s` (44_bit_packer.md R196). -/
def finishStream (s : State) : State :=
  { writeOutBytes s (bytesOfBits (paddedStream s.encStream) ((paddedStream s.encStream).length / 8)) with
    outLen := (paddedStream s.encStream).length / 8
    outValid := true
    outKind := false
    pad := BitVec.ofNat 8 (padAmount s.encStream.length)
    encActive := false }

/-- ENC_FINISH (44_bit_packer.md R195, R196). -/
def execEncFinish (s : State) : Out := sequenced .encFinish s (.next (finishStream (openStream s)))

/-- READ_OUT a (44_bit_packer.md R203). -/
def execReadOut (a : BitVec 24) (s : State) : Out :=
  sequenced (.readOut a) s <|
    if s.outLen ≤ a.toNat then raiseErr .badOperand (.readOut a) s
    else .next { s with resp := (readOutByte s a.toNat).setWidth 32 }

end Sys2Proof.Machine
end

