-- ==== Sys2Proof/Machine/Tree.lean ====
section
/-! DEFINITION. The tree builder with its priority queue: BUILD_TREE (42_tree_builder.md). -/

namespace Sys2Proof.Machine

/-- The leaves, one per symbol with FREQ[s] > 0, in ascending symbol order (42_tree_builder.md R141). -/
def leavesOf (freq : Vector Word 256) : List Node :=
  allSyms.filterMap fun x => if 0 < (symGet freq x).toNat then some (.leaf x (symGet freq x)) else none

/-- The working state of the builder: NODE, PQ, `next`, and the number of the next free choice. -/
structure Builder where
  nodes : Store Node
  pq    : List Nat
  next  : Nat
  draw  : Nat
  deriving DecidableEq, Repr

/-- NODE[i].NFREQ as a number, in the builder's store. -/
def nfreqAt (nodes : Store Node) (k i : Nat) : Nat := (nodeAt nodes k i).nfreq.toNat

/-- The order of the queue under SEQ: the key (NODE[i].NFREQ, i), compared lexicographically
(42_tree_builder.md R142). -/
def keyLe (key : Nat → Nat) (i j : Nat) : Bool := key i < key j || (key i = key j && i ≤ j)

/-- The indices of smallest key under SEQ (42_tree_builder.md R142): exactly one if the queue is not empty. -/
def seqMinima (key : Nat → Nat) (pq : List Nat) : List Nat := pq.filter fun i => pq.all fun j => keyLe key i j

/-- The indices of smallest NFREQ, among which ANY chooses (42_tree_builder.md R143). -/
def anyMinima (key : Nat → Nat) (pq : List Nat) : List Nat := pq.filter fun i => pq.all fun j => key i ≤ key j

/-- popmin (42_tree_builder.md R142, R143): the popped index and the rest of the queue. `choice` picks among the
candidates of ANY, taken modulo their number. -/
def popMin (tie : TiePolicy) (choice : Nat) (key : Nat → Nat) (pq : List Nat) : Option (Nat × List Nat) :=
  match tie with
  | .seq => (seqMinima key pq)[0]?.map fun i => (i, pq.erase i)
  | .any => (anyMinima key pq)[choice % (anyMinima key pq).length]?.map fun i => (i, pq.erase i)

/-- The number of free choices one popmin uses. -/
def choicesUsed : TiePolicy → Nat
  | .seq => 0
  | .any => 1

/-- One round of the loop of 42_tree_builder.md R141: pop `a`, pop `b`, store the new node with `a` on the left, and
push it. `choose` is the source of free choices, `k` the number of the draw behind unlisted nodes. -/
def mergeOnce (tie : TiePolicy) (choose : Nat → Nat) (k : Nat) (t : Builder) : Option Builder :=
  (popMin tie (choose t.draw) (nfreqAt t.nodes k) t.pq).bind fun (a, q) =>
    (popMin tie (choose (t.draw + choicesUsed tie)) (nfreqAt t.nodes k) q).map fun (b, q') =>
      { nodes := storePut t.nodes t.next
          (.branch ((nodeAt t.nodes k a).nfreq + (nodeAt t.nodes k b).nfreq) (BitVec.ofNat 9 a) (BitVec.ofNat 9 b))
        pq := q' ++ [t.next]
        next := t.next + 1
        draw := t.draw + 2 * choicesUsed tie }

/-- `while |PQ| > 1` (42_tree_builder.md R141). Every round shortens the queue by one, so its length is fuel
enough. -/
def mergeLoop (tie : TiePolicy) (choose : Nat → Nat) (k : Nat) : Nat → Builder → Option Builder
  | 0, t => some t
  | n + 1, t => if t.pq.length ≤ 1 then some t else (mergeOnce tie choose k t).bind (mergeLoop tie choose k n)

/-- The builder before the loop: the leaves at indices 0..N-1 and PQ = all of them (42_tree_builder.md R141). -/
def builderStart (s : State) : Builder :=
  { nodes := storePutFrom s.nodes 0 (leavesOf s.freq)
    pq := List.range (leavesOf s.freq).length
    next := (leavesOf s.freq).length
    draw := s.draws }

/-- The whole algorithm of 42_tree_builder.md R141 for a source of free choices. -/
def buildWith (choose : Nat → Nat) (s : State) : Option Builder :=
  mergeLoop s.cfg.tie choose s.draws (leavesOf s.freq).length (builderStart s)

/-- What BUILD_TREE leaves when the builder ends (42_tree_builder.md R141). -/
def finishBuild (t : Builder) (root : Nat) (s : State) : State :=
  { s with nodes := t.nodes, pq := t.pq, root := root, nnodes := t.next, treeValid := true, draws := t.draw }

/-- The body of BUILD_TREE for a source of free choices (42_tree_builder.md R141, R143). -/
def buildTreeBody (choose : Nat → Nat) (s : State) : Out :=
  if s.nsym = 0 then raiseErr .emptyInput .buildTree s
  else
    match buildWith choose s with
    | none => .fault .emptyQueue
    | some t =>
      match t.pq with
      | root :: _ => .next (finishBuild t root s)
      | [] => .fault .emptyQueue

/-- BUILD_TREE (42_tree_builder.md R141). Under ANY the choices are free values (log entry 7). -/
def execBuildTree (s : State) : Out := sequenced .buildTree s (buildTreeBody Config.freeChoice s)

end Sys2Proof.Machine
end

