-- ==== Sys2Proof/Machine/Unpacker.lean ====
section
/-! DEFINITION. The bitstream unpacker: IN_PUSH, IN_CLEAR and DECODE (45_bit_unpacker.md). -/

namespace Sys2Proof.Machine

/-- IN_PUSH b (45_bit_unpacker.md R221). -/
def execInPush (b : Byte) (s : State) : Out :=
  sequenced (.inPush b) s <|
    if s.inLen = s.cfg.inCap then raiseErr .capacity (.inPush b) s
    else .next { writeIn s s.inLen b with inLen := s.inLen + 1 }

/-- IN_CLEAR (45_bit_unpacker.md R222): the bytes of IN_MEM become unspecified. -/
def execInClear (s : State) : Out := sequenced .inClear s (.next { s with inLen := 0, inMem := [] })

/-- `match(c)` (45_bit_unpacker.md R225): the symbol whose code is `c`. At most one exists by invariant (b) of 10_state.md
R39; in a state that breaks it, the lowest (log entry 12). -/
def matchCode (len : Vector (BitVec 8) 256) (val : Vector (BitVec 256) 256) (c : BitString) : Option Sym :=
  allSyms.find? fun x => 0 < c.length && (symGet len x).toNat = c.length && (symGet val x).toNat = bitsVal c

/-- `scan(Y)` (45_bit_unpacker.md R225) from a candidate `c` and the symbols emitted so far: the decoded symbols, or the
error raised. `look` is the reverse lookup, `cap` is OUT_CAP. -/
def scanBits (look : BitString → Option Sym) (cap : Nat) : BitString → BitString → List Sym → Except Err (List Sym)
  | [], c, out => if c = [] then .ok out else .error .corruptLeftover
  | y :: ys, c, out =>
    match look (c ++ [y]) with
    | some x => if out.length = cap then .error .capacity else scanBits look cap ys [] (out ++ [x])
    | none => scanBits look cap ys (c ++ [y]) out

/-- The early stop that 45_bit_unpacker.md R227 allows: the same scan, which gives up as soon as the candidate is longer
than the longest code. The machine uses `scanBits`; the two agree. -/
def scanEarly (look : BitString → Option Sym) (cap longest : Nat) :
    BitString → BitString → List Sym → Except Err (List Sym)
  | [], c, out => if c = [] then .ok out else .error .corruptLeftover
  | y :: ys, c, out =>
    match look (c ++ [y]) with
    | some x => if out.length = cap then .error .capacity else scanEarly look cap longest ys [] (out ++ [x])
    | none =>
      if longest < c.length + 1 then .error .corruptLeftover else scanEarly look cap longest ys (c ++ [y]) out

/-- The bytes IN_MEM[0..IN_LEN). -/
def inputBytes (s : State) : List Byte := (List.range s.inLen).map (readIn s)

/-- The decode bit string B (45_bit_unpacker.md R223). -/
def inputBits (s : State) : BitString := bitsOfBytes (inputBytes s)

/-- The payload Y = B{8 .. 8n - pad} (45_bit_unpacker.md R224). -/
def payloadBits (s : State) : BitString := bitSlice (inputBits s) 8 (8 * s.inLen - (readIn s 0).toNat)

/-- What a successful DECODE leaves (45_bit_unpacker.md R224). -/
def storeDecoded (out : List Sym) (header : Byte) (s : State) : State :=
  { writeOutBytes s out with outLen := out.length, outValid := true, outKind := true, pad := header }

/-- DECODE (45_bit_unpacker.md R224 to R226). -/
def execDecode (s : State) : Out :=
  sequenced .decode s <|
    if s.inLen = 0 then raiseErr .corruptPadding .decode s
    else if (readIn s 0).toNat > 8 * s.inLen - 8 then raiseErr .corruptPadding .decode s
    else
      match scanBits (matchCode s.codeLen s.codeVal) s.cfg.outCap (payloadBits s) [] [] with
      | .error e => raiseErr e .decode s
      | .ok out => .next (storeDecoded out (readIn s 0) s)

end Sys2Proof.Machine
end

