-- ==== Sys2Proof/Machine/Dispatch.lean ====
section
/-! DEFINITION. One arm per command (40_control.md R104). -/

namespace Sys2Proof.Machine

def exec (i : Instr) (s : State) : Host.Outcome State Fault Refusal :=
  match i with
  | .nop => Sys2Proof.Machine.execNop s
  | .clear => Sys2Proof.Machine.execClear s
  | .errClear => Sys2Proof.Machine.execErrClear s
  | .count x => Sys2Proof.Machine.execCount x s
  | .readFreq x => Sys2Proof.Machine.execReadFreq x s
  | .buildTree => Sys2Proof.Machine.execBuildTree s
  | .genCodes => Sys2Proof.Machine.execGenCodes s
  | .readCodeLen x => Sys2Proof.Machine.execReadCodeLen x s
  | .readCodeWord x w => Sys2Proof.Machine.execReadCodeWord x w s
  | .stageCodeWord w => Sys2Proof.Machine.execStageCodeWord w s
  | .writeCode x l => Sys2Proof.Machine.execWriteCode x l s
  | .encSym x => Sys2Proof.Machine.execEncSym x s
  | .encFinish => Sys2Proof.Machine.execEncFinish s
  | .readOut a => Sys2Proof.Machine.execReadOut a s
  | .inPush b => Sys2Proof.Machine.execInPush b s
  | .inClear => Sys2Proof.Machine.execInClear s
  | .decode => Sys2Proof.Machine.execDecode s

end Sys2Proof.Machine
end

