-- ==== Sys2Proof/Machine/Window.lean ====
section
/-! DEFINITION. The register window: host writes and reads (20_memory.md R61 to R65, 40_control.md R101 and R102,
70_reset_and_hazards.md R284). -/

namespace Sys2Proof.Machine

/-- A command word is accepted: latched with DATA, and BUSY is set (40_control.md R101). -/
def acceptWord (w : Word) (s : State) : State := { s with pending := w, pendingData := s.data, busy := true }

/-- Host write of `w` to CMD (40_control.md R101): overrun while BUSY, else the error gate, else accepted. -/
def writeCmd (w : Word) (s : State) : State :=
  if s.busy then enterErr .busyOverrun (opcField w) none s
  else if s.err ≠ 0 && !passesGate w then s
  else acceptWord w s

/-- Host write of a register slot (20_memory.md R64, 40_control.md R102). A write to a read-only or reserved slot is
ignored. -/
def writeSlot (slot : Slot) (v : Word) (s : State) : State :=
  match slot with
  | .cmd => writeCmd v s
  | .data => { s with data := v }
  | .status => s
  | .resp => s
  | .total => s
  | .nsym => s
  | .outLen => s
  | .inLen => s
  | .encBits => s
  | .pad => s
  | .ident => s
  | .inCap => s
  | .outCap => s
  | .reserved => s

/-- The value a register slot holds (10_state.md R23 to R34); CMD and the reserved slots read 0 (20_memory.md R64). -/
def slotValue (slot : Slot) (s : State) : Word :=
  match slot with
  | .cmd => 0
  | .data => s.data
  | .status => statusWord s
  | .resp => s.resp
  | .total => s.total
  | .nsym => BitVec.ofNat 32 s.nsym
  | .outLen => BitVec.ofNat 32 s.outLen
  | .inLen => BitVec.ofNat 32 s.inLen
  | .encBits => s.encBits
  | .pad => s.pad.setWidth 32
  | .ident => Config.ident
  | .inCap => BitVec.ofNat 32 s.cfg.inCap
  | .outCap => BitVec.ofNat 32 s.cfg.outCap
  | .reserved => 0

/-- A host read returns an unspecified value: a result slot while BUSY = 1 (70_reset_and_hazards.md R284). -/
def readIsFree (slot : Slot) (s : State) : Bool := s.busy && slot.isResult

/-- The value a host read of a slot returns (20_memory.md R64, R65; 70_reset_and_hazards.md R284): a free value where R284
says unspecified (log entry 6). -/
def readSlot (slot : Slot) (s : State) : Word := if readIsFree slot s then Config.freeWord s.draws else slotValue slot s

/-- The state after a host read: the read has no side effect on the CORE (20_memory.md R64); the counter of free values
moves on when the value was free, so that the next one is fresh. -/
def afterRead (slot : Slot) (s : State) : State := if readIsFree slot s then { s with draws := s.draws + 1 } else s

end Sys2Proof.Machine
end

