-- ==== Sys2Proof/Machine/Turns.lean ====
section
/-! DEFINITION. One turn of each agent: the core (40_control.md R103, R104), the host (30_encoding.md R89) and the platform
(70_reset_and_hazards.md R280, R282), and the schedule (R291). -/

namespace Sys2Proof.Machine

/-- `execute(w, d)` (40_control.md R104): an illegal word raises ILLEGAL_CMD, a command runs. `d` is PENDING_DATA, which the
state holds. -/
def executeWord (w : Word) (s : State) : Out :=
  match decodeWord w with
  | .error _ => .next (enterErr .illegalCmd (opcField w) none s)
  | .ok i => exec i s

/-- The command has completed: BUSY <- 0 (40_control.md R103). -/
def complete (o : Out) : Out :=
  match o with
  | .next t => .next { t with busy := false }
  | .fault r => .fault r
  | .refused r => .refused r

/-- The core is enabled: BUSY = 1, after a reset (40_control.md R103, 70_reset_and_hazards.md R280). -/
def coreEnabled (s : State) : Bool := s.busy && s.phase = .running

/-- The core step (40_control.md R103). With BUSY = 0 the core is idle, not stuck. -/
def coreTurn (s : State) : Out := if coreEnabled s then complete (executeWord s.pending s) else .next s

/-- A host access is possible only at 32 bits and after reset (20_memory.md R62, 70_reset_and_hazards.md R280, R282). -/
def guardAccess (width : Nat) (s : State) (access : Out) : Out :=
  match s.phase with
  | .powerUp => .refused .accessBeforeReset
  | .resetAsserted => .refused .accessDuringReset
  | .running => if width = 32 then access else .refused .accessWidth

/-- A host variable; one that was never read into is a free value of its own (log entry 20). -/
def hostVar (s : State) (var : Nat) : Word := (storeGet s.host.vars var).getD (Config.freeVar var)

/-- The host goes on with its next operation. -/
def hostNext (s : State) : State := { s with host := { s.host with pc := s.host.pc + 1 } }

/-- The host branches if `cond` (30_encoding.md R89). -/
def hostBranch (cond : Bool) (target : Nat) (s : State) : State :=
  if cond then { s with host := { s.host with pc := target } } else hostNext s

/-- `rd REG -> name` (30_encoding.md R89): the value read goes into the variable. -/
def hostStore (var : Nat) (v : Word) (s : State) : State :=
  { s with host := { s.host with vars := storePut s.host.vars var v } }

/-- One host operation (30_encoding.md R89, R90). -/
def hostOp (op : HostOp) (s : State) : Out :=
  match op with
  | .wr width addr v => guardAccess width s (.next (hostNext (writeSlot (slotOfAddr s.cfg addr) v s)))
  | .rd width addr var =>
    guardAccess width s
      (.next (hostNext (hostStore var (readSlot (slotOfAddr s.cfg addr) s) (afterRead (slotOfAddr s.cfg addr) s))))
  | .bnz var bit target => .next (hostBranch ((hostVar s var).getLsbD bit) target s)
  | .bz var bit target => .next (hostBranch (!(hostVar s var).getLsbD bit) target s)
  | .requireNoErr var =>
    if (hostVar s var).extractLsb' 8 4 = 0 then .next (hostNext s)
    else .next { s with host := { s.host with failed := true } }

/-- The host's next operation; nothing when its program has finished or an assertion of its own failed. -/
def hostPending (s : State) : Option HostOp := if s.host.failed then none else s.host.prog[s.host.pc]?

/-- The host's turn: a finished host moves no more (40_control.md R110). -/
def hostTurn (s : State) : Out :=
  match hostPending s with
  | none => .next s
  | some op => hostOp op s

/-- The platform releases the reset input (70_reset_and_hazards.md R280). -/
def releaseTurn (s : State) : State := if s.phase = .resetAsserted then resetCore s else s

/-- Power is restored after it was removed: every element of the CORE is unspecified until a reset (70_reset_and_hazards.md
R282, 60_exceptions.md R264), so the whole of it is a free value. The parameters, the schedule and the host are outside the
CORE (log entry 14). -/
def powerUpState (s : State) : State :=
  { Config.freePowerUp s.draws with
    cfg := s.cfg, phase := .powerUp, turns := s.turns, host := s.host, draws := s.draws + 1 }

/-- The turn of one agent. While reset is asserted the elements are left as they stand, and take their reset values at the
release (log entry 16). -/
def turnOf (t : Turn) (s : State) : Out :=
  match t with
  | .core => coreTurn s
  | .host => hostTurn s
  | .assertReset => .next { s with phase := .resetAsserted }
  | .releaseReset => .next (releaseTurn s)
  | .powerRestored => .next (powerUpState s)

/-- The turns up to a core step that is enabled, `d` of them the host's: weak fairness, for whatever finite `d`
(70_reset_and_hazards.md R291; log entry 1). -/
def fairTurns (d : Nat) : List Turn := List.replicate d .host ++ [.core]

/-- With none listed and the core enabled, the schedule lists the turns up to the core's, a free number of them the host's
(70_reset_and_hazards.md R291; log entry 1). -/
def listTurns (s : State) : State :=
  if s.turns = [] ∧ coreEnabled s then { s with turns := fairTurns (Config.freeDelay s.draws), draws := s.draws + 1 } else s

/-- The turn that is listed; with none listed the host moves. -/
def takeTurn (s : State) : Out :=
  match s.turns with
  | [] => turnOf .host s
  | t :: ts => turnOf t { s with turns := ts }

/-- One step: the next turn of the schedule. -/
def turnStep (s : State) : Out := takeTurn (listTurns s)

/-- A command word of `nbits` table bits placed where the core takes its next command: accepted (40_control.md R101), with
the core's own turn next and the schedule's other turns after it. -/
def placeWord (s : State) (nbits w : Nat) : State :=
  { acceptWord (BitVec.ofNat 32 (w % 2 ^ nbits)) s with phase := .running, turns := .core :: s.turns }

end Sys2Proof.Machine
end

