-- ==== Sys2Proof/Machine/Step.lean ====
section
/-! DEFINITION. The machine's step, and the placing of a command word where the next step runs it. -/

namespace Sys2Proof.Machine

/-- One step of the machine: one turn of one agent (40_control.md R100 to R103). -/
def step (s : State) : Host.Outcome State Fault Refusal := turnStep s

/-- `s` with the command word accepted and the core to move next, so that `step` executes it. The CORE fetches
nothing (10_state.md R22): the host's CMD write supplies the word, and this stands for it (log entry 3). -/
def State.withFetchWord (s : State) (nbits w : Nat) : State := placeWord s nbits w

end Sys2Proof.Machine
end

