-- ==== Sys2Proof/Machine/HostProgram.lean ====
section
/-! DEFINITION. Host programs: the pseudo-instructions of 30_encoding.md R90 as lists of host operations, and the end of a
run (40_control.md R110). -/

namespace Sys2Proof.Machine

/-- A piece of a host program: its operations when its first one stands at the given position (branch targets are
positions, and stand for the labels of 30_encoding.md R89). -/
abbrev Piece := Nat → List HostOp

/-- Pieces one after another. -/
def inSequence : List Piece → Piece
  | [], _ => []
  | p :: ps, pos => p pos ++ inSequence ps (pos + (p pos).length)

/-- `wr CMD, enc(C)`, without a wait (30_encoding.md R89); `b` is BASE. -/
def issue (b : Word) (i : Instr) : Piece := fun _ => [.wr 32 b (encode i)]

/-- `wr DATA, v` (30_encoding.md R89). -/
def wrData (b v : Word) : Piece := fun _ => [.wr 32 (b + 0x04) v]

/-- `rd RESP -> name` (30_encoding.md R89). -/
def rdResp (b : Word) (var : Nat) : Piece := fun _ => [.rd 32 (b + 0x0C) var]

/-- The variable `t` of the pseudo-instructions. It is their own, as their label `L` is: a program's variable that is also
called `t` is another one (95_test_vectors.md P3 keeps its `t` over later polls; log entry 23). -/
def statusVar : Nat := 0

/-- The number of the `i`-th name of a program's variables. -/
def nameVar (i : Nat) : Nat := 1 + i

/-- The number of element `a` (below 2^24) of the array called by the `i`-th of `m` names. No two elements, and no element
and no name, have one number. -/
def elemVar (m i a : Nat) : Nat := 1 + m + i * 2 ^ 24 + a

/-- `poll`: read STATUS until BUSY = 0 (30_encoding.md R90, 70_reset_and_hazards.md R283). -/
def poll (b : Word) : Piece := fun pos => [.rd 32 (b + 0x08) statusVar, .bnz statusVar 0 pos]

/-- `do C` for the word of C (30_encoding.md R90). -/
def doRaw (b w : Word) : Piece := inSequence [fun _ => [.wr 32 b w], poll b]

/-- `do C` (30_encoding.md R90). -/
def doCmd (b : Word) (i : Instr) : Piece := doRaw b (encode i)

/-- `check` (30_encoding.md R90). -/
def check (b : Word) : Piece := fun _ => [.rd 32 (b + 0x08) statusVar, .requireNoErr statusVar]

/-- `stage w, v` (30_encoding.md R90). -/
def stage (b : Word) (w : BitVec 3) (v : Word) : Piece := inSequence [wrData b v, doCmd b (.stageCodeWord w)]

/-- `load_code s, "p"` (30_encoding.md R90): the words that hold the code, then WRITE_CODE; an assembly error if the code is
longer than MAX_CODE_LEN. -/
def loadCode (b : Word) (x : Sym) (p : BitString) : Option Piece :=
  if p.length ≤ Config.maxCodeLen then
    some <| inSequence <|
      (List.range ((p.length + 31) / 32)).map
          (fun w => stage b (BitVec.ofNat 3 w) (BitVec.ofNat 32 (bitsVal p / 2 ^ (32 * w)))) ++
        [doCmd b (.writeCode x (BitVec.ofNat 8 p.length))]
  else none

/-- `count_str "t"` (30_encoding.md R90). -/
def countStr (b : Word) (t : List Sym) : Piece := inSequence (t.map fun x => doCmd b (.count x))

/-- `enc_str "t"` (30_encoding.md R90). -/
def encStr (b : Word) (t : List Sym) : Piece := inSequence (t.map fun x => doCmd b (.encSym x))

/-- `push "b0 b1 ..."` (30_encoding.md R90). -/
def push (b : Word) (bs : List Byte) : Piece := inSequence (bs.map fun v => doCmd b (.inPush v))

/-- `read_out n -> v[0..n)` (30_encoding.md R90); `v a` is the number of the variable `v[a]`. An assembly error if an index
does not fit READ_OUT's 24-bit operand (R89). -/
def readOutAll (b : Word) (n : Nat) (v : Nat → Nat) : Option Piece :=
  if n ≤ 2 ^ 24 then
    some (inSequence ((List.range n).map fun a => inSequence [doCmd b (.readOut (BitVec.ofNat 24 a)), rdResp b (v a)]))
  else none

/-- `compress "t"` (30_encoding.md R90). -/
def compress (b : Word) (t : List Sym) : Piece :=
  inSequence [doCmd b .clear, countStr b t, doCmd b .buildTree, doCmd b .genCodes, encStr b t, doCmd b .encFinish]

/-- `decompress "b0 b1 ..."` (30_encoding.md R90). -/
def decompress (b : Word) (bs : List Byte) : Piece := inSequence [doCmd b .inClear, push b bs, doCmd b .decode]

/-- The CORE after reset with a host program to run: a launch state (40_control.md R110; log entry 3). -/
def launch (c : Config) (p : Piece) : State :=
  { State.resetAt c 0 with host := { prog := p 0, pc := 0, vars := [], failed := false } }

/-- A run has ended: the host's program has finished and BUSY = 0 (40_control.md R110). DESIGN CHOICE: a
program whose `check` failed has finished too, although operations of it are left (log entry 25). -/
def runEnded (s : State) : Bool := (hostPending s).isNone && !s.busy

end Sys2Proof.Machine
end

