-- ==== Sys2Proof/Machine/Assembler.lean ====
section
/-! DEFINITION. The host command language of 30_encoding.md R89, from the characters of a line to a host operation. It has
no effect on the CORE (92_eei_decisions.md D33): it says which word a line writes. -/

namespace Sys2Proof.Machine

/-- A line or a token of the language. -/
abbrev Chars := List Char

/-- Mnemonics and their opcodes (30_encoding.md R83). -/
def mnemonicTable : List (String × BitVec 8) :=
  [("NOP", 0x00), ("CLEAR", 0x01), ("ERR_CLEAR", 0x02), ("COUNT", 0x10), ("READ_FREQ", 0x11), ("BUILD_TREE", 0x20),
   ("GEN_CODES", 0x21), ("READ_CODE_LEN", 0x22), ("READ_CODE_WORD", 0x23), ("STAGE_CODE_WORD", 0x24),
   ("WRITE_CODE", 0x25), ("ENC_SYM", 0x30), ("ENC_FINISH", 0x31), ("READ_OUT", 0x32), ("IN_PUSH", 0x40),
   ("IN_CLEAR", 0x41), ("DECODE", 0x50)]

/-- Register names and their offsets (10_state.md R23). -/
def registerTable : List (String × Word) :=
  [("CMD", 0x00), ("DATA", 0x04), ("STATUS", 0x08), ("RESP", 0x0C), ("TOTAL", 0x10), ("NSYM", 0x14), ("OUT_LEN", 0x18),
   ("IN_LEN", 0x1C), ("ENC_BITS", 0x20), ("PAD", 0x24), ("ID", 0x28), ("IN_CAP_REG", 0x2C), ("OUT_CAP_REG", 0x30)]

/-- Look a token up, without regard to case (30_encoding.md R89). -/
def lookName {α : Type} (table : List (String × α)) (t : Chars) : Option α :=
  (table.find? fun p => p.1.toList = t.map Char.toUpper).map Prod.snd

/-- The operand field of a form from its operands, in the order of R89 (30_encoding.md R81). -/
def operandWord : Form → List Nat → Nat
  | .none, _ => 0
  | .sym, [s] => s
  | .byte, [b] => b
  | .symw, [s, w] => w * 2 ^ 8 + s
  | .widx, [w] => w
  | .code, [s, l] => l * 2 ^ 8 + s
  | .addr, [a] => a
  | _, _ => 0

/-- The word of an opcode and its operands; an operand that does not fit its field is an assembly error, not a
truncation (30_encoding.md R89). -/
def assembleWord (opc : BitVec 8) (ops : List Nat) : Option Word :=
  (formOf opc).bind fun f => if operandsFit f ops then some (opc ++ BitVec.ofNat 24 (operandWord f ops)) else none

/-- The value of a digit. -/
def digitVal (c : Char) : Nat :=
  let n := c.toNat
  if 48 ≤ n && n ≤ 57 then n - 48 else if 97 ≤ n && n ≤ 102 then n - 87 else if 65 ≤ n && n ≤ 70 then n - 55 else 16

/-- A numeral in a radix, most significant digit first; nothing for an empty one or a foreign digit. -/
def numeralVal (radix : Nat) (t : Chars) : Option Nat :=
  if t = [] then none
  else t.foldl (fun acc c => acc.bind fun n => if digitVal c < radix then some (n * radix + digitVal c) else none) (some 0)

/-- A number: decimal, `0x` hexadecimal or `0b` binary (30_encoding.md R89). -/
def numberVal : Chars → Option Nat
  | '0' :: 'x' :: t => numeralVal 16 t
  | '0' :: 'b' :: t => numeralVal 2 t
  | t => numeralVal 10 t

/-- A character that may stand in a name, a mnemonic or a number. R89 does not say which characters a label or a variable name
has. DESIGN CHOICE: ASCII letters, digits and `_`, in any order (log entry 23). -/
def isWordChar (c : Char) : Bool := c.isAlphanum || c = '_'

/-- A blank. R89 does not say what separates tokens, and the texts of R90 separate bytes by spaces. DESIGN CHOICE: a space or a
tab (log entry 23). -/
def isBlank (c : Char) : Bool := c = ' ' || c = '\t'

/-- The tokens of a line (30_encoding.md R89, R90). -/
inductive Token where
  | word (t : Chars)
  | charLit (c : Char)
  | strLit (t : Chars)
  | comma
  | colon
  | arrow
  | lbrack
  | rbrack
  /-- Element `a` of the array called `v`, written `v[a]`. -/
  | elem (v : Chars) (a : Nat)
  deriving DecidableEq, Repr

/-- A pending word becomes a token. -/
def flushWord (w : Chars) (ts : List Token) : List Token := if w = [] then ts else .word w.reverse :: ts

/-- Cut a line into tokens: `w` is the word being read (reversed), `quoted` says that it stands in a string literal, a
comment ends the line. Nothing for a foreign character or a string that does not end (30_encoding.md R89, R90). R89's grammar
does not say what separates tokens. DESIGN CHOICE: blanks (`isBlank`) or nothing, where the characters show where a token ends; outside literals and comments a
character of no token makes the text no program (log entry 23). -/
def tokensOf : Chars → Chars → Bool → Option (List Token)
  | [], w, quoted => if quoted then none else some (flushWord w [])
  | c :: t, w, true =>
    if c = '"' then (tokensOf t [] false).map fun ts => .strLit w.reverse :: ts else tokensOf t (c :: w) true
  | '\'' :: c :: '\'' :: t, w, false => (tokensOf t [] false).map fun ts => flushWord w (.charLit c :: ts)
  | '-' :: '>' :: t, w, false => (tokensOf t [] false).map fun ts => flushWord w (.arrow :: ts)
  | c :: t, w, false =>
    if c = ';' then some (flushWord w [])
    else if isBlank c then (tokensOf t [] false).map (flushWord w)
    else if c = ',' then (tokensOf t [] false).map fun ts => flushWord w (.comma :: ts)
    else if c = ':' then (tokensOf t [] false).map fun ts => flushWord w (.colon :: ts)
    else if c = '[' then (tokensOf t [] false).map fun ts => flushWord w (.lbrack :: ts)
    else if c = ']' then (tokensOf t [] false).map fun ts => flushWord w (.rbrack :: ts)
    else if c = '"' then (tokensOf t [] true).map (flushWord w)
    else if isWordChar c then tokensOf t (c :: w) false
    else none

/-- A name, its index in brackets, joined to one token. R89 leaves the form of a name open, and the expansion of `read_out`
writes `v[a]` (R90). DESIGN CHOICE: `v[a]` for a number `a` below 2^24 names the element that `read_out -> v` fills; another index
makes no statement (log entry 23). -/
def joinElems : List Token → List Token
  | .word v :: .lbrack :: .word i :: .rbrack :: ts =>
    match numberVal i with
    | some a => if a < 2 ^ 24 then .elem v a :: joinElems ts else .lbrack :: joinElems ts
    | none => .lbrack :: joinElems ts
  | t :: ts => t :: joinElems ts
  | [] => []

/-- An operand: a number or a character literal, whose value is the character's code; the literal is one ASCII
character (30_encoding.md R89). -/
def operandVal : Token → Option Nat
  | .word t => numberVal t
  | .charLit c => if c.toNat < 128 then some c.toNat else none
  | .strLit _ => none
  | .comma => none
  | .colon => none
  | .arrow => none
  | .lbrack => none
  | .rbrack => none
  | .elem _ _ => none

/-- Operands separated by commas (30_encoding.md R89). -/
def operandList : List Token → Option (List Nat)
  | [] => some []
  | [t] => (operandVal t).map fun v => [v]
  | t :: .comma :: u :: ts => (operandVal t).bind fun v => (operandList (u :: ts)).map fun vs => v :: vs
  | _ => none

/-- A command: a mnemonic and its operands (30_encoding.md R89). -/
def assembleCommand : List Token → Option Word
  | .word m :: ts => (lookName mnemonicTable m).bind fun opc => (operandList ts).bind (assembleWord opc)
  | _ => none

/-- The optional label of a line. -/
def labelOf : List Token → Option Chars
  | .word l :: .colon :: _ => some l
  | _ => none

/-- The statement of a line, after its label. -/
def stmtOf : List Token → List Token
  | .word _ :: .colon :: ts => ts
  | ts => ts

/-- The position of a name in a list of names. -/
def indexOfName (names : List Chars) (t : Chars) : Option Nat := names.findIdx? fun n => n = t

/-- The name of a variable: its own, or that of its array. -/
def nameOf : Token → Option Chars
  | .word n => some n
  | .elem v _ => some v
  | _ => none

/-- The variable a token names among a program's names: the one of a name, or an element of the array of that name. -/
def varOf (names : List Chars) : Token → Option Nat
  | .word n => (indexOfName names n).map nameVar
  | .elem v a => (indexOfName names v).map fun i => elemVar names.length i a
  | _ => none

/-- The variable a statement names (30_encoding.md R89, R90): what it reads into, or what it branches on. -/
def namesOf : List Token → List Chars
  | [_, _, .arrow, n] => (nameOf n).toList
  | [.word k, n, .comma, _, .comma, .word _] => if k = "bnz".toList ∨ k = "bz".toList then (nameOf n).toList else []
  | _ => []

/-- A number that fits `n` bits. -/
def fitsBits (n : Nat) (v : Nat) : Option Nat := if v < 2 ^ n then some v else none

/-- An operand of `n` bits. -/
def operandBits (n : Nat) (t : Token) : Option (BitVec n) := ((operandVal t).bind (fitsBits n)).map (BitVec.ofNat n)

/-- The host operation of a statement (30_encoding.md R89): a bare command means `wr CMD, word`. `b` is BASE, `names` the
names of the program's variables, `target` the position of a label. R89 makes mnemonics case-insensitive and says nothing of
other names. DESIGN CHOICE: register names are too, and `wr`, `rd`, `bnz`, `bz`, the pseudo-instructions, labels and variables
are taken as they are written (log entry 23). -/
def assembleStmt (b : Word) (names : List Chars) (target : Chars → Option Nat) : List Token → Option HostOp
  | [.word k, .word r, .comma, t] =>
    if k = "wr".toList then
      (lookName registerTable r).bind fun off => (operandBits 32 t).map fun v => .wr 32 (b + off) v
    else (assembleCommand [.word k, .word r, .comma, t]).map fun w => .wr 32 b w
  | [.word k, .word r, .arrow, n] =>
    if k = "rd".toList then
      (lookName registerTable r).bind fun off => (varOf names n).map fun v => .rd 32 (b + off) v
    else none
  | [.word k, n, .comma, t, .comma, .word l] =>
    (varOf names n).bind fun v => ((operandVal t).bind (fitsBits 5)).bind fun i => (target l).bind fun pos =>
      if k = "bnz".toList then some (.bnz v i pos) else if k = "bz".toList then some (.bz v i pos) else none
  | ts => (assembleCommand ts).map fun w => .wr 32 b w

/-- The bytes of a text: one ASCII character each (30_encoding.md R90). -/
def textSyms (t : Chars) : Option (List Sym) :=
  t.mapM fun c => if c.toNat < 128 then some (BitVec.ofNat 8 c.toNat) else none

/-- A string of bits (30_encoding.md R90). -/
def codeBits (t : Chars) : Option BitString :=
  t.mapM fun c => if c = '0' then some false else if c = '1' then some true else none

/-- The words of a text between blanks; `w` is the word being read (reversed). -/
def blankWords : Chars → Chars → List Chars
  | [], w => if w = [] then [] else [w.reverse]
  | c :: t, w => if isBlank c then (if w = [] then [] else [w.reverse]) ++ blankWords t [] else blankWords t (c :: w)

/-- Bytes written in hexadecimal, separated by blanks (30_encoding.md R90). -/
def hexBytes (t : Chars) : Option (List Byte) :=
  (blankWords t []).mapM fun w => ((numeralVal 16 w).bind (fitsBits 8)).map (BitVec.ofNat 8)

/-- The word after `do`: a command, or the word itself as a number (95_test_vectors.md writes illegal words so). -/
def doWord (ts : List Token) : Option Word :=
  match ts with
  | [t] => (assembleCommand [t]).or (operandBits 32 t)
  | ts => assembleCommand ts

/-- A statement as a piece of a host program: nothing, a pseudo-instruction of 30_encoding.md R90, or one operation of
R89. -/
def assemblePiece (b : Word) (names : List Chars) (target : Chars → Option Nat) (ts : List Token) : Option Piece :=
  let single := (assembleStmt b names target ts).map fun op => (fun _ => [op] : Piece)
  match ts with
  | [] => some fun _ => []
  | [.word k] => if k = "poll".toList then some (poll b) else if k = "check".toList then some (check b) else single
  | [.word k, .strLit t] =>
    if k = "count_str".toList then (textSyms t).map (countStr b)
    else if k = "enc_str".toList then (textSyms t).map (encStr b)
    else if k = "compress".toList then (textSyms t).map (compress b)
    else if k = "push".toList then (hexBytes t).map (push b)
    else if k = "decompress".toList then (hexBytes t).map (decompress b)
    else none
  | [.word k, x, .comma, .strLit t] =>
    if k = "load_code".toList then (operandBits 8 x).bind fun x => (codeBits t).bind (loadCode b x) else none
  | [.word k, n, .arrow, .word v] =>
    if k = "read_out".toList then
      (operandVal n).bind fun n => (indexOfName names v).bind fun i => readOutAll b n (elemVar names.length i)
    else single
  | [.word k, w, .comma, v] =>
    if k = "stage".toList then (operandBits 3 w).bind fun w => (operandBits 32 v).map (stage b w)
    else if k = "do".toList then (doWord [w, .comma, v]).map (doRaw b)
    else single
  | .word k :: us => if k = "do".toList then (doWord us).map (doRaw b) else single
  | _ => none

/-- The label table of a program: a label stands for the position of its line's first operation. -/
def labelTable : List (List Token × Piece) → Nat → List (Chars × Nat)
  | [], _ => []
  | (ts, p) :: ls, pos =>
    let here := match labelOf ts with
      | some l => [(l, pos)]
      | none => []
    here ++ labelTable ls (pos + (p pos).length)

/-- Look a label up. A program that defines one label twice is refused before (`assembleProgram`). -/
def labelTarget (table : List (Chars × Nat)) (l : Chars) : Option Nat := (table.find? fun p => p.1 = l).map Prod.snd

/-- The lines of a program as tokens; nothing if one of them does not scan. -/
def scanLines (ls : List Chars) : Option (List (List Token)) := ls.mapM fun l => (tokensOf l [] false).map joinElems

/-- The pieces of a program's lines; `names` are the names of its variables. -/
def linePieces (b : Word) (names : List Chars) (target : Chars → Option Nat) (tss : List (List Token)) :
    Option (List Piece) :=
  tss.mapM fun ts => assemblePiece b names target (stmtOf ts)

/-- The pieces of a program, its variables being the names its statements use. The first pass places the labels: how many
operations a line takes does not depend on where they stand. The spec does not say what a label on two lines means. DESIGN
CHOICE: it is an assembly error (log entry 23). -/
def programPieces (b : Word) (tss : List (List Token)) : Option (List Piece) :=
  let names := tss.flatMap fun ts => namesOf (stmtOf ts)
  if (tss.filterMap labelOf).Nodup then
    (linePieces b names (fun _ => some 0) tss).bind fun ps =>
      linePieces b names (labelTarget (labelTable (tss.zip ps) 0)) tss
  else none

/-- A program in the command language, one statement a line, with labels and comments (30_encoding.md R89, R90). -/
def assembleProgram (b : Word) (ls : List Chars) : Option Piece :=
  (scanLines ls).bind fun tss => (programPieces b tss).map inSequence

end Sys2Proof.Machine
end

