-- ==== Sys2Proof/Safety.lean ====
section
/-! DEFINITION. What claims are stated in: the invariants of 10_state.md R46, prefix-freeness, sequences of commands, and
what a safe step is. -/

namespace Sys2Proof.Machine

/-- The sum of FREQ over all symbols. -/
def freqSum (f : Vector Word 256) : Nat := (allSyms.map fun x => (symGet f x).toNat).sum

/-- The symbols with FREQ[s] > 0 (10_state.md R35), ascending. -/
def presentSyms (f : Vector Word 256) : List Sym := allSyms.filter fun x => 0 < (symGet f x).toNat

/-- Invariant (6) of 10_state.md R46. -/
structure CountsInv (s : State) : Prop where
  total : s.total.toNat = freqSum s.freq
  nsym  : s.nsym = (presentSyms s.freq).length

/-- Invariants (2), (3) and (4) of 10_state.md R46, and the error codes that are produced (60_exceptions.md R250). -/
structure FlagsInv (s : State) : Prop where
  stream : s.encActive = true → s.codesValid = true ∧ s.outValid = false ∧ s.outLen = 0
  noOut  : s.outValid = false → s.outLen = 0
  noErr  : s.err = 0 → s.errOpc = 0
  codes  : s.err.toNat ≤ 11

/-- Invariant (5) of 10_state.md R46: invariants (a) and (b) of R39. -/
structure CodesInv (s : State) : Prop where
  small    : ∀ x, (symGet s.codeVal x).toNat < 2 ^ (symGet s.codeLen x).toNat
  distinct : ∀ x y, x ≠ y → symGet s.codeLen x ≠ 0 → symGet s.codeLen x = symGet s.codeLen y →
    symGet s.codeVal x ≠ symGet s.codeVal y

/-- ENC_BITS = len(ENC_STREAM) (10_state.md R20, R31), and the finished stream fits OUT_MEM (44_bit_packer.md R193). -/
structure StreamInv (s : State) : Prop where
  bits : s.encBits.toNat = s.encStream.length
  fits : finishedBytes s.encStream.length ≤ s.cfg.outCap

/-- The buffers and the node store are canonical, lengths stay within the capacities (10_state.md R29, R30), and every byte
that a rule may read has been written (10_state.md R48). -/
structure BuffersInv (s : State) : Prop where
  inWf      : Memory.wf s.inMem
  outWf     : Memory.wf s.outMem
  nodesWf   : Store.wf s.nodes
  inLen     : s.inLen ≤ s.cfg.inCap
  outLen    : s.outLen ≤ s.cfg.outCap
  inListed  : ∀ a, (storeGet s.inMem a).isSome = true ↔ a < s.inLen
  outListed : ∀ a, a < s.outLen → (storeGet s.outMem a).isSome = true
  outBound  : ∀ a, (storeGet s.outMem a).isSome = true → a < s.cfg.outCap

/-- Node `j` is an internal node with child `i`. -/
def IsParent (nodes : Store Node) (j i : Nat) : Prop :=
  ∃ f l r, storeGet nodes j = some (.branch f l r) ∧ (l.toNat = i ∨ r.toNat = i)

/-- NODE[0..NNODES) is the tree BUILD_TREE builds (invariant (7) of 10_state.md R46; R36, R37; 42_tree_builder.md R145). -/
structure BuiltTree (s : State) : Prop where
  nonempty : 1 ≤ s.nsym
  count    : s.nnodes = 2 * s.nsym - 1
  root     : s.root + 1 = s.nnodes
  queue    : s.pq = [s.root]
  leaves   : ∀ i, i < s.nsym → ∃ n, storeGet s.nodes i = some n ∧ (leavesOf s.freq)[i]? = some n
  inner    : ∀ i, s.nsym ≤ i → i < s.nnodes → ∃ f l r, storeGet s.nodes i = some (.branch f l r) ∧
    l.toNat < i ∧ r.toNat < i ∧ l ≠ r ∧
    ∃ a b, storeGet s.nodes l.toNat = some a ∧ storeGet s.nodes r.toNat = some b ∧
      f.toNat = a.nfreq.toNat + b.nfreq.toNat
  parent   : ∀ i, i < s.nnodes → i ≠ s.root → ∃! j, j < s.nnodes ∧ IsParent s.nodes j i

/-- Invariants (1) and (7) of 10_state.md R46, and NNODES = 0 and an empty PQ when no tree is held (R37, R38). -/
structure TreeInv (s : State) : Prop where
  absent  : s.treeValid = false → s.nnodes = 0 ∧ s.pq = []
  present : s.treeValid = true → BuiltTree s
  table   : s.treeValid = true → s.codesValid = true →
    ∀ k, tableOfTree (nodeAt s.nodes k) s.root = some { len := s.codeLen, val := s.codeVal }

/-- Everything that holds in every state reachable from reset (10_state.md R46, R29 to R31). -/
structure CoreInv (s : State) : Prop where
  cfg     : s.cfg.wf = true
  counts  : CountsInv s
  flags   : FlagsInv s
  codes   : CodesInv s
  stream  : StreamInv s
  buffers : BuffersInv s
  tree    : TreeInv s

/-- The invariants hold whenever the rules of the spec apply, that is after a reset (70_reset_and_hazards.md R280, R282); before
it the elements of the CORE are not constrained. -/
structure SysInv (s : State) : Prop where
  cfg  : s.cfg.wf = true
  core : s.phase = .running → CoreInv s

/-- A table is prefix-free: no code is a prefix of another symbol's code (00_scope.md glossary, 43_code_table.md R165). -/
def PrefixFree (len : Vector (BitVec 8) 256) (val : Vector (BitVec 256) 256) : Prop :=
  ∀ x y, symGet len x ≠ 0 → symGet len y ≠ 0 → codeOf len val x <+: codeOf len val y → x = y

/-- The codes of a symbol sequence, concatenated in order (44_bit_packer.md R190 (a)). -/
def encodeAll (len : Vector (BitVec 8) 256) (val : Vector (BitVec 256) 256) (t : List Sym) : BitString :=
  t.flatMap (codeOf len val)

/-- The longest code of a table, 0 for a table with no code (45_bit_unpacker.md R227). -/
def longestCode (len : Vector (BitVec 8) 256) : Nat := (allSyms.map fun x => (symGet len x).toNat).foldr max 0

/-- The path a bit string takes from a node: `false` to the left child, `true` to the right (43_code_table.md R162). Nothing
when it runs past a leaf. -/
def walkFrom (node : Nat → Node) : Nat → BitString → Option Node
  | n, [] => some (node n)
  | n, b :: p =>
    match node n with
    | .leaf _ _ => none
    | .branch _ l r => walkFrom node (if b then r.toNat else l.toNat) p

/-- The greedy parse of a bit string under a reverse lookup (43_code_table.md R171, 45_bit_unpacker.md R225): at each point the
shortest match is taken; `rest` is what no match completes. -/
inductive GreedyParse (look : BitString → Option Sym) : BitString → List Sym → BitString → Prop where
  | leftover (rest : BitString) (h : ∀ q, q ≠ [] → q <+: rest → look q = none) : GreedyParse look rest [] rest
  | emit (p y rest : BitString) (x : Sym) (xs : List Sym) (hp : p ≠ []) (hx : look p = some x)
      (h : ∀ q, q ≠ [] → q <+: p → q ≠ p → look q = none) (hy : GreedyParse look y xs rest) :
      GreedyParse look (p ++ y) (x :: xs) rest

/-- The state after an error with this code and opcode, where it has no abort effect: the two STATUS fields, if no error is
recorded yet (60_exceptions.md R252, R253). -/
def errState (code : BitVec 4) (opc : BitVec 8) (s : State) : State :=
  { s with err := if s.err = 0 then code else s.err, errOpc := if s.err = 0 then opc else s.errOpc }

/-- The staged value as the sum of 10_state.md R40. -/
def stagedSum (s : State) : Nat :=
  ((List.range 8).map fun w => (stageGet s.codeStage (BitVec.ofNat 3 w)).toNat * 2 ^ (32 * w)).sum

/-- The EncodedStream that ENC_SYM and ENC_FINISH go on from: the open one, else a new empty one (44_bit_packer.md R191,
R192, R196). -/
def streamOf (s : State) : BitString := if s.encActive then s.encStream else []

/-- ENC_BITS of that stream. -/
def streamBits (s : State) : Word := if s.encActive then s.encBits else 0

/-- A command sequence run by the core, one after another. -/
def runCommands : List Instr → State → Out
  | [], s => .next s
  | i :: is, s =>
    match exec i s with
    | .next t => runCommands is t
    | .fault r => .fault r
    | .refused r => .refused r

/-- The commands of `compress "t"` after its CLEAR (30_encoding.md R90, 44_bit_packer.md R198). -/
def compressCommands (t : List Sym) : List Instr :=
  t.map .count ++ [.buildTree, .genCodes] ++ t.map .encSym ++ [.encFinish]

/-- The commands of `decompress "b0 b1 ..."` after its IN_CLEAR (30_encoding.md R90, 44_bit_packer.md R198). -/
def decompressCommands (bs : List Byte) : List Instr := bs.map .inPush ++ [.decode]

/-- The bytes OUT_MEM[0..OUT_LEN). -/
def outputBytes (s : State) : List Byte := (List.range s.outLen).map (readOutByte s)

/-- STATUS as the sum of its fields at their places (10_state.md R25). -/
def statusSum (s : State) : Word :=
  BitVec.ofNat 32 (s.busy.toNat + s.treeValid.toNat * 2 + s.codesValid.toNat * 4 + s.encActive.toNat * 8 +
    s.outValid.toNat * 16 + s.outKind.toNat * 32 + s.err.toNat * 256 + s.errOpc.toNat * 65536)

/-- The table of 40_control.md R106: when a command may run. -/
def SeqCond (i : Instr) (s : State) : Prop :=
  match i with
  | .nop => True
  | .clear => True
  | .errClear => True
  | .count _ => s.treeValid = false ∧ s.codesValid = false
  | .readFreq _ => True
  | .buildTree => s.treeValid = false ∧ s.codesValid = false
  | .genCodes => s.treeValid = true ∧ s.codesValid = false
  | .readCodeLen _ => True
  | .readCodeWord _ _ => True
  | .stageCodeWord _ => True
  | .writeCode _ _ => s.treeValid = false ∧ s.encActive = false
  | .encSym _ => s.codesValid = true
  | .encFinish => s.codesValid = true
  | .readOut _ => s.outValid = true
  | .inPush _ => True
  | .inClear => True
  | .decode => s.codesValid = true ∧ s.encActive = false

/-- Every element that 10_state.md R47 gives a value has it; of those it leaves unspecified, ROOT stays in its range. -/
structure AtReset (s : State) : Prop where
  data      : s.data = 0
  resp      : s.resp = 0
  flags     : s.busy = false ∧ s.treeValid = false ∧ s.codesValid = false ∧ s.encActive = false ∧ s.outValid = false ∧
    s.outKind = false
  error     : s.err = 0 ∧ s.errOpc = 0
  counters  : s.total = 0 ∧ s.nsym = 0 ∧ s.encBits = 0 ∧ s.pad = 0 ∧ s.inLen = 0 ∧ s.outLen = 0
  freq      : ∀ x, symGet s.freq x = 0
  tree      : s.nnodes = 0 ∧ s.pq = [] ∧ s.root ≤ 510
  table     : ∀ x, symGet s.codeLen x = 0 ∧ symGet s.codeVal x = 0
  staging   : ∀ w, stageGet s.codeStage w = 0
  stream    : s.encStream = []
  constants : slotValue .ident s = 0x48554631 ∧ slotValue .inCap s = BitVec.ofNat 32 s.cfg.inCap ∧
    slotValue .outCap s = BitVec.ofNat 32 s.cfg.outCap

/-- The states that are reached from reset, under any configuration of 00_scope.md R7, any schedule and any host (its program,
its position and its variables), whatever the free values. -/
inductive Reachable : State → Prop where
  | start (c : Config) (k : Nat) (ts : List Turn) (h : HostAgent) (hc : c.wf = true) :
      Reachable { State.resetAt c k with turns := ts, host := h }
  | next (s t : State) (hs : Reachable s) (ht : step s = .next t) : Reachable t

/-- The next step is the core executing the pending word: it is enabled, and the schedule has the core move, as listed or, where
no turn is listed, with no turn of the host's before it (40_control.md R103; the schedule is the model's, log entry 1). -/
def CoreMoves (s : State) : Prop :=
  s.phase = .running ∧ s.busy = true ∧ (s.turns.head? = some .core ∨ (s.turns = [] ∧ Config.freeDelay s.draws = 0))

/-- What `n` steps make of a state. -/
def runSteps : Nat → State → Out
  | 0, s => .next s
  | n + 1, s =>
    match step s with
    | .next t => runSteps n t
    | .fault r => .fault r
    | .refused r => .refused r

/-- The next step is the release of the reset input (70_reset_and_hazards.md R280). -/
def ResetReleased (s : State) : Prop := s.phase = .resetAsserted ∧ s.turns.head? = some .releaseReset

/-- The loop `while |PQ| > 1` of 42_tree_builder.md R141, round by round, for a source of free choices. -/
inductive MergeRounds (tie : TiePolicy) (choose : Nat → Nat) (k : Nat) : Builder → Builder → Prop where
  | done (t : Builder) (h : t.pq.length ≤ 1) : MergeRounds tie choose k t t
  | round (t u v : Builder) (h : 1 < t.pq.length) (hu : mergeOnce tie choose k t = some u)
      (hv : MergeRounds tie choose k u v) : MergeRounds tie choose k t v

/-- A step is safe when the machine does not stop with a fault. -/
def SafeStep (s : State) : Prop := ∀ r, step s ≠ .fault r

end Sys2Proof.Machine
end

