-- ==== Sys2Proof/Certificates/Slice0/Obligations.lean ====
section
/-! DEFINITION. The statements for the provers. Each formalises rules of spec/, named in its docstring. -/

open Sys2Proof Sys2Proof.Machine

/-! ## Encoding -/

/-- 30_encoding.md R80, R81, R83, R85: decoding a command's word gives the command back, with every operand, and a word that
decodes is the word of its command. -/
def Obligations.DecodeEncodeAgree : Prop :=
  (∀ i, decodeWord (encode i) = .ok i) ∧ ∀ w i, decodeWord w = .ok i → encode i = w

/-- 95_test_vectors.md section 2.1: words written out in the spec and what they decode to. -/
def Obligations.SpecWordsDecode : Prop :=
  decodeWord 0x00000000 = .ok .nop ∧ decodeWord 0x100000FF = .ok (.count 0xFF) ∧
  decodeWord 0x23000764 = .ok (.readCodeWord 0x64 7) ∧ decodeWord 0x24000007 = .ok (.stageCodeWord 7) ∧
  decodeWord 0x2500FF41 = .ok (.writeCode 0x41 255) ∧ decodeWord 0x32FFFFFF = .ok (.readOut 0xFFFFFF) ∧
  decodeWord 0x400000AB = .ok (.inPush 0xAB) ∧ decodeWord 0x20000000 = .ok .buildTree ∧
  decodeWord 0x30000061 = .ok (.encSym 0x61) ∧ decodeWord 0x50000000 = .ok .decode

/-- 30_encoding.md R84, 40_control.md R104, 60_exceptions.md R253: a word that is no command's raises ILLEGAL_CMD and changes
nothing else; every one of the 239 unassigned opcodes makes such words, and so does a reserved bit of each form. -/
def Obligations.IllegalWordRaisesIllegalCmd : Prop :=
  (∀ w s, (∀ i, encode i ≠ w) → executeWord w s = .next (errState 1 (opcField w) s)) ∧
  (∀ w : Word, opcField w ∉ [0x00, 0x01, 0x02, 0x10, 0x11, 0x20, 0x21, 0x22, 0x23, 0x24, 0x25, 0x30, 0x31, 0x32, 0x40,
    0x41, 0x50] → ∀ i, encode i ≠ w) ∧
  (∀ w : Word, opcField w ∈ [0x00, 0x01, 0x02, 0x20, 0x21, 0x31, 0x41, 0x50] → w.extractLsb' 0 24 ≠ 0 →
    ∀ i, encode i ≠ w) ∧
  (∀ w : Word, opcField w ∈ [0x10, 0x11, 0x22, 0x30, 0x40] → w.extractLsb' 8 16 ≠ 0 → ∀ i, encode i ≠ w) ∧
  (∀ w : Word, opcField w = 0x23 → w.extractLsb' 11 13 ≠ 0 → ∀ i, encode i ≠ w) ∧
  (∀ w : Word, opcField w = 0x24 → w.extractLsb' 3 21 ≠ 0 → ∀ i, encode i ≠ w) ∧
  (∀ w : Word, opcField w = 0x25 → w.extractLsb' 16 8 ≠ 0 → ∀ i, encode i ≠ w)

/-- 30_encoding.md R89: the assembler gives the command's word for operands that fit, and no word otherwise. -/
def Obligations.AssemblerGivesTheWord : Prop :=
  (∀ i, assembleWord (opcodeOf i) i.operands = some (encode i)) ∧
  ∀ i ops, operandsFit i.form ops = false → assembleWord (opcodeOf i) ops = none

/-! ## The step -/

/-- 40_control.md R103, R104, 30_encoding.md R89: on the core's turn, when BUSY = 1 and PENDING decodes, the step is the
command, and BUSY is 0 after it; with BUSY = 0 the core has no step and the state is unchanged. On the host's turn the step
is the next operation of its program, and nothing when the program has finished. How the order is held is the model's choice
(log entry 1): the listed turns; where none is listed the host's while the core has no step, and once it has one a free number
of the host's turns and then the core's (70_reset_and_hazards.md R291). So is withFetchWord (log entry 3): a word it places is
what the next step runs, with DATA as its latched operand. That a host whose own assertion failed moves no more is the model's
choice too (log entry 20). -/
def Obligations.StepRunsTheDecodedCommand : Prop :=
  (∀ s, s.turns = [] → s.phase = .running → s.busy = true →
    step s = step { s with
      turns := List.replicate (Config.freeDelay s.draws) .host ++ [.core], draws := s.draws + 1 }) ∧
  (∀ s ts i, s.turns = .core :: ts → s.phase = .running → s.busy = true → decodeWord s.pending = .ok i →
    step s = complete (exec i { s with turns := ts })) ∧
  (∀ s ts, s.turns = .core :: ts → s.busy = false → step s = .next { s with turns := ts }) ∧
  (∀ o : Out, ∀ t, o = .next t → complete o = .next { t with busy := false }) ∧
  (∀ s ts op, s.turns = .host :: ts → s.host.failed = false → s.host.prog[s.host.pc]? = some op →
    step s = hostOp op { s with turns := ts }) ∧
  (∀ s op, s.turns = [] → ¬ (s.phase = .running ∧ s.busy = true) → s.host.failed = false →
    s.host.prog[s.host.pc]? = some op → step s = hostOp op s) ∧
  (∀ s ts, s.turns = .host :: ts → s.host.failed = true ∨ s.host.prog[s.host.pc]? = none →
    step s = .next { s with turns := ts }) ∧
  ∀ (s : State) (i : Instr), step (s.withFetchWord 32 (encode i).toNat) =
    complete (exec i { s with
      pending := encode i, pendingData := s.data, busy := true, phase := .running })

/-- 70_reset_and_hazards.md R291, 40_control.md R103: from a state that meets the invariants, whatever turns of core and host are
listed, and with every free number of host turns after them (log entry 1), a command that is pending completes: after finitely
many steps the core moves, the word and its operand still pending, and BUSY is 0 after it. Or the host's program holds an
access of another width than 32 bits, and the machine stops at it first (20_memory.md R62). -/
def Obligations.PendingCommandCompletes : Prop :=
  ∀ s, SysInv s → s.phase = .running → s.busy = true → (∀ a ∈ s.turns, a = .core ∨ a = .host) →
    ∃ n, (∃ t u, runSteps n s = .next t ∧ CoreMoves t ∧ t.pending = s.pending ∧ t.pendingData = s.pendingData ∧
        step t = .next u ∧ u.busy = false) ∨
      (runSteps n s = .refused .accessWidth ∧ ∃ width addr, width ≠ 32 ∧
        ((∃ v, HostOp.wr width addr v ∈ s.host.prog) ∨ ∃ var, HostOp.rd width addr var ∈ s.host.prog))

/-- 40_control.md R106: every command outside its sequencing condition raises SEQUENCE and changes nothing else; inside it,
none does. -/
def Obligations.SequenceErrorOutsideCondition : Prop :=
  ∀ (i : Instr) (s : State),
    (¬ SeqCond i s → exec i s = .next (errState 2 (opcodeOf i) s)) ∧
    (SeqCond i s → ∀ t, exec i s = .next t → s.err = 0 → t.err ≠ 2)

/-! ## Control commands -/

/-- 40_control.md R107. -/
def Obligations.NopChangesNothing : Prop := ∀ s, exec .nop s = .next s

/-- 40_control.md R108, 10_state.md R47: CLEAR gives every element the reset value that R47 specifies, from every state; the
parameters, the host and the schedule are left. -/
def Obligations.ClearGivesResetValues : Prop :=
  ∀ s, ∃ t, exec .clear s = .next t ∧ AtReset t ∧ t.cfg = s.cfg ∧ t.host = s.host ∧ t.turns = s.turns

/-- 40_control.md R109, 60_exceptions.md R255: ERR_CLEAR clears ERR and ERR_OPC and keeps all unit state. -/
def Obligations.ErrClearKeepsUnitState : Prop := ∀ s, exec .errClear s = .next { s with err := 0, errOpc := 0 }

/-! ## Frequency counter -/

/-- 41_frequency_counter.md R121: COUNT where its condition holds and TOTAL is not at its bound. -/
def Obligations.CountCountsOneOccurrence : Prop :=
  ∀ (x : Sym) (s : State), s.treeValid = false → s.codesValid = false → s.total ≠ 0xFFFFFFFF →
    ∃ t, exec (.count x) s = .next t ∧ symGet t.freq x = symGet s.freq x + 1 ∧
      (∀ y, y ≠ x → symGet t.freq y = symGet s.freq y) ∧ t.total.toNat = s.total.toNat + 1 ∧
      t.nsym = (if symGet s.freq x = 0 then s.nsym + 1 else s.nsym) ∧
      { t with freq := s.freq, total := s.total, nsym := s.nsym } = s

/-- 41_frequency_counter.md R121, R122: a COUNT that would take TOTAL to 2^32 raises COUNT_OVERFLOW and changes no count. -/
def Obligations.CountOverflowChangesNoCount : Prop :=
  ∀ (x : Sym) (s : State), s.treeValid = false → s.codesValid = false → s.total = 0xFFFFFFFF →
    exec (.count x) s = .next (errState 5 0x10 s)

/-- 41_frequency_counter.md R120: the state a counting pass leaves does not depend on the order of its COUNTs. -/
def Obligations.CountingIsOrderIndependent : Prop :=
  ∀ (s : State) (t u : List Sym), s.treeValid = false → s.codesValid = false → s.total.toNat + t.length ≤ 2 ^ 32 - 1 →
    t.Perm u → ∃ v, runCommands (t.map .count) s = .next v ∧ runCommands (u.map .count) s = .next v ∧
      ∀ x, (symGet v.freq x) = symGet s.freq x + BitVec.ofNat 32 (t.count x)

/-- 41_frequency_counter.md R124, 43_code_table.md R166, R167: the three read commands of the tables put the entry into RESP,
in every state, and change nothing else. -/
def Obligations.TableReadsAnswerInResp : Prop :=
  ∀ s : State,
    (∀ x, exec (.readFreq x) s = .next { s with resp := symGet s.freq x }) ∧
    (∀ x, exec (.readCodeLen x) s = .next { s with resp := BitVec.ofNat 32 (symGet s.codeLen x).toNat }) ∧
    ∀ x w, exec (.readCodeWord x w) s =
      .next { s with resp := BitVec.ofNat 32 ((symGet s.codeVal x).toNat / 2 ^ (32 * w.toNat)) }

/-! ## Tree builder -/

/-- 42_tree_builder.md R141: BUILD_TREE where its condition holds, NSYM > 0 and a symbol is present: 2N - 1 nodes, ROOT the last
of them, PQ = (ROOT), no other node entry is written, and nothing else changes (but the counter of free values). -/
def Obligations.BuildTreeCompletes : Prop :=
  ∀ s : State, s.treeValid = false → s.codesValid = false → s.nsym ≠ 0 → presentSyms s.freq ≠ [] →
    ∃ t, exec .buildTree s = .next t ∧ t.treeValid = true ∧ t.nnodes = 2 * (presentSyms s.freq).length - 1 ∧
      t.root = 2 * (presentSyms s.freq).length - 2 ∧ t.pq = [t.root] ∧
      (∀ i, t.nnodes ≤ i → storeGet t.nodes i = storeGet s.nodes i) ∧
      { t with nodes := s.nodes, nnodes := s.nnodes, root := s.root, pq := s.pq, treeValid := s.treeValid,
               draws := s.draws } = s

/-- 42_tree_builder.md R141, 60_exceptions.md R250: BUILD_TREE with no symbol counted raises EMPTY_INPUT and changes nothing
else. -/
def Obligations.BuildTreeOfNothingRaisesEmptyInput : Prop :=
  ∀ s : State, s.treeValid = false → s.codesValid = false → s.nsym = 0 → exec .buildTree s = .next (errState 4 0x20 s)

/-- 42_tree_builder.md R145, 10_state.md R36, R46 (7): under either policy and whatever the free choices, what BUILD_TREE
leaves is the full binary tree of the counted symbols, with exact frequency sums; the depth of every leaf is at most
N - 1 and at most MAX_CODE_LEN. -/
def Obligations.BuildTreeLeavesAFullTree : Prop :=
  ∀ (choose : Nat → Nat) (s : State), CountsInv s → s.nsym ≠ 0 →
    ∃ t, buildTreeBody choose s = .next t ∧ BuiltTree t ∧
      ∀ k p x f, walkFrom (nodeAt t.nodes k) t.root p = some (.leaf x f) → p.length ≤ t.nsym - 1 ∧ p.length ≤ 255

/-- 42_tree_builder.md R142: under SEQ popmin removes the index whose key (NFREQ, index) is smallest, whatever the free
choice. -/
def Obligations.PopMinSeqTakesTheSmallestKey : Prop :=
  ∀ (choice : Nat) (key : Nat → Nat) (pq : List Nat), pq ≠ [] → pq.Nodup →
    ∃ i, popMin .seq choice key pq = some (i, pq.erase i) ∧ i ∈ pq ∧
      ∀ j ∈ pq, j ≠ i → key i < key j ∨ (key i = key j ∧ i < j)

/-- 42_tree_builder.md R143: under ANY popmin removes an index of smallest NFREQ, and every such index is removed for some
choice. -/
def Obligations.PopMinAnyTakesAnyMinimum : Prop :=
  ∀ (key : Nat → Nat) (pq : List Nat), pq ≠ [] →
    (∀ choice, ∃ i, popMin .any choice key pq = some (i, pq.erase i) ∧ i ∈ pq ∧ ∀ j ∈ pq, key i ≤ key j) ∧
    ∀ i ∈ pq, (∀ j ∈ pq, key i ≤ key j) → ∃ choice, popMin .any choice key pq = some (i, pq.erase i)

/-- 42_tree_builder.md R140, R141: which nodes BUILD_TREE combines. A round pops `a`, the smallest of the queue, then `b`, the
smallest of the rest, stores the node with the sum of their frequencies, `a` on the left and `b` on the right, at `next`, leaves
every other node, and queues it. The builder starts from the leaves in ascending symbol order, goes on with rounds until one
index is left, and that index is ROOT; BUILD_TREE is this, with free choices (log entry 7). -/
def Obligations.BuildTreeMergesTheTwoLowest : Prop :=
  (∀ (tie : TiePolicy) (choose : Nat → Nat) (k : Nat) (t : Builder), 2 ≤ t.pq.length →
    ∃ a b u, popMin tie (choose t.draw) (fun i => (nodeAt t.nodes k i).nfreq.toNat) t.pq = some (a, t.pq.erase a) ∧
      popMin tie (choose (t.draw + choicesUsed tie)) (fun i => (nodeAt t.nodes k i).nfreq.toNat) (t.pq.erase a) =
        some (b, (t.pq.erase a).erase b) ∧
      mergeOnce tie choose k t = some u ∧
      storeGet u.nodes t.next = some (.branch ((nodeAt t.nodes k a).nfreq + (nodeAt t.nodes k b).nfreq)
        (BitVec.ofNat 9 a) (BitVec.ofNat 9 b)) ∧
      (∀ i, i ≠ t.next → storeGet u.nodes i = storeGet t.nodes i) ∧
      u.pq = (t.pq.erase a).erase b ++ [t.next] ∧ u.next = t.next + 1 ∧ u.draw = t.draw + 2 * choicesUsed tie) ∧
  (∀ s : State, (builderStart s).pq = List.range (presentSyms s.freq).length ∧
    (builderStart s).next = (presentSyms s.freq).length ∧ (builderStart s).draw = s.draws ∧
    (∀ i x, (presentSyms s.freq)[i]? = some x → storeGet (builderStart s).nodes i = some (.leaf x (symGet s.freq x))) ∧
    ∀ i, (presentSyms s.freq).length ≤ i → storeGet (builderStart s).nodes i = storeGet s.nodes i) ∧
  (∀ (choose : Nat → Nat) (s : State), s.nsym ≠ 0 → presentSyms s.freq ≠ [] →
    ∃ t root, MergeRounds s.cfg.tie choose s.draws (builderStart s) t ∧ t.pq = [root] ∧
      buildTreeBody choose s = .next { s with nodes := t.nodes, pq := [root], root := root, nnodes := t.next,
                                              treeValid := true, draws := t.draw }) ∧
  ∀ s : State, s.treeValid = false → s.codesValid = false → exec .buildTree s = buildTreeBody Config.freeChoice s

/-! ## Code table -/

/-- 43_code_table.md R161 to R164: GEN_CODES on a built tree of the counted symbols. A symbol that was not counted has no code;
a counted one has as its code the path from ROOT to its leaf, or "0" if the tree is that leaf alone; codes have 1 to
255 bits; nothing but the table and CODES_VALID changes. -/
def Obligations.GenCodesGivesTreePaths : Prop :=
  ∀ s : State, s.treeValid = true → s.codesValid = false → CountsInv s → BuiltTree s →
    ∃ t, exec .genCodes s = .next t ∧ t.codesValid = true ∧
      (∀ x, symGet s.freq x = 0 → symGet t.codeLen x = 0 ∧ symGet t.codeVal x = 0) ∧
      (∀ x, symGet s.freq x ≠ 0 → 1 ≤ (codeOf t.codeLen t.codeVal x).length ∧
        (codeOf t.codeLen t.codeVal x).length ≤ 255 ∧
        ((s.nsym = 1 ∧ codeOf t.codeLen t.codeVal x = [false]) ∨
          walkFrom (nodeAt s.nodes s.draws) s.root (codeOf t.codeLen t.codeVal x) =
            some (.leaf x (symGet s.freq x)))) ∧
      { t with codeLen := s.codeLen, codeVal := s.codeVal, codesValid := s.codesValid } = s

/-- 43_code_table.md R165 (a): the table GEN_CODES derives is prefix-free, whatever the node store holds. -/
def Obligations.BuiltTableIsPrefixFree : Prop :=
  ∀ s t : State, s.treeValid = true → s.codesValid = false → exec .genCodes s = .next t →
    PrefixFree t.codeLen t.codeVal

/-- 43_code_table.md R165 (b): the table of a tree with at least two leaves is complete; the Kraft sum, times 2^255, is
2^255. -/
def Obligations.BuiltTableIsComplete : Prop :=
  ∀ s t : State, s.treeValid = true → s.codesValid = false → CountsInv s → BuiltTree s → 2 ≤ s.nsym →
    exec .genCodes s = .next t →
    ((presentSyms s.freq).map fun x => 2 ^ (255 - (symGet t.codeLen x).toNat)).sum = 2 ^ 255

/-- 43_code_table.md R168, 70_reset_and_hazards.md R285: STAGE_CODE_WORD writes the latched PENDING_DATA, not DATA, into its
staging word and changes nothing else. -/
def Obligations.StageCodeWordTakesLatchedData : Prop :=
  ∀ (w : BitVec 3) (s : State), ∃ t, exec (.stageCodeWord w) s = .next t ∧ stageGet t.codeStage w = s.pendingData ∧
    (∀ u, u ≠ w → stageGet t.codeStage u = stageGet s.codeStage u) ∧ { t with codeStage := s.codeStage } = s

/-- 43_code_table.md R169: WRITE_CODE where its condition holds and no other symbol has the code: the low `l` bits of the
staged value become the code, CODES_VALID is set, nothing else changes. Length 0 always succeeds. -/
def Obligations.WriteCodeSetsTheCode : Prop :=
  ∀ (x : Sym) (l : BitVec 8) (s : State), s.treeValid = false → s.encActive = false →
    (l = 0 ∨ ∀ y, y ≠ x → ¬ (symGet s.codeLen y = l ∧ (symGet s.codeVal y).toNat = stagedSum s % 2 ^ l.toNat)) →
    ∃ t, exec (.writeCode x l) s = .next t ∧ symGet t.codeLen x = l ∧
      (symGet t.codeVal x).toNat = stagedSum s % 2 ^ l.toNat ∧ t.codesValid = true ∧
      (∀ y, y ≠ x → symGet t.codeLen y = symGet s.codeLen y ∧ symGet t.codeVal y = symGet s.codeVal y) ∧
      { t with codeLen := s.codeLen, codeVal := s.codeVal, codesValid := s.codesValid } = s

/-- 43_code_table.md R169, R171: WRITE_CODE of a code that another symbol has raises DUPLICATE_CODE and changes nothing
else. -/
def Obligations.WriteCodeRefusesDuplicates : Prop :=
  ∀ (x y : Sym) (l : BitVec 8) (s : State), s.treeValid = false → s.encActive = false → l ≠ 0 → y ≠ x →
    symGet s.codeLen y = l → (symGet s.codeVal y).toNat = stagedSum s % 2 ^ l.toNat →
    exec (.writeCode x l) s = .next (errState 8 0x25 s)

/-! ## Bit packer -/

/-- 44_bit_packer.md R191, R192: ENC_SYM where its condition holds, the symbol has a code and the finished stream fits: the
code is appended to the open stream, or to a new empty one, and nothing else changes. -/
def Obligations.EncSymAppendsTheCode : Prop :=
  ∀ (x : Sym) (s : State), s.codesValid = true → symGet s.codeLen x ≠ 0 → s.cfg.wf = true →
    2 + ((streamBits s).toNat + (symGet s.codeLen x).toNat) / 8 ≤ s.cfg.outCap →
    ∃ t, exec (.encSym x) s = .next t ∧ t.encActive = true ∧
      t.encStream = streamOf s ++ bitsOf (symGet s.codeLen x).toNat (symGet s.codeVal x).toNat ∧
      t.encBits.toNat = (streamBits s).toNat + (symGet s.codeLen x).toNat ∧
      t.outValid = (if s.encActive then s.outValid else false) ∧ t.outLen = (if s.encActive then s.outLen else 0) ∧
      { t with encActive := s.encActive, encStream := s.encStream, encBits := s.encBits, outValid := s.outValid,
               outLen := s.outLen } = s

/-- 44_bit_packer.md R191, R193, R194: ENC_SYM of a symbol without a code raises UNKNOWN_SYMBOL, one whose code does not fit
raises CAPACITY, and the encode abort effect takes place, with nothing else changed. -/
def Obligations.EncSymErrorsAbortTheStream : Prop :=
  ∀ (x : Sym) (s : State), s.codesValid = true →
    (symGet s.codeLen x = 0 → exec (.encSym x) s = .next { errState 6 0x30 s with
      encActive := false, encStream := [], encBits := 0, outValid := false, outLen := 0 }) ∧
    (symGet s.codeLen x ≠ 0 → s.cfg.outCap < 2 + ((streamBits s).toNat + (symGet s.codeLen x).toNat) / 8 →
      exec (.encSym x) s = .next { errState 7 0x30 s with
        encActive := false, encStream := [], encBits := 0, outValid := false, outLen := 0 })

/-- 44_bit_packer.md R195, R196, 30_encoding.md R86: ENC_FINISH where its condition holds, for the stream `e`: OUT_MEM holds
the bytes of header, codes and padding from index 0, every byte above them is left, and nothing else changes. -/
def Obligations.EncFinishWritesTheByteBuffer : Prop :=
  ∀ s : State, s.codesValid = true →
    ∃ t, exec .encFinish s = .next t ∧ t.outLen = 2 + (streamOf s).length / 8 ∧
      t.pad = BitVec.ofNat 8 (8 - (streamOf s).length % 8) ∧ t.outValid = true ∧ t.outKind = false ∧
      t.encActive = false ∧ t.encStream = streamOf s ∧ t.encBits = streamBits s ∧
      (∀ k, k < t.outLen → readOutByte t k = BitVec.ofNat 8 (bitsVal (bitSlice
        (bitsOf 8 (8 - (streamOf s).length % 8) ++ streamOf s ++ zeros (8 - (streamOf s).length % 8))
        (8 * k) (8 * k + 8)))) ∧
      (∀ k, t.outLen ≤ k → readOutByte t k = readOutByte s k) ∧
      { t with outMem := s.outMem, outLen := s.outLen, pad := s.pad, outValid := s.outValid, outKind := s.outKind,
               encActive := s.encActive, encStream := s.encStream, encBits := s.encBits } = s

/-- 44_bit_packer.md R197: the facts (a) to (d) of a finished stream. -/
def Obligations.FinishedStreamFacts : Prop :=
  ∀ s t : State, CoreInv s → s.codesValid = true → exec .encFinish s = .next t →
    t.outLen = 2 + t.encBits.toNat / 8 ∧
    readOutByte t 0 = t.pad ∧ t.pad.toNat = 8 - t.encBits.toNat % 8 ∧
    (∀ i, 8 * t.outLen - t.pad.toNat ≤ i → i < 8 * t.outLen →
      (readOutByte t (i / 8)).getLsbD (7 - i % 8) = false) ∧
    (∀ i, i < t.encBits.toNat → t.encStream[i]? = some ((readOutByte t (1 + i / 8)).getLsbD (7 - i % 8)))

/-- 44_bit_packer.md R203: READ_OUT of a valid index puts the byte into RESP and changes nothing else. -/
def Obligations.ReadOutAnswersTheByte : Prop :=
  ∀ (a : BitVec 24) (s : State), s.outValid = true → a.toNat < s.outLen →
    exec (.readOut a) s = .next { s with resp := BitVec.ofNat 32 (readOutByte s a.toNat).toNat }

/-- 44_bit_packer.md R203: READ_OUT at or above OUT_LEN raises BAD_OPERAND and changes nothing else. -/
def Obligations.ReadOutBeyondRaisesBadOperand : Prop :=
  ∀ (a : BitVec 24) (s : State), s.outValid = true → s.outLen ≤ a.toNat →
    exec (.readOut a) s = .next (errState 3 0x32 s)

/-! ## Bit unpacker -/

/-- 45_bit_unpacker.md R221: IN_PUSH with room stores its byte at IN_LEN, every other byte is left, and nothing else changes. -/
def Obligations.InPushAppendsTheByte : Prop :=
  ∀ (b : Byte) (s : State), s.inLen ≠ s.cfg.inCap →
    ∃ t, exec (.inPush b) s = .next t ∧ t.inLen = s.inLen + 1 ∧ readIn t s.inLen = b ∧
      (∀ a, a ≠ s.inLen → readIn t a = readIn s a) ∧ { t with inLen := s.inLen, inMem := s.inMem } = s

/-- 45_bit_unpacker.md R221: IN_PUSH into a full buffer raises CAPACITY, with no abort effect. -/
def Obligations.InPushFullRaisesCapacity : Prop :=
  ∀ (b : Byte) (s : State), s.inLen = s.cfg.inCap → exec (.inPush b) s = .next (errState 7 0x40 s)

/-- 45_bit_unpacker.md R222: IN_CLEAR empties the input buffer and touches nothing but IN_LEN and IN_MEM. -/
def Obligations.InClearEmptiesTheBuffer : Prop :=
  ∀ s : State, ∃ t, exec .inClear s = .next t ∧ t.inLen = 0 ∧ { t with inLen := s.inLen, inMem := s.inMem } = s

/-- 43_code_table.md R171, 45_bit_unpacker.md R225: the reverse lookup gives the symbol whose code the candidate is, where the
table has one; the scan gives the greedy parse, with CAPACITY before a later CORRUPT_LEFTOVER; every bit string has a greedy
parse. -/
def Obligations.ScanIsTheGreedyParse : Prop :=
  (∀ (s : State) (c : BitString) (x : Sym), CodesInv s →
    (matchCode s.codeLen s.codeVal c = some x ↔
      0 < c.length ∧ (symGet s.codeLen x).toNat = c.length ∧ (symGet s.codeVal x).toNat = bitsVal c)) ∧
  ∀ (look : BitString → Option Sym) (cap : Nat) (y : BitString),
    (∃ xs rest, GreedyParse look y xs rest) ∧
    ∀ xs rest, GreedyParse look y xs rest →
      scanBits look cap y [] [] =
        if cap < xs.length then .error .capacity else if rest = [] then .ok xs else .error .corruptLeftover

/-- 45_bit_unpacker.md R227: stopping as soon as the candidate is longer than the longest code changes no outcome. -/
def Obligations.EarlyStopIsAllowed : Prop :=
  ∀ (s : State) (cap : Nat) (y : BitString),
    scanEarly (matchCode s.codeLen s.codeVal) cap (longestCode s.codeLen) y [] [] =
      scanBits (matchCode s.codeLen s.codeVal) cap y [] []

/-- 45_bit_unpacker.md R223 to R225: DECODE where its condition holds, with a header that does not exceed the bits after it and a
payload whose greedy parse leaves nothing and fits: OUT_MEM holds the symbols from index 0, every byte above them is
left, and nothing else changes. -/
def Obligations.DecodeWritesTheSymbols : Prop :=
  ∀ (s : State) (xs : List Sym), s.codesValid = true → s.encActive = false → s.inLen ≠ 0 →
    (readIn s 0).toNat ≤ 8 * s.inLen - 8 →
    GreedyParse (matchCode s.codeLen s.codeVal)
      (bitSlice (bitsOfBytes ((List.range s.inLen).map (readIn s))) 8 (8 * s.inLen - (readIn s 0).toNat)) xs [] →
    xs.length ≤ s.cfg.outCap →
    ∃ t, exec .decode s = .next t ∧ t.outLen = xs.length ∧ t.outValid = true ∧ t.outKind = true ∧ t.pad = readIn s 0 ∧
      (∀ k, k < xs.length → some (readOutByte t k) = xs[k]?) ∧
      (∀ k, xs.length ≤ k → readOutByte t k = readOutByte s k) ∧
      { t with outMem := s.outMem, outLen := s.outLen, outValid := s.outValid, outKind := s.outKind, pad := s.pad } = s

/-- 45_bit_unpacker.md R224, R226: DECODE of an empty buffer or of a header that exceeds the bits after it raises
CORRUPT_PADDING; the decode abort effect takes place, OUT_MEM is unspecified, and nothing else changes. -/
def Obligations.DecodePaddingErrorAborts : Prop :=
  ∀ s : State, s.codesValid = true → s.encActive = false →
    s.inLen = 0 ∨ 8 * s.inLen - 8 < (readIn s 0).toNat →
    ∃ t, exec .decode s = .next t ∧
      { t with outMem := s.outMem } = { errState 9 0x50 s with outValid := false, outLen := 0 }

/-- 45_bit_unpacker.md R224 to R226, 60_exceptions.md R256: DECODE whose parse emits more symbols than OUT_CAP raises CAPACITY,
and else one that leaves bits over raises CORRUPT_LEFTOVER; the decode abort effect takes place, OUT_MEM is
unspecified, and nothing else changes. -/
def Obligations.DecodeScanErrorAborts : Prop :=
  ∀ (s : State) (xs : List Sym) (rest : BitString), s.codesValid = true → s.encActive = false → s.inLen ≠ 0 →
    (readIn s 0).toNat ≤ 8 * s.inLen - 8 →
    GreedyParse (matchCode s.codeLen s.codeVal)
      (bitSlice (bitsOfBytes ((List.range s.inLen).map (readIn s))) 8 (8 * s.inLen - (readIn s 0).toNat)) xs rest →
    s.cfg.outCap < xs.length ∨ rest ≠ [] →
    ∃ t, exec .decode s = .next t ∧ { t with outMem := s.outMem } =
      { errState (if s.cfg.outCap < xs.length then 7 else 10) 0x50 s with outValid := false, outLen := 0 }

/-- 44_bit_packer.md R198: compressing a symbol sequence from reset and decoding the bytes OUT_MEM then holds gives the sequence
back, for every configuration and under either policy. -/
def Obligations.RoundTripRestoresTheSymbols : Prop :=
  ∀ (c : Config) (k : Nat) (t : List Sym) (s : State), c.wf = true → t ≠ [] → t.length ≤ c.outCap →
    runCommands (compressCommands t) (State.resetAt c k) = .next s → s.err = 0 → s.outLen ≤ c.inCap →
    ∃ u, runCommands (decompressCommands (outputBytes s)) s = .next u ∧ u.err = 0 ∧ u.outValid = true ∧
      outputBytes u = t

/-- 44_bit_packer.md R198: the compression of the round trip runs without an error when the stream fits OUT_MEM, whatever
the free choices; the bound asks that every code of at most 255 bits fit. -/
def Obligations.CompressionCompletes : Prop :=
  ∀ (c : Config) (k : Nat) (t : List Sym), c.wf = true → t ≠ [] → 2 + 255 * t.length / 8 ≤ c.outCap →
    ∃ s, runCommands (compressCommands t) (State.resetAt c k) = .next s ∧ s.err = 0 ∧ s.outValid = true ∧
      s.encStream = encodeAll s.codeLen s.codeVal t

/-! ## Errors -/

/-- 60_exceptions.md R251, R253, 10_state.md R26: a command that records an error records its own opcode, leaves RESP, and
changes nothing but ERR and ERR_OPC, apart from the abort effects of ENC_SYM and DECODE; SEQUENCE has none. An illegal
word changes nothing but ERR and ERR_OPC. -/
def Obligations.FailingCommandIsPrecise : Prop :=
  ∀ s : State, s.err = 0 →
    (∀ (i : Instr) (t : State), exec i s = .next t → t.err ≠ 0 →
      t.resp = s.resp ∧
      (((∃ x, i = .encSym x) ∧ (t.err = 6 ∨ t.err = 7) ∧
          t = { s with err := t.err, errOpc := opcodeOf i, encActive := false, encStream := [], encBits := 0,
                       outValid := false, outLen := 0 }) ∨
        (i = .decode ∧ (t.err = 7 ∨ t.err = 9 ∨ t.err = 10) ∧
          { t with outMem := s.outMem } = { s with err := t.err, errOpc := opcodeOf i, outValid := false, outLen := 0 }) ∨
        (((∃ x, i = .encSym x) ∨ i = .decode → t.err = 2) ∧ t = { s with err := t.err, errOpc := opcodeOf i }))) ∧
    ∀ w, (∀ i, encode i ≠ w) → executeWord w s = .next { s with err := 1, errOpc := opcField w }

/-- 60_exceptions.md R252, R255, 10_state.md R25: the first error is kept through every step to a state in which the rules apply
(after a reset, 70_reset_and_hazards.md R280, R282), and only ERR_CLEAR, CLEAR and the reset input leave the error state. -/
def Obligations.FirstErrorIsKept : Prop :=
  ∀ s t : State, step s = .next t → t.phase = .running → s.err ≠ 0 →
    (t.err = s.err ∧ t.errOpc = s.errOpc) ∨
    (t.err = 0 ∧ t.errOpc = 0 ∧ (ResetReleased s ∨
      (CoreMoves s ∧ (decodeWord s.pending = .ok .errClear ∨ decodeWord s.pending = .ok .clear))))

/-- 10_state.md R26: RESP after every command; and a step to a state in which the rules apply (after a reset,
70_reset_and_hazards.md R280, R282) that changes RESP is the core executing one of the four read
commands or CLEAR, or the release of the reset input. -/
def Obligations.RespChangesOnlyByReads : Prop :=
  (∀ (i : Instr) (s t : State), exec i s = .next t →
    t.resp =
      match i with
      | .clear => 0
      | .readFreq x => symGet s.freq x
      | .readCodeLen x => (symGet s.codeLen x).setWidth 32
      | .readCodeWord x w => (symGet s.codeVal x).extractLsb' (32 * w.toNat) 32
      | .readOut a => if s.outValid = true ∧ a.toNat < s.outLen then (readOutByte s a.toNat).setWidth 32 else s.resp
      | _ => s.resp) ∧
  ∀ s t : State, step s = .next t → t.phase = .running → t.resp ≠ s.resp →
    ResetReleased s ∨ (CoreMoves s ∧ (decodeWord s.pending = .ok .clear ∨
      (∃ x, decodeWord s.pending = .ok (.readFreq x)) ∨ (∃ x, decodeWord s.pending = .ok (.readCodeLen x)) ∨
      (∃ x w, decodeWord s.pending = .ok (.readCodeWord x w)) ∨ ∃ a, decodeWord s.pending = .ok (.readOut a)))

/-! ## The register window -/

/-- 40_control.md R101, 60_exceptions.md R254: the three outcomes of a host write of `w` to CMD, at any address of its slot in
the 64-byte window: overrun, gate, acceptance; the
gate looks at the opcode alone, and an illegal word that passes it while an error is recorded changes nothing. -/
def Obligations.CmdWriteOutcomes : Prop :=
  ∀ (w addr : Word) (s : State), s.phase = .running → (addr - s.cfg.base).toNat < 64 →
    (addr - s.cfg.base).extractLsb' 2 4 = 0 →
    (s.busy = true → hostOp (.wr 32 addr w) s = .next (hostNext (errState 11 (w.extractLsb' 24 8) s))) ∧
    (s.busy = false → s.err ≠ 0 → w.extractLsb' 24 8 ∉ [(0x00 : BitVec 8), 0x01, 0x02] →
      hostOp (.wr 32 addr w) s = .next (hostNext s)) ∧
    (s.busy = false → s.err = 0 ∨ w.extractLsb' 24 8 ∈ [(0x00 : BitVec 8), 0x01, 0x02] →
      hostOp (.wr 32 addr w) s = .next (hostNext { s with pending := w, pendingData := s.data, busy := true })) ∧
    (s.err ≠ 0 → (∀ i, encode i ≠ w) → executeWord w s = .next s)

/-- 40_control.md R102, 20_memory.md R61, R64: a host write to the DATA slot sets DATA at any time and nothing else, and does not
affect a command, accepted or not; a write to any slot but CMD and DATA has no effect. The address is any in the 64-byte
window, where only offset bits 5:2 select. -/
def Obligations.OtherWritesSetDataOrNothing : Prop :=
  ∀ (v addr : Word) (s : State), s.phase = .running → (addr - s.cfg.base).toNat < 64 →
    ((addr - s.cfg.base).extractLsb' 2 4 = 1 → hostOp (.wr 32 addr v) s = .next (hostNext { s with data := v })) ∧
    (1 < ((addr - s.cfg.base).extractLsb' 2 4).toNat → hostOp (.wr 32 addr v) s = .next (hostNext s)) ∧
    ∀ i t, exec i s = .next t →
      exec i { s with data := v } = .next { t with data := if i = .clear then t.data else v }

/-- 10_state.md R23, R25, R33, R34, 20_memory.md R61, R64: what a host read of each slot returns while BUSY = 0; the read changes
nothing in the CORE, and in the 64-byte window only offset bits 5:2 select. -/
def Obligations.IdleReadsReturnTheRegister : Prop :=
  ∀ (off addr : Word) (var : Nat) (s : State), s.phase = .running → s.busy = false → addr = s.cfg.base + off →
    (∀ p ∈ [(0x00, (0 : Word)), (0x04, s.data), (0x08, statusSum s), (0x0C, s.resp), (0x10, s.total),
      (0x14, BitVec.ofNat 32 s.nsym), (0x18, BitVec.ofNat 32 s.outLen), (0x1C, BitVec.ofNat 32 s.inLen),
      (0x20, s.encBits), (0x24, BitVec.ofNat 32 s.pad.toNat), (0x28, 0x48554631), (0x2C, BitVec.ofNat 32 s.cfg.inCap),
      (0x30, BitVec.ofNat 32 s.cfg.outCap), (0x34, 0), (0x38, 0), (0x3C, 0)],
      off = p.1 → hostOp (.rd 32 addr var) s = .next (hostNext (hostStore var p.2 s))) ∧
    ∀ a, (a - s.cfg.base).toNat < 64 → off.toNat < 64 → (a - s.cfg.base).extractLsb' 2 4 = off.extractLsb' 2 4 →
      hostOp (.rd 32 a var) s = hostOp (.rd 32 addr var) s

/-- 70_reset_and_hazards.md R284: while BUSY = 1, STATUS, DATA, the constants, CMD and the reserved slots read normally, and a
read of a result slot returns a free value (one of its own for each read), with the CORE unchanged. -/
def Obligations.BusyReadsOfResultsAreFree : Prop :=
  ∀ (off addr : Word) (var : Nat) (s : State), s.phase = .running → s.busy = true → addr = s.cfg.base + off →
    (off ∈ [0x0C, 0x10, 0x14, 0x18, 0x1C, 0x20, 0x24] →
      hostOp (.rd 32 addr var) s =
        .next (hostNext (hostStore var (Config.freeWord s.draws) { s with draws := s.draws + 1 }))) ∧
    (∀ p ∈ [(0x00, (0 : Word)), (0x04, s.data), (0x08, statusSum s), (0x28, 0x48554631),
      (0x2C, BitVec.ofNat 32 s.cfg.inCap), (0x30, BitVec.ofNat 32 s.cfg.outCap), (0x34, 0), (0x38, 0), (0x3C, 0)],
      off = p.1 → hostOp (.rd 32 addr var) s = .next (hostNext (hostStore var p.2 s)))

/-- 20_memory.md R62, 70_reset_and_hazards.md R280, R282: an access that is not 32 bits wide, while reset is asserted, or before
the first reset is refused. -/
def Obligations.ForeignAccessesAreRefused : Prop :=
  ∀ (width : Nat) (addr v : Word) (var : Nat) (s : State), (addr - s.cfg.base).toNat < 64 →
    (s.phase = .running → width ≠ 32 → hostOp (.wr width addr v) s = .refused .accessWidth ∧
      hostOp (.rd width addr var) s = .refused .accessWidth) ∧
    (s.phase = .resetAsserted → hostOp (.wr width addr v) s = .refused .accessDuringReset ∧
      hostOp (.rd width addr var) s = .refused .accessDuringReset) ∧
    (s.phase = .powerUp → hostOp (.wr width addr v) s = .refused .accessBeforeReset ∧
      hostOp (.rd width addr var) s = .refused .accessBeforeReset)

/-! ## Invariants and whole-machine rules -/

/-- 10_state.md R46: every step, of whichever agent, keeps the invariants (1) to (7), with the bounds of R29 to R31 and the
canonical form of the stores, as invariants of the states in which the rules apply (after a reset,
70_reset_and_hazards.md R280, R282). -/
def Obligations.StepKeepsInvariants : Prop := ∀ s t, SysInv s → step s = .next t → SysInv t

/-- 10_state.md R46, R47: the state after reset meets the invariants, for every configuration of 00_scope.md R7. -/
def Obligations.ResetMeetsInvariants : Prop :=
  SysInv State.reset ∧ CoreInv State.reset ∧
    ∀ c k, c.wf = true → SysInv (State.resetAt c k) ∧ CoreInv (State.resetAt c k)

/-- 10_state.md R46: the invariants (1) to (7) hold in every state reachable from reset in which the rules apply (not while
reset is asserted again or after power was removed, 70_reset_and_hazards.md R280, R282), under every configuration, host
program and schedule; and the converse of (4) fails: a reachable state has an error recorded with ERR_OPC = 0. -/
def Obligations.ReachableStatesMeetInvariants : Prop :=
  (∀ s, Reachable s → s.phase = .running → CoreInv s) ∧
    ∃ s, Reachable s ∧ s.phase = .running ∧ s.err ≠ 0 ∧ s.errOpc = 0

/-- 10_state.md R46 (6): every step keeps TOTAL = sum of FREQ and NSYM = the number of symbols counted, where the rules apply
(after a reset, 70_reset_and_hazards.md R280, R282). -/
def Obligations.StepKeepsCounts : Prop :=
  ∀ s t, (s.phase = .running → CountsInv s) → step s = .next t → t.phase = .running → CountsInv t

/-- 10_state.md R46 (5), R39: every step keeps the code table's invariants (a) and (b), where the rules apply (after a reset,
70_reset_and_hazards.md R280, R282). -/
def Obligations.StepKeepsCodeTable : Prop :=
  ∀ s t, (s.phase = .running → CodesInv s) → step s = .next t → t.phase = .running → CodesInv t

/-- 43_code_table.md R164, 42_tree_builder.md R141, 60_exceptions.md: from a state that meets the invariants no step stops with a
fault, and a refusal is a host access that the spec gives no step. -/
def Obligations.StepsAreSafe : Prop :=
  ∀ s, SysInv s → SafeStep s ∧ ∀ r, step s = .refused r →
    r = .accessWidth ∨ r = .accessDuringReset ∨ r = .accessBeforeReset

/-- 10_state.md R35, 40_control.md R106: once a tree or a table is held, a step to a state in which the rules apply (after a
reset, 70_reset_and_hazards.md R280, R282) that changes FREQ is the core executing CLEAR or the release of the reset input, and
leaves FREQ 0 and neither tree nor table. -/
def Obligations.FreqIsImmutableUntilClear : Prop :=
  ∀ s t : State, step s = .next t → t.phase = .running → s.treeValid = true ∨ s.codesValid = true →
    t.freq = s.freq ∨
    ((ResetReleased s ∨ (CoreMoves s ∧ decodeWord s.pending = .ok .clear)) ∧
      (∀ x, symGet t.freq x = 0) ∧ t.treeValid = false ∧ t.codesValid = false)

/-- 43_code_table.md R170, 20_memory.md R75: a step to a state in which the rules apply (after a reset,
70_reset_and_hazards.md R280, R282) that changes the code table is the core executing GEN_CODES, WRITE_CODE or
CLEAR, or the release of the reset input; never while a stream is open, but by CLEAR, GEN_CODES and reset. -/
def Obligations.TableChangesOnlyByItsCommands : Prop :=
  ∀ s t : State, step s = .next t → t.phase = .running → ¬ (t.codeLen = s.codeLen ∧ t.codeVal = s.codeVal) →
    ResetReleased s ∨ (CoreMoves s ∧ (decodeWord s.pending = .ok .clear ∨
      (decodeWord s.pending = .ok .genCodes ∧ s.treeValid = true ∧ s.codesValid = false) ∨
      ∃ x l, decodeWord s.pending = .ok (.writeCode x l) ∧ s.treeValid = false ∧ s.encActive = false))

/-- 70_reset_and_hazards.md R280, 10_state.md R47: while reset is asserted a host access is refused; its release gives every
element the reset value that R47 specifies, BUSY is 0 and no error is recorded, as CLEAR does; the host and the
parameters are left. -/
def Obligations.ResetReleaseGivesResetValues : Prop :=
  ∀ s : State, s.phase = .resetAsserted →
    (∀ width (addr : Word) v var, (addr - s.cfg.base).toNat < 64 → hostOp (.wr width addr v) s = .refused .accessDuringReset ∧
      hostOp (.rd width addr var) s = .refused .accessDuringReset) ∧
    ∀ ts, s.turns = .releaseReset :: ts →
      ∃ t, step s = .next t ∧ AtReset t ∧ t.busy = false ∧ t.err = 0 ∧ t.phase = .running ∧
        exec .clear { s with turns := ts } = .next t ∧ t.host = s.host ∧ t.cfg = s.cfg ∧ t.turns = ts

/-- 00_scope.md R7: no step changes the parameters. -/
def Obligations.ParametersNeverChange : Prop := ∀ s t, step s = .next t → t.cfg = s.cfg
end

