-- ==== Sys2Proof/Laws/Bits.lean ====
section
/-! SUPPORT. Laws of bit strings (00_scope.md R10) and of their grouping into bytes (20_memory.md R67). -/

namespace Sys2Proof.Machine

@[simp] theorem length_bitsOf (n v : Nat) : (bitsOf n v).length = n := by
  induction n with
  | zero => rfl
  | succ n ih => simp [bitsOf, ih]

theorem bitsVal_lt (p : BitString) : bitsVal p < 2 ^ p.length := by
  induction p with
  | nil => simp [bitsVal]
  | cons b p ih =>
    cases b <;> simp [bitsVal, Nat.pow_succ] <;> omega

theorem bitsVal_append (p q : BitString) : bitsVal (p ++ q) = bitsVal p * 2 ^ q.length + bitsVal q := by
  induction p with
  | nil => simp [bitsVal]
  | cons b p ih =>
    simp only [List.cons_append, bitsVal, ih, List.length_append, Nat.pow_add]
    ring

theorem bitsVal_bitsOf (n v : Nat) : bitsVal (bitsOf n v) = v % 2 ^ n := by
  induction n with
  | zero => simp [bitsOf, bitsVal, Nat.mod_one]
  | succ n ih =>
    have hb : (v.testBit n).toNat = v / 2 ^ n % 2 := by
      rw [Nat.testBit_eq_decide_div_mod_eq]
      rcases Nat.mod_two_eq_zero_or_one (v / 2 ^ n) with h | h <;> simp [h]
    rw [bitsOf, bitsVal, length_bitsOf, ih, hb, Nat.pow_succ, Nat.mod_mul]
    ring

theorem bitsOf_mod (n v : Nat) : bitsOf n (v % 2 ^ n) = bitsOf n v := by
  suffices h : ∀ m, n ≤ m → bitsOf n (v % 2 ^ m) = bitsOf n v from h n (Nat.le_refl n)
  induction n with
  | zero => intros; rfl
  | succ n ih =>
    intro m hm
    simp only [bitsOf, Nat.testBit_mod_two_pow, ih m (by omega)]
    simp [show n < m by omega]

/-- Two bit strings of one length and one value are the same. -/
theorem bitsVal_inj {p q : BitString} (hl : p.length = q.length) (hv : bitsVal p = bitsVal q) : p = q := by
  induction p generalizing q with
  | nil => cases q with
    | nil => rfl
    | cons _ _ => simp at hl
  | cons b p ih => cases q with
    | nil => simp at hl
    | cons c q =>
      have hl' : p.length = q.length := by simpa using hl
      have hp := bitsVal_lt p
      have hq := bitsVal_lt q
      simp only [bitsVal, hl'] at hv hp
      have hbc : b = c ∧ bitsVal p = bitsVal q := by
        cases b <;> cases c <;> simp at hv ⊢ <;> omega
      rw [hbc.1, ih hl' hbc.2]

theorem bitsOf_bitsVal (p : BitString) : bitsOf p.length (bitsVal p) = p :=
  bitsVal_inj (by simp) (by rw [bitsVal_bitsOf, Nat.mod_eq_of_lt (bitsVal_lt p)])

@[simp] theorem length_zeros (n : Nat) : (zeros n).length = n := by simp [zeros]

@[simp] theorem length_bitSlice (p : BitString) (i j : Nat) : (bitSlice p i j).length = min (j - i) (p.length - i) := by
  simp [bitSlice]

@[simp] theorem length_bitsOfBytes (bs : List Byte) : (bitsOfBytes bs).length = 8 * bs.length := by
  induction bs with
  | nil => rfl
  | cons b bs ih =>
    simp only [bitsOfBytes, List.flatMap_cons, List.length_append, length_bitsOf, List.length_cons] at ih ⊢
    omega

theorem padAmount_bounds (n : Nat) : 1 ≤ padAmount n ∧ padAmount n ≤ 8 := by
  unfold padAmount; omega

/-- The padded length is a multiple of 8 (30_encoding.md R86). -/
theorem length_paddedStream (e : BitString) : (paddedStream e).length = 8 * (2 + e.length / 8) := by
  simp only [paddedStream, List.length_append, length_bitsOf, length_zeros, padAmount]
  omega

theorem bitsOfBytes_append (xs ys : List Byte) : bitsOfBytes (xs ++ ys) = bitsOfBytes xs ++ bitsOfBytes ys := by
  simp [bitsOfBytes]

/-- The bits of byte `k` of a bit string are its bits 8k to 8k+7 (20_memory.md R67). -/
theorem bitsOf_byteOfBits (p : BitString) (k : Nat) (h : 8 * k + 8 ≤ p.length) :
    bitsOf 8 (byteOfBits p k).toNat = bitSlice p (8 * k) (8 * k + 8) := by
  have hlen : (bitSlice p (8 * k) (8 * k + 8)).length = 8 := by simp; omega
  have hlt := bitsVal_lt (bitSlice p (8 * k) (8 * k + 8))
  rw [hlen] at hlt
  have := bitsOf_bitsVal (bitSlice p (8 * k) (8 * k + 8))
  rw [hlen] at this
  rw [byteOfBits, BitVec.toNat_ofNat, Nat.mod_eq_of_lt hlt, this]

/-- Grouping bits into bytes and expanding the bytes again gives the bits back (20_memory.md R67). -/
theorem bitsOfBytes_bytesOfBits (p : BitString) (n : Nat) (h : 8 * n ≤ p.length) :
    bitsOfBytes (bytesOfBits p n) = p.take (8 * n) := by
  induction n with
  | zero => simp [bytesOfBits, bitsOfBytes]
  | succ n ih =>
    have hs : bytesOfBits p (n + 1) = bytesOfBits p n ++ [byteOfBits p n] := by
      simp [bytesOfBits, List.range_succ]
    rw [hs, bitsOfBytes_append, ih (by omega)]
    simp only [bitsOfBytes, List.flatMap_cons, List.flatMap_nil, List.append_nil]
    rw [bitsOf_byteOfBits p n (by omega), bitSlice, show 8 * n + 8 - 8 * n = 8 by omega,
      show 8 * (n + 1) = 8 * n + 8 by omega, List.take_add]

@[simp] theorem length_bytesOfBits (p : BitString) (n : Nat) : (bytesOfBits p n).length = n := by simp [bytesOfBits]

/-- Bit `i` of a bit string is that bit of its value, from the top. -/
theorem testBit_bitsVal (p : BitString) (i : Nat) (h : i < p.length) : p[i]? = some ((bitsVal p).testBit (p.length - 1 - i)) := by
  induction p generalizing i with
  | nil => simp at h
  | cons b p ih =>
    have hlt := bitsVal_lt p
    cases i with
    | zero =>
      simp only [List.getElem?_cons_zero, List.length_cons, bitsVal]
      congr 1
      rw [show p.length + 1 - 1 - 0 = p.length by omega, Nat.testBit_eq_decide_div_mod_eq]
      rw [Nat.add_comm, Nat.add_mul_div_right _ _ (by positivity), Nat.div_eq_of_lt hlt]
      cases b <;> simp
    | succ i =>
      simp only [List.length_cons] at h
      rw [List.getElem?_cons_succ, ih i (by omega)]
      congr 1
      simp only [List.length_cons, bitsVal]
      rw [Nat.mul_comm, Nat.testBit_two_pow_mul_add _ hlt]
      rw [if_pos (by omega)]
      congr 1; omega

/-- Bit `j` of a bit string is bit `7 - j mod 8` of its byte `j div 8` (20_memory.md R67). -/
theorem byte_bit (p : BitString) (j : Nat) (h8 : 8 * (j/8) + 8 ≤ p.length) :
    some ((byteOfBits p (j / 8)).getLsbD (7 - j % 8)) = p[j]? := by
  unfold byteOfBits
  have hl : (bitSlice p (8 * (j/8)) (8 * (j/8) + 8)).length = 8 := by simp; omega
  have := testBit_bitsVal (bitSlice p (8 * (j/8)) (8 * (j/8) + 8)) (j % 8) (by omega)
  rw [hl] at this
  rw [BitVec.getLsbD_ofNat]
  simp only [show 7 - j % 8 < 8 by omega, decide_true, Bool.true_and]
  rw [show 8 - 1 - j % 8 = 7 - j % 8 by omega] at this
  rw [← this]
  unfold bitSlice
  rw [List.getElem?_take, if_pos (by omega), List.getElem?_drop]
  congr 1; omega

end Sys2Proof.Machine
end

