-- ==== Sys2Proof/Laws/Store.lean ====
section
/-! SUPPORT. Laws of stores, buffers and tables: what a read gives after a write, and that every operation keeps the
canonical form. -/

namespace Sys2Proof.Machine

variable {α : Type}

@[simp] theorem storeGet_nil (a : Nat) : storeGet ([] : Store α) a = none := rfl

/-- A read after a write: the value written at its index, the old value elsewhere. -/
theorem storeGet_put (m : Store α) (a b : Nat) (v : α) :
    storeGet (storePut m a v) b = if b = a then some v else storeGet m b := by
  induction m with
  | nil => simp [storePut, storeGet, eq_comm]
  | cons x m ih =>
    obtain ⟨k, w⟩ := x
    unfold storePut
    by_cases h1 : a < k
    · by_cases hb : b = a
      · simp [h1, storeGet, hb]
      · simp [h1, storeGet, hb, Ne.symm hb]
    · by_cases h2 : a = k
      · subst h2
        by_cases hb : b = a
        · simp [storeGet, hb]
        · simp [storeGet, hb, Ne.symm hb]
      · by_cases hk : k = b
        · subst hk
          simp [h1, h2, storeGet, Ne.symm h2]
        · simp [h1, h2, storeGet, ih, hk]

@[simp] theorem storeGet_put_self (m : Store α) (a : Nat) (v : α) : storeGet (storePut m a v) a = some v := by
  simp [storeGet_put]

theorem storeGet_put_ne (m : Store α) {a b : Nat} (v : α) (h : b ≠ a) : storeGet (storePut m a v) b = storeGet m b := by
  simp [storeGet_put, h]

/-- A read after a run of writes. -/
theorem storeGet_putFrom (m : Store α) (a b : Nat) (vs : List α) :
    storeGet (storePutFrom m a vs) b = if a ≤ b ∧ b < a + vs.length then vs[b - a]? else storeGet m b := by
  induction vs generalizing m a with
  | nil => simp [storePutFrom, show ¬ (a ≤ b ∧ b < a) by omega]
  | cons v vs ih =>
    rw [storePutFrom, ih, storeGet_put, List.length_cons]
    by_cases hb : b = a
    · subst hb; simp
    · by_cases hlt : a + 1 ≤ b ∧ b < a + 1 + vs.length
      · have h2 : a ≤ b ∧ b < a + (vs.length + 1) := by omega
        rw [if_pos hlt, if_pos h2, show b - a = b - (a + 1) + 1 by omega, List.getElem?_cons_succ]
      · have h2 : ¬ (a ≤ b ∧ b < a + (vs.length + 1)) := by omega
        rw [if_neg hlt, if_neg h2, if_neg hb]

theorem mem_storePut {m : Store α} {a : Nat} {v : α} {x : Nat × α} (h : x ∈ storePut m a v) : x = (a, v) ∨ x ∈ m := by
  induction m with
  | nil => simpa [storePut] using h
  | cons y m ih =>
    obtain ⟨k, w⟩ := y
    unfold storePut at h
    split at h
    · simpa using h
    · split at h
      · rcases List.mem_cons.1 h with h | h <;> simp [h]
      · rcases List.mem_cons.1 h with h | h
        · simp [h]
        · rcases ih h with h | h <;> simp [h]

/-- Writing keeps the canonical form. -/
theorem storePut_wf {m : Store α} (h : Store.wf m) (a : Nat) (v : α) : Store.wf (storePut m a v) := by
  induction m with
  | nil => simp [storePut, Store.wf]
  | cons y m ih =>
    obtain ⟨k, w⟩ := y
    obtain ⟨hk, hm⟩ := List.pairwise_cons.1 h
    unfold storePut
    split
    · rename_i hak
      refine List.pairwise_cons.2 ⟨fun x hx => ?_, h⟩
      rcases List.mem_cons.1 hx with rfl | hx
      · exact hak
      · exact Nat.lt_trans hak (hk x hx)
    · split
      · subst_vars; exact List.pairwise_cons.2 ⟨hk, hm⟩
      · refine List.pairwise_cons.2 ⟨fun x hx => ?_, ih hm⟩
        rcases mem_storePut hx with rfl | hx
        · simp; omega
        · exact hk x hx

/-- A run of writes keeps the canonical form. -/
theorem storePutFrom_wf {m : Store α} (h : Store.wf m) (a : Nat) (vs : List α) : Store.wf (storePutFrom m a vs) := by
  induction vs generalizing m a with
  | nil => exact h
  | cons v vs ih => exact ih (storePut_wf h a v) (a + 1)

/-- In a canonical store a value is listed exactly where it is read. -/
theorem storeGet_eq_some_iff {m : Store α} (h : Store.wf m) (a : Nat) (v : α) : storeGet m a = some v ↔ (a, v) ∈ m := by
  induction m with
  | nil => simp
  | cons y m ih =>
    obtain ⟨k, w⟩ := y
    obtain ⟨hk, hm⟩ := List.pairwise_cons.1 h
    simp only [storeGet, List.mem_cons, Prod.mk.injEq]
    split
    · subst_vars
      have hnot : (k, v) ∉ m := fun hx => absurd (hk _ hx) (Nat.lt_irrefl _)
      simp [hnot, eq_comm]
    · rename_i hne
      simp [ih hm, Ne.symm hne]

/-- Equal reads make equal canonical stores: the form is canonical. -/
theorem store_ext {m n : Store α} (hm : Store.wf m) (hn : Store.wf n) (h : ∀ a, storeGet m a = storeGet n a) : m = n := by
  have hmem : ∀ x, x ∈ m ↔ x ∈ n := fun ⟨a, v⟩ => by
    rw [← storeGet_eq_some_iff hm, ← storeGet_eq_some_iff hn, h]
  have hirr : ∀ {l : Store α}, Store.wf l → l.Nodup := fun hl => by
    refine List.Pairwise.imp (fun {x y} hxy heq => ?_) hl
    subst heq; exact Nat.lt_irrefl _ hxy
  have hperm : m.Perm n := (List.perm_ext_iff_of_nodup (hirr hm) (hirr hn)).2 hmem
  exact List.Perm.eq_of_pairwise (fun x y _ _ hxy hyx => absurd (Nat.lt_trans hxy hyx) (Nat.lt_irrefl _)) hm hn hperm

/-! ## Buffers -/

theorem writeIn_wf {s : State} (h : Memory.wf s.inMem) (a : Nat) (v : Byte) : Memory.wf (writeIn s a v).inMem :=
  storePut_wf h a v

theorem writeOutBytes_wf {s : State} (h : Memory.wf s.outMem) (vs : List Byte) : Memory.wf (writeOutBytes s vs).outMem :=
  storePutFrom_wf h 0 vs

theorem reset_inMem_wf : Memory.wf State.reset.inMem := List.Pairwise.nil

theorem reset_outMem_wf : Memory.wf State.reset.outMem := List.Pairwise.nil

theorem reset_nodes_wf : Store.wf State.reset.nodes := List.Pairwise.nil

/-- A byte written to IN_MEM is read back. -/
theorem readIn_writeIn (s : State) (a : Nat) (v : Byte) : readIn (writeIn s a v) a = v := by
  simp [readIn, writeIn]

/-- A write to IN_MEM leaves every other byte. -/
theorem readIn_writeIn_ne (s : State) {a b : Nat} (v : Byte) (h : b ≠ a) : readIn (writeIn s a v) b = readIn s b := by
  simp [readIn, writeIn, storeGet_put_ne _ _ h]

/-- The bytes written to OUT_MEM are read back, and every byte above them is left. -/
theorem readOutByte_writeOutBytes (s : State) (vs : List Byte) (a : Nat) :
    readOutByte (writeOutBytes s vs) a = if a < vs.length then vs.getD a 0 else readOutByte s a := by
  simp only [readOutByte, writeOutBytes, storeGet_putFrom]
  by_cases h : a < vs.length <;> simp [h]

/-! ## Tables -/

@[simp] theorem symGet_symSet_self (t : Vector α 256) (x : Sym) (v : α) : symGet (symSet t x v) x = v := by
  simp [symGet, symSet]

theorem symGet_symSet_ne (t : Vector α 256) {x y : Sym} (v : α) (h : y ≠ x) : symGet (symSet t x v) y = symGet t y := by
  have : x.toNat ≠ y.toNat := fun h' => h (BitVec.eq_of_toNat_eq h'.symm)
  simp [symGet, symSet, this]

theorem symGet_symSet (t : Vector α 256) (x y : Sym) (v : α) :
    symGet (symSet t x v) y = if y = x then v else symGet t y := by
  split
  · subst_vars; simp
  · rename_i h; exact symGet_symSet_ne t v h

@[simp] theorem symGet_replicate (v : α) (x : Sym) : symGet (Vector.replicate 256 v) x = v := by
  simp [symGet]

@[simp] theorem stageGet_stageSet_self (t : Vector Word 8) (w : BitVec 3) (v : Word) : stageGet (stageSet t w v) w = v := by
  simp [stageGet, stageSet]

theorem stageGet_stageSet_ne (t : Vector Word 8) {w u : BitVec 3} (v : Word) (h : u ≠ w) :
    stageGet (stageSet t w v) u = stageGet t u := by
  have : w.toNat ≠ u.toNat := fun h' => h (BitVec.eq_of_toNat_eq h'.symm)
  simp [stageGet, stageSet, this]

/-- Every symbol is in the ascending list of symbols. -/
theorem mem_allSyms (x : Sym) : x ∈ allSyms := by
  refine List.mem_map.2 ⟨x.toNat, List.mem_range.2 x.isLt, ?_⟩
  simp

/-- The list of symbols has no repeats. -/
theorem nodup_allSyms : allSyms.Nodup := by
  refine List.Nodup.map_on (fun i hi j hj h => ?_) List.nodup_range
  have hi := List.mem_range.1 hi
  have hj := List.mem_range.1 hj
  have := congrArg BitVec.toNat h
  simpa [Nat.mod_eq_of_lt hi, Nat.mod_eq_of_lt hj] using this

end Sys2Proof.Machine
end

