-- ==== Sys2Proof/Laws/Build.lean ====
section
/-! SUPPORT. Laws of the tree builder (42_tree_builder.md R141 to R143, R145). -/

namespace Sys2Proof.Machine

/-! ## The leaves -/

@[simp] theorem nfreq_leaf (x : Sym) (f : Word) : (Node.leaf x f).nfreq = f := rfl

@[simp] theorem nfreq_branch (f : Word) (l r : BitVec 9) : (Node.branch f l r).nfreq = f := rfl

theorem leavesOf_eq_map (f : Vector Word 256) :
    leavesOf f = (presentSyms f).map fun x => Node.leaf x (symGet f x) := by
  unfold leavesOf presentSyms
  induction allSyms with
  | nil => rfl
  | cons x l ih =>
    by_cases h : 0 < (symGet f x).toNat <;> simp [h, ih]

@[simp] theorem length_leavesOf (f : Vector Word 256) : (leavesOf f).length = (presentSyms f).length := by
  simp [leavesOf_eq_map]

theorem length_presentSyms_le (f : Vector Word 256) : (presentSyms f).length ≤ 256 := by
  have := List.length_filter_le (fun x => decide (0 < (symGet f x).toNat)) allSyms
  simpa [presentSyms, allSyms] using this

/-- The leaf frequencies sum up to the sum of FREQ. -/
theorem sum_leaves (f : Vector Word 256) : ((leavesOf f).map fun n => n.nfreq.toNat).sum = freqSum f := by
  unfold leavesOf freqSum
  induction allSyms with
  | nil => rfl
  | cons x l ih =>
    by_cases h : 0 < (symGet f x).toNat
    · simp [h, ih]
    · have h0 : (symGet f x).toNat = 0 := by omega
      simp [h0, ih]

/-! ## popmin -/

theorem keyLe_total (key : Nat → Nat) (i j : Nat) : keyLe key i j = true ∨ keyLe key j i = true := by
  simp only [keyLe, Bool.or_eq_true, decide_eq_true_eq, Bool.and_eq_true]; omega

theorem keyLe_trans (key : Nat → Nat) {i j k : Nat} (h1 : keyLe key i j = true) (h2 : keyLe key j k = true) :
    keyLe key i k = true := by
  simp only [keyLe, Bool.or_eq_true, decide_eq_true_eq, Bool.and_eq_true] at *; omega

/-- The smallest key is the key of smallest frequency. -/
theorem key_le_of_keyLe (key : Nat → Nat) {i j : Nat} (h : keyLe key i j = true) : key i ≤ key j := by
  simp only [keyLe, Bool.or_eq_true, decide_eq_true_eq, Bool.and_eq_true] at h; omega

/-- A queue that is not empty has an index of smallest key. -/
theorem exists_keyLe (key : Nat → Nat) (pq : List Nat) (h : pq ≠ []) : ∃ i ∈ pq, ∀ j ∈ pq, keyLe key i j = true := by
  induction pq with
  | nil => exact absurd rfl h
  | cons a l ih =>
    rcases List.eq_nil_or_concat l with rfl | ⟨_, _, _⟩
    · exact ⟨a, by simp, by simp [keyLe]⟩
    · obtain ⟨i, hi, hm⟩ := ih (by simp_all)
      rcases keyLe_total key a i with h1 | h1
      · refine ⟨a, by simp, fun j hj => ?_⟩
        rcases List.mem_cons.1 hj with rfl | hj
        · simp [keyLe]
        · exact keyLe_trans key h1 (hm j hj)
      · refine ⟨i, by simp [hi], fun j hj => ?_⟩
        rcases List.mem_cons.1 hj with rfl | hj
        · exact h1
        · exact hm j hj

theorem mem_seqMinima {key : Nat → Nat} {pq : List Nat} {i : Nat} :
    i ∈ seqMinima key pq ↔ i ∈ pq ∧ ∀ j ∈ pq, keyLe key i j = true := by
  simp [seqMinima]

theorem mem_anyMinima {key : Nat → Nat} {pq : List Nat} {i : Nat} :
    i ∈ anyMinima key pq ↔ i ∈ pq ∧ ∀ j ∈ pq, key i ≤ key j := by
  simp [anyMinima]

/-- popmin answers on every queue that is not empty. -/
theorem popMin_isSome (tie : TiePolicy) (choice : Nat) (key : Nat → Nat) (pq : List Nat) (h : pq ≠ []) :
    ∃ i q, popMin tie choice key pq = some (i, q) := by
  obtain ⟨i, hi, hm⟩ := exists_keyLe key pq h
  cases tie with
  | seq =>
    have hpos : 0 < (seqMinima key pq).length := List.length_pos_of_mem (mem_seqMinima.2 ⟨hi, hm⟩)
    exact ⟨_, _, by simp [popMin, List.getElem?_eq_getElem hpos]; exact ⟨rfl, rfl⟩⟩
  | any =>
    have hpos : 0 < (anyMinima key pq).length :=
      List.length_pos_of_mem (mem_anyMinima.2 ⟨hi, fun j hj => key_le_of_keyLe key (hm j hj)⟩)
    have hlt := Nat.mod_lt choice hpos
    exact ⟨_, _, by simp [popMin, List.getElem?_eq_getElem hlt]; exact ⟨rfl, rfl⟩⟩

/-- Everything popmin can do: it removes an index of smallest frequency, under SEQ the one of smallest key
(42_tree_builder.md R142, R143). -/
theorem popMin_spec {tie : TiePolicy} {choice : Nat} {key : Nat → Nat} {pq q : List Nat} {i : Nat}
    (h : popMin tie choice key pq = some (i, q)) :
    i ∈ pq ∧ q = pq.erase i ∧ (∀ j ∈ pq, key i ≤ key j) ∧ (tie = .seq → ∀ j ∈ pq, keyLe key i j = true) := by
  cases tie with
  | seq =>
    simp only [popMin, Option.map_eq_some_iff, Prod.mk.injEq] at h
    obtain ⟨a, ha, rfl, rfl⟩ := h
    obtain ⟨h1, h2⟩ := mem_seqMinima.1 (List.mem_of_getElem? ha)
    exact ⟨h1, rfl, fun j hj => key_le_of_keyLe key (h2 j hj), fun _ => h2⟩
  | any =>
    simp only [popMin, Option.map_eq_some_iff, Prod.mk.injEq] at h
    obtain ⟨a, ha, rfl, rfl⟩ := h
    obtain ⟨h1, h2⟩ := mem_anyMinima.1 (List.mem_of_getElem? ha)
    exact ⟨h1, rfl, h2, fun e => by cases e⟩

/-! ## The loop -/

/-- One round whole: with two indices in the queue it pops `a`, then `b`, and leaves exactly this builder
(42_tree_builder.md R141). -/
theorem mergeOnce_round (tie : TiePolicy) (choose : Nat → Nat) (k : Nat) (t : Builder) (h : 1 < t.pq.length) :
    ∃ a b, popMin tie (choose t.draw) (nfreqAt t.nodes k) t.pq = some (a, t.pq.erase a) ∧
      popMin tie (choose (t.draw + choicesUsed tie)) (nfreqAt t.nodes k) (t.pq.erase a) =
        some (b, (t.pq.erase a).erase b) ∧
      mergeOnce tie choose k t = some
        { nodes := storePut t.nodes t.next
            (.branch ((nodeAt t.nodes k a).nfreq + (nodeAt t.nodes k b).nfreq) (BitVec.ofNat 9 a) (BitVec.ofNat 9 b))
          pq := (t.pq.erase a).erase b ++ [t.next]
          next := t.next + 1
          draw := t.draw + 2 * choicesUsed tie } := by
  obtain ⟨a, q, ha⟩ := popMin_isSome tie (choose t.draw) (nfreqAt t.nodes k) t.pq (by intro e; simp [e] at h)
  obtain ⟨h1, rfl, -, -⟩ := popMin_spec ha
  have hlen : (t.pq.erase a).length = t.pq.length - 1 := List.length_erase_of_mem h1
  obtain ⟨b, q', hb⟩ := popMin_isSome tie (choose (t.draw + choicesUsed tie)) (nfreqAt t.nodes k) (t.pq.erase a)
    (by intro e; simp [e] at hlen; omega)
  obtain ⟨-, rfl, -, -⟩ := popMin_spec hb
  exact ⟨a, b, ha, hb, by simp [mergeOnce, ha, hb]⟩

/-- One round: two popped indices, and what the round leaves. -/
theorem mergeOnce_spec {tie : TiePolicy} {choose : Nat → Nat} {k : Nat} {t t' : Builder}
    (h : mergeOnce tie choose k t = some t') :
    ∃ a b, a ∈ t.pq ∧ b ∈ t.pq.erase a ∧ t'.pq = (t.pq.erase a).erase b ++ [t.next] ∧ t'.next = t.next + 1 ∧
      t'.nodes = storePut t.nodes t.next
        (.branch ((nodeAt t.nodes k a).nfreq + (nodeAt t.nodes k b).nfreq) (BitVec.ofNat 9 a) (BitVec.ofNat 9 b)) := by
  simp only [mergeOnce, Option.bind_eq_some_iff, Option.map_eq_some_iff] at h
  obtain ⟨⟨a, q⟩, ha, ⟨b, q'⟩, hb, rfl⟩ := h
  obtain ⟨h1, rfl, -, -⟩ := popMin_spec ha
  obtain ⟨h2, rfl, -, -⟩ := popMin_spec hb
  exact ⟨a, b, h1, h2, rfl, rfl, rfl⟩

/-- A round answers as long as the queue has two indices. -/
theorem mergeOnce_isSome (tie : TiePolicy) (choose : Nat → Nat) (k : Nat) (t : Builder) (h : 1 < t.pq.length) :
    ∃ t', mergeOnce tie choose k t = some t' :=
  let ⟨_, _, _, _, h'⟩ := mergeOnce_round tie choose k t h
  ⟨_, h'⟩

theorem mergeOnce_length {tie : TiePolicy} {choose : Nat → Nat} {k : Nat} {t t' : Builder}
    (h : mergeOnce tie choose k t = some t') : t'.pq.length + 1 = t.pq.length ∧ t'.next = t.next + 1 := by
  obtain ⟨a, b, ha, hb, hpq, hn, -⟩ := mergeOnce_spec h
  have h1 : (t.pq.erase a).length = t.pq.length - 1 := List.length_erase_of_mem ha
  have h2 : ((t.pq.erase a).erase b).length = (t.pq.erase a).length - 1 := List.length_erase_of_mem hb
  have h3 := List.length_pos_of_mem ha
  have h4 := List.length_pos_of_mem hb
  refine ⟨?_, hn⟩
  rw [hpq, List.length_append, List.length_singleton]
  omega

/-- An induction once for the whole loop: what one round keeps, the loop keeps; it ends with one index in the queue,
after as many rounds as the queue had indices too many. -/
theorem mergeLoop_induction {tie : TiePolicy} {choose : Nat → Nat} {k : Nat} (P : Builder → Prop)
    (hstep : ∀ t t', P t → 1 < t.pq.length → mergeOnce tie choose k t = some t' → P t') (n : Nat) (t : Builder)
    (hP : P t) (hpos : 0 < t.pq.length) (hn : t.pq.length ≤ n + 1) :
    ∃ t', mergeLoop tie choose k n t = some t' ∧ P t' ∧ t'.pq.length = 1 ∧ t'.next + 1 = t.next + t.pq.length := by
  induction n generalizing t with
  | zero => exact ⟨t, rfl, hP, by omega, by omega⟩
  | succ n ih =>
    by_cases h : t.pq.length ≤ 1
    · exact ⟨t, by simp [mergeLoop, h], hP, by omega, by omega⟩
    · obtain ⟨t1, h1⟩ := mergeOnce_isSome tie choose k t (by omega)
      obtain ⟨hl, hnx⟩ := mergeOnce_length h1
      obtain ⟨t', h', hP', hl', hn'⟩ := ih t1 (hstep t t1 hP (by omega) h1) (by omega) (by omega)
      exact ⟨t', by simp [mergeLoop, h, h1, h'], hP', hl', by omega⟩

/-! ## The tree -/

/-- The invariant of the loop: `L` are the leaves, and every node made so far is in the queue or has exactly one
parent. -/
structure LoopInv (L : List Node) (t : Builder) : Prop where
  kind   : ∀ n ∈ L, ∃ x f, n = Node.leaf x f
  size   : t.pq.length + t.next = 2 * L.length
  low    : L.length ≤ t.next
  nodup  : t.pq.Nodup
  bound  : ∀ i ∈ t.pq, i < t.next
  leaves : ∀ i, i < L.length → storeGet t.nodes i = L[i]?
  inner  : ∀ i, L.length ≤ i → i < t.next → ∃ f l r, storeGet t.nodes i = some (.branch f l r) ∧
    l.toNat < i ∧ r.toNat < i ∧ l ≠ r ∧ l.toNat ∉ t.pq ∧ r.toNat ∉ t.pq ∧
    ∃ a b, storeGet t.nodes l.toNat = some a ∧ storeGet t.nodes r.toNat = some b ∧
      f.toNat = a.nfreq.toNat + b.nfreq.toNat
  parent : ∀ i, i < t.next → i ∉ t.pq → ∃! j, j < t.next ∧ IsParent t.nodes j i
  sum    : (t.pq.map fun i => ((storeGet t.nodes i).map fun n => n.nfreq.toNat).getD 0).sum =
    (L.map fun n => n.nfreq.toNat).sum

theorem LoopInv.listed {L : List Node} {t : Builder} (h : LoopInv L t) {i : Nat} (hi : i < t.next) :
    ∃ n, storeGet t.nodes i = some n := by
  by_cases hl : i < L.length
  · exact ⟨L[i], by rw [h.leaves i hl, List.getElem?_eq_getElem hl]⟩
  · obtain ⟨f, l, r, hs, -⟩ := h.inner i (by omega) hi
    exact ⟨_, hs⟩

theorem sum_erase {q : List Nat} {a : Nat} (g : Nat → Nat) (h : a ∈ q) : (q.map g).sum = g a + ((q.erase a).map g).sum := by
  have := (List.perm_cons_erase h).map g
  simpa using this.sum_eq

/-- One round keeps the invariant of the loop, as long as the frequencies sum up below 2^32 and the indices fit their
9 bits. -/
theorem LoopInv.mergeOnce {L : List Node} {t t' : Builder} {tie : TiePolicy} {choose : Nat → Nat} {k : Nat}
    (h : LoopInv L t) (hL : L.length ≤ 256) (hsum : (L.map fun n => n.nfreq.toNat).sum < 2 ^ 32)
    (hq : 1 < t.pq.length) (hm : mergeOnce tie choose k t = some t') : LoopInv L t' := by
  obtain ⟨a, b, ha, hb, hpq, hnext, hnodes⟩ := mergeOnce_spec hm
  obtain ⟨hlen, -⟩ := mergeOnce_length hm
  have hb' : b ∈ t.pq := List.mem_of_mem_erase hb
  have hab : b ≠ a := fun e => by rw [e] at hb; exact List.Nodup.not_mem_erase h.nodup hb
  have hat := h.bound a ha
  have hbt := h.bound b hb'
  have hsize := h.size
  have h512 : t.next < 512 := by omega
  have ha9 : (BitVec.ofNat 9 a).toNat = a := by rw [BitVec.toNat_ofNat, Nat.mod_eq_of_lt (by omega)]
  have hb9 : (BitVec.ofNat 9 b).toNat = b := by rw [BitVec.toNat_ofNat, Nat.mod_eq_of_lt (by omega)]
  obtain ⟨na, hna⟩ := h.listed hat
  obtain ⟨nb, hnb⟩ := h.listed hbt
  have hgetne : ∀ i, i ≠ t.next → storeGet t'.nodes i = storeGet t.nodes i := fun i hi => by
    rw [hnodes, storeGet_put_ne _ _ hi]
  have hgetself : storeGet t'.nodes t.next =
      some (.branch (na.nfreq + nb.nfreq) (BitVec.ofNat 9 a) (BitVec.ofNat 9 b)) := by
    rw [hnodes, storeGet_put_self]; simp [nodeAt, hna, hnb]
  have hmem : ∀ i, i ∈ t'.pq ↔ (i ∈ t.pq ∧ i ≠ a ∧ i ≠ b) ∨ i = t.next := fun i => by
    rw [hpq, List.mem_append, List.mem_singleton, (h.nodup.erase a).mem_erase_iff, h.nodup.mem_erase_iff]
    tauto
  have hrest : ∀ i ∈ (t.pq.erase a).erase b, i ∈ t.pq := fun i hi =>
    List.mem_of_mem_erase (List.mem_of_mem_erase hi)
  -- the frequencies of the two popped nodes sum up below 2^32
  have hs1 := sum_erase (fun i => ((storeGet t.nodes i).map fun n => n.nfreq.toNat).getD 0) ha
  have hs2 := sum_erase (fun i => ((storeGet t.nodes i).map fun n => n.nfreq.toNat).getD 0) hb
  have hsq := h.sum
  simp only [hna, Option.map_some, Option.getD_some] at hs1
  simp only [hnb, Option.map_some, Option.getD_some] at hs2
  have hnf : (na.nfreq + nb.nfreq).toNat = na.nfreq.toNat + nb.nfreq.toNat := by
    rw [BitVec.toNat_add, Nat.mod_eq_of_lt (by omega)]
  have hpar : ∀ j i, IsParent t'.nodes j i ↔ (j ≠ t.next ∧ IsParent t.nodes j i) ∨ (j = t.next ∧ (i = a ∨ i = b)) := by
    intro j i
    by_cases hj : j = t.next
    · subst hj
      constructor
      · rintro ⟨f, l, r, hs, hi⟩
        rw [hgetself] at hs
        cases hs
        rw [ha9, hb9] at hi
        exact .inr ⟨rfl, hi.imp Eq.symm Eq.symm⟩
      · rintro (⟨hne, -⟩ | ⟨-, hi⟩)
        · exact absurd rfl hne
        · exact ⟨_, _, _, hgetself, by rw [ha9, hb9]; exact hi.imp Eq.symm Eq.symm⟩
    · simp [IsParent, hgetne j hj, hj]
  -- a popped index had no parent
  have horphan : ∀ i ∈ t.pq, ∀ j, j < t.next → ¬ IsParent t.nodes j i := by
    rintro i hi j hj ⟨f, l, r, hs, hlr⟩
    by_cases hjL : j < L.length
    · have hl := h.leaves j hjL
      rw [hs, List.getElem?_eq_getElem hjL] at hl
      obtain ⟨x, g, hx⟩ := h.kind _ (List.getElem_mem hjL)
      rw [hx] at hl
      cases hl
    · obtain ⟨f', l', r', hs', -, -, -, h1, h2, -⟩ := h.inner j (by omega) hj
      rw [hs] at hs'
      cases hs'
      rcases hlr with rfl | rfl
      · exact h1 hi
      · exact h2 hi
  refine ⟨h.kind, by omega, by have := h.low; omega, ?_, ?_, ?_, ?_, ?_, ?_⟩
  · rw [hpq]
    refine List.nodup_append.2 ⟨(h.nodup.erase a).erase b, by simp, fun i hi j hj e => ?_⟩
    have := h.bound i (hrest i hi)
    simp at hj; omega
  · intro i hi
    rcases (hmem i).1 hi with ⟨h1, -⟩ | h1
    · have := h.bound i h1; omega
    · omega
  · intro i hi
    rw [hgetne i (by have := h.low; omega), h.leaves i hi]
  · intro i hi hlt
    by_cases he : i = t.next
    · subst he
      refine ⟨_, _, _, hgetself, by omega, by omega, ?_, ?_, ?_, na, nb, ?_, ?_, hnf⟩
      · intro e
        have := congrArg BitVec.toNat e
        omega
      · rw [ha9, hmem]; omega
      · rw [hb9, hmem]; omega
      · rw [ha9, hgetne a (by omega), hna]
      · rw [hb9, hgetne b (by omega), hnb]
    · obtain ⟨f, l, r, hs, h1, h2, h3, h4, h5, x, y, hx, hy, hxy⟩ := h.inner i hi (by omega)
      refine ⟨f, l, r, by rw [hgetne i he, hs], h1, h2, h3, ?_, ?_, x, y, ?_, ?_, hxy⟩
      · rw [hmem]; rintro (⟨h6, -⟩ | h6)
        · exact h4 h6
        · omega
      · rw [hmem]; rintro (⟨h6, -⟩ | h6)
        · exact h5 h6
        · omega
      · rw [hgetne _ (by omega), hx]
      · rw [hgetne _ (by omega), hy]
  · intro i hi hnot
    rw [hmem] at hnot
    have hin : i ≠ t.next := fun e => hnot (.inr e)
    by_cases hiq : i ∈ t.pq
    · have hiab : i = a ∨ i = b := by
        by_contra hc
        exact hnot (.inl ⟨hiq, fun e => hc (.inl e), fun e => hc (.inr e)⟩)
      refine ⟨t.next, ⟨by omega, (hpar _ _).2 (.inr ⟨rfl, hiab⟩)⟩, fun j hj => ?_⟩
      rcases (hpar j i).1 hj.2 with ⟨h1, h2⟩ | ⟨h1, -⟩
      · exact absurd h2 (horphan i hiq j (by omega))
      · exact h1
    · obtain ⟨j, ⟨hj, hp⟩, huniq⟩ := h.parent i (by omega) hiq
      refine ⟨j, ⟨by omega, (hpar _ _).2 (.inl ⟨by omega, hp⟩)⟩, fun j' hj' => ?_⟩
      rcases (hpar j' i).1 hj'.2 with ⟨h1, h2⟩ | ⟨-, h2⟩
      · exact huniq j' ⟨by omega, h2⟩
      · rcases h2 with rfl | rfl
        · exact absurd ha hiq
        · exact absurd hb' hiq
  · rw [hpq, List.map_append, List.sum_append]
    have : (((t.pq.erase a).erase b).map fun i => ((storeGet t'.nodes i).map fun n => n.nfreq.toNat).getD 0) =
        (((t.pq.erase a).erase b).map fun i => ((storeGet t.nodes i).map fun n => n.nfreq.toNat).getD 0) :=
      List.map_congr_left fun i hi => by
        rw [hgetne i (by have := h.bound i (hrest i hi); omega)]
    rw [this]
    simp only [List.map_cons, List.map_nil, List.sum_cons, List.sum_nil, hgetself, Option.map_some, Option.getD_some,
      nfreq_branch, hnf]
    omega

/-- The loop is its rounds, one after another. -/
theorem mergeLoop_rounds {tie : TiePolicy} {choose : Nat → Nat} {k : Nat} (n : Nat) {t t' : Builder}
    (h : mergeLoop tie choose k n t = some t') (hend : t'.pq.length ≤ 1) : MergeRounds tie choose k t t' := by
  induction n generalizing t with
  | zero => rw [mergeLoop] at h; cases h; exact .done _ hend
  | succ n ih =>
    rw [mergeLoop] at h
    split at h
    · cases h; exact .done _ hend
    · obtain ⟨u, hu, hv⟩ := Option.bind_eq_some_iff.1 h
      exact .round t u t' (by omega) hu (ih hv)

/-- BUILD_TREE's algorithm ends on every state with a leaf: 2N - 1 nodes, and the queue holds the last one
(42_tree_builder.md R141). -/
theorem buildWith_ends (choose : Nat → Nat) (s : State) (h : presentSyms s.freq ≠ []) :
    ∃ t, buildWith choose s = some t ∧ t.pq = [2 * (presentSyms s.freq).length - 2] ∧
      t.next = 2 * (presentSyms s.freq).length - 1 := by
  have hpos : 0 < (presentSyms s.freq).length := List.length_pos_iff.2 h
  obtain ⟨t, h1, h2, h3, h4⟩ := mergeLoop_induction (tie := s.cfg.tie) (choose := choose) (k := s.draws)
    (fun t => t.next - 1 ∈ t.pq)
    (fun t t' _ _ hm => by
      obtain ⟨a, b, -, -, hpq, hn, -⟩ := mergeOnce_spec hm
      simp [hpq, hn])
    (leavesOf s.freq).length (builderStart s) (by simp [builderStart]; omega) (by simpa [builderStart] using hpos)
    (by simp [builderStart])
  have h4' : t.next + 1 = (presentSyms s.freq).length + (presentSyms s.freq).length := by
    simpa [builderStart] using h4
  refine ⟨t, h1, ?_, by omega⟩
  obtain ⟨x, hx⟩ := List.length_eq_one_iff.1 h3
  simp only [hx, List.mem_singleton] at h2
  rw [hx, ← h2, show t.next - 1 = 2 * (presentSyms s.freq).length - 2 by omega]

theorem builderStart_loopInv (s : State) : LoopInv (leavesOf s.freq) (builderStart s) := by
  refine ⟨?_, ?_, ?_, ?_, ?_, ?_, ?_, ?_, ?_⟩
  · intro n hn
    rw [leavesOf_eq_map] at hn
    obtain ⟨x, -, rfl⟩ := List.mem_map.1 hn
    exact ⟨x, _, rfl⟩
  · simp [builderStart]; omega
  · simp [builderStart]
  · simpa [builderStart] using List.nodup_range
  · intro i hi; simpa [builderStart] using hi
  · intro i hi; simp [builderStart, storeGet_putFrom] at hi ⊢; omega
  · intro i hi hi'; simp [builderStart] at hi hi'; omega
  · intro i hi hi'; simp [builderStart] at hi hi'; omega
  · congr 1
    refine List.ext_getElem (by simp [builderStart]) (fun i h1 h2 => ?_)
    have hi : i < (presentSyms s.freq).length := by simpa [builderStart] using h1
    simp [builderStart, storeGet_putFrom, hi]

/-- The tree BUILD_TREE leaves is the tree of 10_state.md R46 (7) and 42_tree_builder.md R145, when TOTAL and NSYM count
FREQ. -/
theorem builtTree_of_buildWith {choose : Nat → Nat} {s : State} (hc : CountsInv s) {t : Builder}
    (hne : presentSyms s.freq ≠ []) (h : buildWith choose s = some t) :
    BuiltTree (finishBuild t (2 * (presentSyms s.freq).length - 2) s) := by
  have hpos : 0 < (presentSyms s.freq).length := List.length_pos_iff.2 hne
  have hle := length_presentSyms_le s.freq
  have hsum : ((leavesOf s.freq).map fun n => n.nfreq.toNat).sum < 2 ^ 32 := by
    rw [sum_leaves, ← hc.total]; exact s.total.isLt
  obtain ⟨t1, h1, hP, -, -⟩ := mergeLoop_induction (tie := s.cfg.tie) (choose := choose) (k := s.draws)
    (LoopInv (leavesOf s.freq))
    (fun t t' hP hq hm => hP.mergeOnce (by simpa using hle) hsum hq hm)
    (leavesOf s.freq).length (builderStart s) (builderStart_loopInv s) (by simpa [builderStart] using hpos)
    (by simp [builderStart])
  obtain ⟨t2, h2, hpq, hnext⟩ := buildWith_ends choose s hne
  rw [h] at h2; cases h2
  rw [buildWith, h1] at h; cases h
  have hn := hc.nsym
  have hL : (leavesOf s.freq).length = s.nsym := by rw [length_leavesOf, hn]
  refine ⟨?_, ?_, ?_, ?_, ?_, ?_, ?_⟩ <;> simp only [finishBuild]
  · omega
  · omega
  · omega
  · exact hpq
  · intro i hi
    obtain ⟨n, hg⟩ := hP.listed (i := i) (by omega)
    exact ⟨n, hg, by rw [← hP.leaves i (by omega), hg]⟩
  · intro i hi hlt
    obtain ⟨f, l, r, hs, h3, h4, h5, -, -, a, b, ha, hb, hab⟩ := hP.inner i (by omega) hlt
    exact ⟨f, l, r, hs, h3, h4, h5, a, b, ha, hb, hab⟩
  · intro i hi hne'
    exact hP.parent i hi (by rw [hpq]; simpa using hne')

/-- Every node of a built tree is listed: a leaf of a present symbol below NSYM, an internal node with lower children from
NSYM up. -/
theorem BuiltTree.node {s : State} (h : BuiltTree s) {i : Nat} (hi : i < s.nnodes) :
    (i < s.nsym ∧ ∃ x f, storeGet s.nodes i = some (.leaf x f) ∧ (leavesOf s.freq)[i]? = some (.leaf x f)) ∨
      (s.nsym ≤ i ∧ ∃ f l r, storeGet s.nodes i = some (.branch f l r) ∧ l.toNat < i ∧ r.toNat < i) := by
  by_cases hl : i < s.nsym
  · obtain ⟨n, hn, hL⟩ := h.leaves i hl
    have hmem := List.mem_of_getElem? hL
    rw [leavesOf_eq_map] at hmem
    obtain ⟨x, -, rfl⟩ := List.mem_map.1 hmem
    exact .inl ⟨hl, x, _, hn, hL⟩
  · obtain ⟨f, l, r, hs, h1, h2, -⟩ := h.inner i (by omega) hi
    exact .inr ⟨by omega, f, l, r, hs, h1, h2⟩

/-- A path in a built tree reaches a listed node, at least one index lower with every edge (42_tree_builder.md R145). -/
theorem BuiltTree.walk {s : State} (h : BuiltTree s) (k : Nat) (p : BitString) (n : Nat) (hn : n < s.nnodes) {m : Node}
    (hw : walkFrom (nodeAt s.nodes k) n p = some m) :
    ∃ i, i < s.nnodes ∧ i + p.length ≤ n ∧ storeGet s.nodes i = some m := by
  induction p generalizing n with
  | nil =>
    rcases h.node hn with ⟨-, x, f, hs, -⟩ | ⟨-, f, l, r, hs, -⟩ <;>
      exact ⟨n, hn, by simp, by rw [walkFrom] at hw; simpa [nodeAt, hs] using hw⟩
  | cons b p ih =>
    rcases h.node hn with ⟨-, x, f, hs, -⟩ | ⟨-, f, l, r, hs, h1, h2⟩
    · simp [walkFrom, nodeAt, hs] at hw
    · have hnode : nodeAt s.nodes k n = .branch f l r := by simp [nodeAt, hs]
      rw [walkFrom, hnode] at hw
      cases b with
      | true =>
        obtain ⟨i, hi, hp, hm⟩ := ih r.toNat (by omega) (by simpa using hw)
        exact ⟨i, hi, by rw [List.length_cons]; omega, hm⟩
      | false =>
        obtain ⟨i, hi, hp, hm⟩ := ih l.toNat (by omega) (by simpa using hw)
        exact ⟨i, hi, by rw [List.length_cons]; omega, hm⟩

/-- The depth bound of 42_tree_builder.md R145 (d): a path from the root to an internal node has fewer edges than there
are internal nodes. -/
theorem BuiltTree.depth {s : State} (h : BuiltTree s) (k : Nat) (p : BitString) {f : Word} {l r : BitVec 9}
    (hw : walkFrom (nodeAt s.nodes k) s.root p = some (.branch f l r)) : p.length + 2 ≤ s.nsym := by
  have hroot := h.root
  have hcount := h.count
  have hpos := h.nonempty
  obtain ⟨i, hi, hp, hm⟩ := h.walk k p s.root (by omega) hw
  rcases h.node hi with ⟨-, x, g, hs, -⟩ | ⟨hge, -⟩
  · rw [hm] at hs; cases hs
  · omega

/-- The walk of a built tree does not depend on the free values behind unlisted nodes. -/
theorem BuiltTree.walk_eq {s : State} (h : BuiltTree s) (k k' : Nat) (p : BitString) (n : Nat) (hn : n < s.nnodes) :
    walkFrom (nodeAt s.nodes k) n p = walkFrom (nodeAt s.nodes k') n p := by
  have hnode : ∀ i, i < s.nnodes → nodeAt s.nodes k i = nodeAt s.nodes k' i := fun i hi => by
    rcases h.node hi with ⟨-, x, f, hs, -⟩ | ⟨-, f, l, r, hs, -⟩ <;> simp [nodeAt, hs]
  induction p generalizing n with
  | nil => simp [walkFrom, hnode n hn]
  | cons b p ih =>
    simp only [walkFrom, hnode n hn]
    rcases h.node hn with ⟨-, x, f, hs, -⟩ | ⟨-, f, l, r, hs, h1, h2⟩
    · simp [nodeAt, hs]
    · simp only [nodeAt, hs, Option.getD_some]
      cases b <;> exact ih _ (by simp; omega)

end Sys2Proof.Machine
end

