-- ==== Sys2Proof/Laws/State.lean ====
section
/-! SUPPORT. One lemma per field per update of the state, true by rfl: no later proof unfolds an update. -/

namespace Sys2Proof.Machine

/-! ## startStream -/

@[simp] theorem startStream_data (s : State) : (startStream s).data = s.data := rfl
@[simp] theorem startStream_resp (s : State) : (startStream s).resp = s.resp := rfl
@[simp] theorem startStream_busy (s : State) : (startStream s).busy = s.busy := rfl
@[simp] theorem startStream_treeValid (s : State) : (startStream s).treeValid = s.treeValid := rfl
@[simp] theorem startStream_codesValid (s : State) : (startStream s).codesValid = s.codesValid := rfl
@[simp] theorem startStream_encActive (s : State) : (startStream s).encActive = true := rfl
@[simp] theorem startStream_outValid (s : State) : (startStream s).outValid = false := rfl
@[simp] theorem startStream_outKind (s : State) : (startStream s).outKind = s.outKind := rfl
@[simp] theorem startStream_err (s : State) : (startStream s).err = s.err := rfl
@[simp] theorem startStream_errOpc (s : State) : (startStream s).errOpc = s.errOpc := rfl
@[simp] theorem startStream_total (s : State) : (startStream s).total = s.total := rfl
@[simp] theorem startStream_nsym (s : State) : (startStream s).nsym = s.nsym := rfl
@[simp] theorem startStream_encBits (s : State) : (startStream s).encBits = 0 := rfl
@[simp] theorem startStream_pad (s : State) : (startStream s).pad = s.pad := rfl
@[simp] theorem startStream_inLen (s : State) : (startStream s).inLen = s.inLen := rfl
@[simp] theorem startStream_outLen (s : State) : (startStream s).outLen = 0 := rfl
@[simp] theorem startStream_pending (s : State) : (startStream s).pending = s.pending := rfl
@[simp] theorem startStream_pendingData (s : State) : (startStream s).pendingData = s.pendingData := rfl
@[simp] theorem startStream_freq (s : State) : (startStream s).freq = s.freq := rfl
@[simp] theorem startStream_nodes (s : State) : (startStream s).nodes = s.nodes := rfl
@[simp] theorem startStream_nnodes (s : State) : (startStream s).nnodes = s.nnodes := rfl
@[simp] theorem startStream_root (s : State) : (startStream s).root = s.root := rfl
@[simp] theorem startStream_pq (s : State) : (startStream s).pq = s.pq := rfl
@[simp] theorem startStream_codeLen (s : State) : (startStream s).codeLen = s.codeLen := rfl
@[simp] theorem startStream_codeVal (s : State) : (startStream s).codeVal = s.codeVal := rfl
@[simp] theorem startStream_codeStage (s : State) : (startStream s).codeStage = s.codeStage := rfl
@[simp] theorem startStream_encStream (s : State) : (startStream s).encStream = [] := rfl
@[simp] theorem startStream_inMem (s : State) : (startStream s).inMem = s.inMem := rfl
@[simp] theorem startStream_outMem (s : State) : (startStream s).outMem = s.outMem := rfl
@[simp] theorem startStream_cfg (s : State) : (startStream s).cfg = s.cfg := rfl
@[simp] theorem startStream_phase (s : State) : (startStream s).phase = s.phase := rfl
@[simp] theorem startStream_turns (s : State) : (startStream s).turns = s.turns := rfl
@[simp] theorem startStream_host (s : State) : (startStream s).host = s.host := rfl
@[simp] theorem startStream_draws (s : State) : (startStream s).draws = s.draws := rfl

/-! ## encodeAbort -/

@[simp] theorem encodeAbort_data (s : State) : (encodeAbort s).data = s.data := rfl
@[simp] theorem encodeAbort_resp (s : State) : (encodeAbort s).resp = s.resp := rfl
@[simp] theorem encodeAbort_busy (s : State) : (encodeAbort s).busy = s.busy := rfl
@[simp] theorem encodeAbort_treeValid (s : State) : (encodeAbort s).treeValid = s.treeValid := rfl
@[simp] theorem encodeAbort_codesValid (s : State) : (encodeAbort s).codesValid = s.codesValid := rfl
@[simp] theorem encodeAbort_encActive (s : State) : (encodeAbort s).encActive = false := rfl
@[simp] theorem encodeAbort_outValid (s : State) : (encodeAbort s).outValid = false := rfl
@[simp] theorem encodeAbort_outKind (s : State) : (encodeAbort s).outKind = s.outKind := rfl
@[simp] theorem encodeAbort_err (s : State) : (encodeAbort s).err = s.err := rfl
@[simp] theorem encodeAbort_errOpc (s : State) : (encodeAbort s).errOpc = s.errOpc := rfl
@[simp] theorem encodeAbort_total (s : State) : (encodeAbort s).total = s.total := rfl
@[simp] theorem encodeAbort_nsym (s : State) : (encodeAbort s).nsym = s.nsym := rfl
@[simp] theorem encodeAbort_encBits (s : State) : (encodeAbort s).encBits = 0 := rfl
@[simp] theorem encodeAbort_pad (s : State) : (encodeAbort s).pad = s.pad := rfl
@[simp] theorem encodeAbort_inLen (s : State) : (encodeAbort s).inLen = s.inLen := rfl
@[simp] theorem encodeAbort_outLen (s : State) : (encodeAbort s).outLen = 0 := rfl
@[simp] theorem encodeAbort_pending (s : State) : (encodeAbort s).pending = s.pending := rfl
@[simp] theorem encodeAbort_pendingData (s : State) : (encodeAbort s).pendingData = s.pendingData := rfl
@[simp] theorem encodeAbort_freq (s : State) : (encodeAbort s).freq = s.freq := rfl
@[simp] theorem encodeAbort_nodes (s : State) : (encodeAbort s).nodes = s.nodes := rfl
@[simp] theorem encodeAbort_nnodes (s : State) : (encodeAbort s).nnodes = s.nnodes := rfl
@[simp] theorem encodeAbort_root (s : State) : (encodeAbort s).root = s.root := rfl
@[simp] theorem encodeAbort_pq (s : State) : (encodeAbort s).pq = s.pq := rfl
@[simp] theorem encodeAbort_codeLen (s : State) : (encodeAbort s).codeLen = s.codeLen := rfl
@[simp] theorem encodeAbort_codeVal (s : State) : (encodeAbort s).codeVal = s.codeVal := rfl
@[simp] theorem encodeAbort_codeStage (s : State) : (encodeAbort s).codeStage = s.codeStage := rfl
@[simp] theorem encodeAbort_encStream (s : State) : (encodeAbort s).encStream = [] := rfl
@[simp] theorem encodeAbort_inMem (s : State) : (encodeAbort s).inMem = s.inMem := rfl
@[simp] theorem encodeAbort_outMem (s : State) : (encodeAbort s).outMem = s.outMem := rfl
@[simp] theorem encodeAbort_cfg (s : State) : (encodeAbort s).cfg = s.cfg := rfl
@[simp] theorem encodeAbort_phase (s : State) : (encodeAbort s).phase = s.phase := rfl
@[simp] theorem encodeAbort_turns (s : State) : (encodeAbort s).turns = s.turns := rfl
@[simp] theorem encodeAbort_host (s : State) : (encodeAbort s).host = s.host := rfl
@[simp] theorem encodeAbort_draws (s : State) : (encodeAbort s).draws = s.draws := rfl

/-! ## decodeAbort -/

@[simp] theorem decodeAbort_data (s : State) : (decodeAbort s).data = s.data := rfl
@[simp] theorem decodeAbort_resp (s : State) : (decodeAbort s).resp = s.resp := rfl
@[simp] theorem decodeAbort_busy (s : State) : (decodeAbort s).busy = s.busy := rfl
@[simp] theorem decodeAbort_treeValid (s : State) : (decodeAbort s).treeValid = s.treeValid := rfl
@[simp] theorem decodeAbort_codesValid (s : State) : (decodeAbort s).codesValid = s.codesValid := rfl
@[simp] theorem decodeAbort_encActive (s : State) : (decodeAbort s).encActive = s.encActive := rfl
@[simp] theorem decodeAbort_outValid (s : State) : (decodeAbort s).outValid = false := rfl
@[simp] theorem decodeAbort_outKind (s : State) : (decodeAbort s).outKind = s.outKind := rfl
@[simp] theorem decodeAbort_err (s : State) : (decodeAbort s).err = s.err := rfl
@[simp] theorem decodeAbort_errOpc (s : State) : (decodeAbort s).errOpc = s.errOpc := rfl
@[simp] theorem decodeAbort_total (s : State) : (decodeAbort s).total = s.total := rfl
@[simp] theorem decodeAbort_nsym (s : State) : (decodeAbort s).nsym = s.nsym := rfl
@[simp] theorem decodeAbort_encBits (s : State) : (decodeAbort s).encBits = s.encBits := rfl
@[simp] theorem decodeAbort_pad (s : State) : (decodeAbort s).pad = s.pad := rfl
@[simp] theorem decodeAbort_inLen (s : State) : (decodeAbort s).inLen = s.inLen := rfl
@[simp] theorem decodeAbort_outLen (s : State) : (decodeAbort s).outLen = 0 := rfl
@[simp] theorem decodeAbort_pending (s : State) : (decodeAbort s).pending = s.pending := rfl
@[simp] theorem decodeAbort_pendingData (s : State) : (decodeAbort s).pendingData = s.pendingData := rfl
@[simp] theorem decodeAbort_freq (s : State) : (decodeAbort s).freq = s.freq := rfl
@[simp] theorem decodeAbort_nodes (s : State) : (decodeAbort s).nodes = s.nodes := rfl
@[simp] theorem decodeAbort_nnodes (s : State) : (decodeAbort s).nnodes = s.nnodes := rfl
@[simp] theorem decodeAbort_root (s : State) : (decodeAbort s).root = s.root := rfl
@[simp] theorem decodeAbort_pq (s : State) : (decodeAbort s).pq = s.pq := rfl
@[simp] theorem decodeAbort_codeLen (s : State) : (decodeAbort s).codeLen = s.codeLen := rfl
@[simp] theorem decodeAbort_codeVal (s : State) : (decodeAbort s).codeVal = s.codeVal := rfl
@[simp] theorem decodeAbort_codeStage (s : State) : (decodeAbort s).codeStage = s.codeStage := rfl
@[simp] theorem decodeAbort_encStream (s : State) : (decodeAbort s).encStream = s.encStream := rfl
@[simp] theorem decodeAbort_inMem (s : State) : (decodeAbort s).inMem = s.inMem := rfl
@[simp] theorem decodeAbort_outMem (s : State) : (decodeAbort s).outMem = [] := rfl
@[simp] theorem decodeAbort_cfg (s : State) : (decodeAbort s).cfg = s.cfg := rfl
@[simp] theorem decodeAbort_phase (s : State) : (decodeAbort s).phase = s.phase := rfl
@[simp] theorem decodeAbort_turns (s : State) : (decodeAbort s).turns = s.turns := rfl
@[simp] theorem decodeAbort_host (s : State) : (decodeAbort s).host = s.host := rfl
@[simp] theorem decodeAbort_draws (s : State) : (decodeAbort s).draws = s.draws := rfl

/-! ## leaveErr -/

@[simp] theorem leaveErr_data (s : State) : (leaveErr s).data = s.data := rfl
@[simp] theorem leaveErr_resp (s : State) : (leaveErr s).resp = s.resp := rfl
@[simp] theorem leaveErr_busy (s : State) : (leaveErr s).busy = s.busy := rfl
@[simp] theorem leaveErr_treeValid (s : State) : (leaveErr s).treeValid = s.treeValid := rfl
@[simp] theorem leaveErr_codesValid (s : State) : (leaveErr s).codesValid = s.codesValid := rfl
@[simp] theorem leaveErr_encActive (s : State) : (leaveErr s).encActive = s.encActive := rfl
@[simp] theorem leaveErr_outValid (s : State) : (leaveErr s).outValid = s.outValid := rfl
@[simp] theorem leaveErr_outKind (s : State) : (leaveErr s).outKind = s.outKind := rfl
@[simp] theorem leaveErr_err (s : State) : (leaveErr s).err = 0 := rfl
@[simp] theorem leaveErr_errOpc (s : State) : (leaveErr s).errOpc = 0 := rfl
@[simp] theorem leaveErr_total (s : State) : (leaveErr s).total = s.total := rfl
@[simp] theorem leaveErr_nsym (s : State) : (leaveErr s).nsym = s.nsym := rfl
@[simp] theorem leaveErr_encBits (s : State) : (leaveErr s).encBits = s.encBits := rfl
@[simp] theorem leaveErr_pad (s : State) : (leaveErr s).pad = s.pad := rfl
@[simp] theorem leaveErr_inLen (s : State) : (leaveErr s).inLen = s.inLen := rfl
@[simp] theorem leaveErr_outLen (s : State) : (leaveErr s).outLen = s.outLen := rfl
@[simp] theorem leaveErr_pending (s : State) : (leaveErr s).pending = s.pending := rfl
@[simp] theorem leaveErr_pendingData (s : State) : (leaveErr s).pendingData = s.pendingData := rfl
@[simp] theorem leaveErr_freq (s : State) : (leaveErr s).freq = s.freq := rfl
@[simp] theorem leaveErr_nodes (s : State) : (leaveErr s).nodes = s.nodes := rfl
@[simp] theorem leaveErr_nnodes (s : State) : (leaveErr s).nnodes = s.nnodes := rfl
@[simp] theorem leaveErr_root (s : State) : (leaveErr s).root = s.root := rfl
@[simp] theorem leaveErr_pq (s : State) : (leaveErr s).pq = s.pq := rfl
@[simp] theorem leaveErr_codeLen (s : State) : (leaveErr s).codeLen = s.codeLen := rfl
@[simp] theorem leaveErr_codeVal (s : State) : (leaveErr s).codeVal = s.codeVal := rfl
@[simp] theorem leaveErr_codeStage (s : State) : (leaveErr s).codeStage = s.codeStage := rfl
@[simp] theorem leaveErr_encStream (s : State) : (leaveErr s).encStream = s.encStream := rfl
@[simp] theorem leaveErr_inMem (s : State) : (leaveErr s).inMem = s.inMem := rfl
@[simp] theorem leaveErr_outMem (s : State) : (leaveErr s).outMem = s.outMem := rfl
@[simp] theorem leaveErr_cfg (s : State) : (leaveErr s).cfg = s.cfg := rfl
@[simp] theorem leaveErr_phase (s : State) : (leaveErr s).phase = s.phase := rfl
@[simp] theorem leaveErr_turns (s : State) : (leaveErr s).turns = s.turns := rfl
@[simp] theorem leaveErr_host (s : State) : (leaveErr s).host = s.host := rfl
@[simp] theorem leaveErr_draws (s : State) : (leaveErr s).draws = s.draws := rfl

/-! ## resetCore -/

@[simp] theorem resetCore_data (s : State) : (resetCore s).data = 0 := rfl
@[simp] theorem resetCore_resp (s : State) : (resetCore s).resp = 0 := rfl
@[simp] theorem resetCore_busy (s : State) : (resetCore s).busy = false := rfl
@[simp] theorem resetCore_treeValid (s : State) : (resetCore s).treeValid = false := rfl
@[simp] theorem resetCore_codesValid (s : State) : (resetCore s).codesValid = false := rfl
@[simp] theorem resetCore_encActive (s : State) : (resetCore s).encActive = false := rfl
@[simp] theorem resetCore_outValid (s : State) : (resetCore s).outValid = false := rfl
@[simp] theorem resetCore_outKind (s : State) : (resetCore s).outKind = false := rfl
@[simp] theorem resetCore_err (s : State) : (resetCore s).err = 0 := rfl
@[simp] theorem resetCore_errOpc (s : State) : (resetCore s).errOpc = 0 := rfl
@[simp] theorem resetCore_total (s : State) : (resetCore s).total = 0 := rfl
@[simp] theorem resetCore_nsym (s : State) : (resetCore s).nsym = 0 := rfl
@[simp] theorem resetCore_encBits (s : State) : (resetCore s).encBits = 0 := rfl
@[simp] theorem resetCore_pad (s : State) : (resetCore s).pad = 0 := rfl
@[simp] theorem resetCore_inLen (s : State) : (resetCore s).inLen = 0 := rfl
@[simp] theorem resetCore_outLen (s : State) : (resetCore s).outLen = 0 := rfl
@[simp] theorem resetCore_pending (s : State) : (resetCore s).pending = Config.freeWord s.draws := rfl
@[simp] theorem resetCore_pendingData (s : State) : (resetCore s).pendingData = Config.freeWord (s.draws + 1) := rfl
@[simp] theorem resetCore_freq (s : State) : (resetCore s).freq = Vector.replicate 256 0 := rfl
@[simp] theorem resetCore_nodes (s : State) : (resetCore s).nodes = [] := rfl
@[simp] theorem resetCore_nnodes (s : State) : (resetCore s).nnodes = 0 := rfl
@[simp] theorem resetCore_root (s : State) : (resetCore s).root = Config.freeIndex s.draws % Config.maxNodes := rfl
@[simp] theorem resetCore_pq (s : State) : (resetCore s).pq = [] := rfl
@[simp] theorem resetCore_codeLen (s : State) : (resetCore s).codeLen = Vector.replicate 256 0 := rfl
@[simp] theorem resetCore_codeVal (s : State) : (resetCore s).codeVal = Vector.replicate 256 0 := rfl
@[simp] theorem resetCore_codeStage (s : State) : (resetCore s).codeStage = Vector.replicate 8 0 := rfl
@[simp] theorem resetCore_encStream (s : State) : (resetCore s).encStream = [] := rfl
@[simp] theorem resetCore_inMem (s : State) : (resetCore s).inMem = [] := rfl
@[simp] theorem resetCore_outMem (s : State) : (resetCore s).outMem = [] := rfl
@[simp] theorem resetCore_cfg (s : State) : (resetCore s).cfg = s.cfg := rfl
@[simp] theorem resetCore_phase (s : State) : (resetCore s).phase = .running := rfl
@[simp] theorem resetCore_turns (s : State) : (resetCore s).turns = s.turns := rfl
@[simp] theorem resetCore_host (s : State) : (resetCore s).host = s.host := rfl
@[simp] theorem resetCore_draws (s : State) : (resetCore s).draws = s.draws + 2 := rfl

/-! ## writeIn -/

@[simp] theorem writeIn_data (s : State) (a : Nat) (v : Byte) : (writeIn s a v).data = s.data := rfl
@[simp] theorem writeIn_resp (s : State) (a : Nat) (v : Byte) : (writeIn s a v).resp = s.resp := rfl
@[simp] theorem writeIn_busy (s : State) (a : Nat) (v : Byte) : (writeIn s a v).busy = s.busy := rfl
@[simp] theorem writeIn_treeValid (s : State) (a : Nat) (v : Byte) : (writeIn s a v).treeValid = s.treeValid := rfl
@[simp] theorem writeIn_codesValid (s : State) (a : Nat) (v : Byte) : (writeIn s a v).codesValid = s.codesValid := rfl
@[simp] theorem writeIn_encActive (s : State) (a : Nat) (v : Byte) : (writeIn s a v).encActive = s.encActive := rfl
@[simp] theorem writeIn_outValid (s : State) (a : Nat) (v : Byte) : (writeIn s a v).outValid = s.outValid := rfl
@[simp] theorem writeIn_outKind (s : State) (a : Nat) (v : Byte) : (writeIn s a v).outKind = s.outKind := rfl
@[simp] theorem writeIn_err (s : State) (a : Nat) (v : Byte) : (writeIn s a v).err = s.err := rfl
@[simp] theorem writeIn_errOpc (s : State) (a : Nat) (v : Byte) : (writeIn s a v).errOpc = s.errOpc := rfl
@[simp] theorem writeIn_total (s : State) (a : Nat) (v : Byte) : (writeIn s a v).total = s.total := rfl
@[simp] theorem writeIn_nsym (s : State) (a : Nat) (v : Byte) : (writeIn s a v).nsym = s.nsym := rfl
@[simp] theorem writeIn_encBits (s : State) (a : Nat) (v : Byte) : (writeIn s a v).encBits = s.encBits := rfl
@[simp] theorem writeIn_pad (s : State) (a : Nat) (v : Byte) : (writeIn s a v).pad = s.pad := rfl
@[simp] theorem writeIn_inLen (s : State) (a : Nat) (v : Byte) : (writeIn s a v).inLen = s.inLen := rfl
@[simp] theorem writeIn_outLen (s : State) (a : Nat) (v : Byte) : (writeIn s a v).outLen = s.outLen := rfl
@[simp] theorem writeIn_pending (s : State) (a : Nat) (v : Byte) : (writeIn s a v).pending = s.pending := rfl
@[simp] theorem writeIn_pendingData (s : State) (a : Nat) (v : Byte) : (writeIn s a v).pendingData = s.pendingData := rfl
@[simp] theorem writeIn_freq (s : State) (a : Nat) (v : Byte) : (writeIn s a v).freq = s.freq := rfl
@[simp] theorem writeIn_nodes (s : State) (a : Nat) (v : Byte) : (writeIn s a v).nodes = s.nodes := rfl
@[simp] theorem writeIn_nnodes (s : State) (a : Nat) (v : Byte) : (writeIn s a v).nnodes = s.nnodes := rfl
@[simp] theorem writeIn_root (s : State) (a : Nat) (v : Byte) : (writeIn s a v).root = s.root := rfl
@[simp] theorem writeIn_pq (s : State) (a : Nat) (v : Byte) : (writeIn s a v).pq = s.pq := rfl
@[simp] theorem writeIn_codeLen (s : State) (a : Nat) (v : Byte) : (writeIn s a v).codeLen = s.codeLen := rfl
@[simp] theorem writeIn_codeVal (s : State) (a : Nat) (v : Byte) : (writeIn s a v).codeVal = s.codeVal := rfl
@[simp] theorem writeIn_codeStage (s : State) (a : Nat) (v : Byte) : (writeIn s a v).codeStage = s.codeStage := rfl
@[simp] theorem writeIn_encStream (s : State) (a : Nat) (v : Byte) : (writeIn s a v).encStream = s.encStream := rfl
@[simp] theorem writeIn_inMem (s : State) (a : Nat) (v : Byte) : (writeIn s a v).inMem = storePut s.inMem a v := rfl
@[simp] theorem writeIn_outMem (s : State) (a : Nat) (v : Byte) : (writeIn s a v).outMem = s.outMem := rfl
@[simp] theorem writeIn_cfg (s : State) (a : Nat) (v : Byte) : (writeIn s a v).cfg = s.cfg := rfl
@[simp] theorem writeIn_phase (s : State) (a : Nat) (v : Byte) : (writeIn s a v).phase = s.phase := rfl
@[simp] theorem writeIn_turns (s : State) (a : Nat) (v : Byte) : (writeIn s a v).turns = s.turns := rfl
@[simp] theorem writeIn_host (s : State) (a : Nat) (v : Byte) : (writeIn s a v).host = s.host := rfl
@[simp] theorem writeIn_draws (s : State) (a : Nat) (v : Byte) : (writeIn s a v).draws = s.draws := rfl

/-! ## writeOutBytes -/

@[simp] theorem writeOutBytes_data (s : State) (vs : List Byte) : (writeOutBytes s vs).data = s.data := rfl
@[simp] theorem writeOutBytes_resp (s : State) (vs : List Byte) : (writeOutBytes s vs).resp = s.resp := rfl
@[simp] theorem writeOutBytes_busy (s : State) (vs : List Byte) : (writeOutBytes s vs).busy = s.busy := rfl
@[simp] theorem writeOutBytes_treeValid (s : State) (vs : List Byte) : (writeOutBytes s vs).treeValid = s.treeValid := rfl
@[simp] theorem writeOutBytes_codesValid (s : State) (vs : List Byte) : (writeOutBytes s vs).codesValid = s.codesValid := rfl
@[simp] theorem writeOutBytes_encActive (s : State) (vs : List Byte) : (writeOutBytes s vs).encActive = s.encActive := rfl
@[simp] theorem writeOutBytes_outValid (s : State) (vs : List Byte) : (writeOutBytes s vs).outValid = s.outValid := rfl
@[simp] theorem writeOutBytes_outKind (s : State) (vs : List Byte) : (writeOutBytes s vs).outKind = s.outKind := rfl
@[simp] theorem writeOutBytes_err (s : State) (vs : List Byte) : (writeOutBytes s vs).err = s.err := rfl
@[simp] theorem writeOutBytes_errOpc (s : State) (vs : List Byte) : (writeOutBytes s vs).errOpc = s.errOpc := rfl
@[simp] theorem writeOutBytes_total (s : State) (vs : List Byte) : (writeOutBytes s vs).total = s.total := rfl
@[simp] theorem writeOutBytes_nsym (s : State) (vs : List Byte) : (writeOutBytes s vs).nsym = s.nsym := rfl
@[simp] theorem writeOutBytes_encBits (s : State) (vs : List Byte) : (writeOutBytes s vs).encBits = s.encBits := rfl
@[simp] theorem writeOutBytes_pad (s : State) (vs : List Byte) : (writeOutBytes s vs).pad = s.pad := rfl
@[simp] theorem writeOutBytes_inLen (s : State) (vs : List Byte) : (writeOutBytes s vs).inLen = s.inLen := rfl
@[simp] theorem writeOutBytes_outLen (s : State) (vs : List Byte) : (writeOutBytes s vs).outLen = s.outLen := rfl
@[simp] theorem writeOutBytes_pending (s : State) (vs : List Byte) : (writeOutBytes s vs).pending = s.pending := rfl
@[simp] theorem writeOutBytes_pendingData (s : State) (vs : List Byte) : (writeOutBytes s vs).pendingData = s.pendingData := rfl
@[simp] theorem writeOutBytes_freq (s : State) (vs : List Byte) : (writeOutBytes s vs).freq = s.freq := rfl
@[simp] theorem writeOutBytes_nodes (s : State) (vs : List Byte) : (writeOutBytes s vs).nodes = s.nodes := rfl
@[simp] theorem writeOutBytes_nnodes (s : State) (vs : List Byte) : (writeOutBytes s vs).nnodes = s.nnodes := rfl
@[simp] theorem writeOutBytes_root (s : State) (vs : List Byte) : (writeOutBytes s vs).root = s.root := rfl
@[simp] theorem writeOutBytes_pq (s : State) (vs : List Byte) : (writeOutBytes s vs).pq = s.pq := rfl
@[simp] theorem writeOutBytes_codeLen (s : State) (vs : List Byte) : (writeOutBytes s vs).codeLen = s.codeLen := rfl
@[simp] theorem writeOutBytes_codeVal (s : State) (vs : List Byte) : (writeOutBytes s vs).codeVal = s.codeVal := rfl
@[simp] theorem writeOutBytes_codeStage (s : State) (vs : List Byte) : (writeOutBytes s vs).codeStage = s.codeStage := rfl
@[simp] theorem writeOutBytes_encStream (s : State) (vs : List Byte) : (writeOutBytes s vs).encStream = s.encStream := rfl
@[simp] theorem writeOutBytes_inMem (s : State) (vs : List Byte) : (writeOutBytes s vs).inMem = s.inMem := rfl
@[simp] theorem writeOutBytes_outMem (s : State) (vs : List Byte) : (writeOutBytes s vs).outMem = storePutFrom s.outMem 0 vs := rfl
@[simp] theorem writeOutBytes_cfg (s : State) (vs : List Byte) : (writeOutBytes s vs).cfg = s.cfg := rfl
@[simp] theorem writeOutBytes_phase (s : State) (vs : List Byte) : (writeOutBytes s vs).phase = s.phase := rfl
@[simp] theorem writeOutBytes_turns (s : State) (vs : List Byte) : (writeOutBytes s vs).turns = s.turns := rfl
@[simp] theorem writeOutBytes_host (s : State) (vs : List Byte) : (writeOutBytes s vs).host = s.host := rfl
@[simp] theorem writeOutBytes_draws (s : State) (vs : List Byte) : (writeOutBytes s vs).draws = s.draws := rfl

/-! ## countSym -/

@[simp] theorem countSym_data (x : Sym) (s : State) : (countSym x s).data = s.data := rfl
@[simp] theorem countSym_resp (x : Sym) (s : State) : (countSym x s).resp = s.resp := rfl
@[simp] theorem countSym_busy (x : Sym) (s : State) : (countSym x s).busy = s.busy := rfl
@[simp] theorem countSym_treeValid (x : Sym) (s : State) : (countSym x s).treeValid = s.treeValid := rfl
@[simp] theorem countSym_codesValid (x : Sym) (s : State) : (countSym x s).codesValid = s.codesValid := rfl
@[simp] theorem countSym_encActive (x : Sym) (s : State) : (countSym x s).encActive = s.encActive := rfl
@[simp] theorem countSym_outValid (x : Sym) (s : State) : (countSym x s).outValid = s.outValid := rfl
@[simp] theorem countSym_outKind (x : Sym) (s : State) : (countSym x s).outKind = s.outKind := rfl
@[simp] theorem countSym_err (x : Sym) (s : State) : (countSym x s).err = s.err := rfl
@[simp] theorem countSym_errOpc (x : Sym) (s : State) : (countSym x s).errOpc = s.errOpc := rfl
@[simp] theorem countSym_total (x : Sym) (s : State) : (countSym x s).total = s.total + 1 := rfl
@[simp] theorem countSym_nsym (x : Sym) (s : State) : (countSym x s).nsym = if symGet s.freq x = 0 then s.nsym + 1 else s.nsym := rfl
@[simp] theorem countSym_encBits (x : Sym) (s : State) : (countSym x s).encBits = s.encBits := rfl
@[simp] theorem countSym_pad (x : Sym) (s : State) : (countSym x s).pad = s.pad := rfl
@[simp] theorem countSym_inLen (x : Sym) (s : State) : (countSym x s).inLen = s.inLen := rfl
@[simp] theorem countSym_outLen (x : Sym) (s : State) : (countSym x s).outLen = s.outLen := rfl
@[simp] theorem countSym_pending (x : Sym) (s : State) : (countSym x s).pending = s.pending := rfl
@[simp] theorem countSym_pendingData (x : Sym) (s : State) : (countSym x s).pendingData = s.pendingData := rfl
@[simp] theorem countSym_freq (x : Sym) (s : State) : (countSym x s).freq = symSet s.freq x (symGet s.freq x + 1) := rfl
@[simp] theorem countSym_nodes (x : Sym) (s : State) : (countSym x s).nodes = s.nodes := rfl
@[simp] theorem countSym_nnodes (x : Sym) (s : State) : (countSym x s).nnodes = s.nnodes := rfl
@[simp] theorem countSym_root (x : Sym) (s : State) : (countSym x s).root = s.root := rfl
@[simp] theorem countSym_pq (x : Sym) (s : State) : (countSym x s).pq = s.pq := rfl
@[simp] theorem countSym_codeLen (x : Sym) (s : State) : (countSym x s).codeLen = s.codeLen := rfl
@[simp] theorem countSym_codeVal (x : Sym) (s : State) : (countSym x s).codeVal = s.codeVal := rfl
@[simp] theorem countSym_codeStage (x : Sym) (s : State) : (countSym x s).codeStage = s.codeStage := rfl
@[simp] theorem countSym_encStream (x : Sym) (s : State) : (countSym x s).encStream = s.encStream := rfl
@[simp] theorem countSym_inMem (x : Sym) (s : State) : (countSym x s).inMem = s.inMem := rfl
@[simp] theorem countSym_outMem (x : Sym) (s : State) : (countSym x s).outMem = s.outMem := rfl
@[simp] theorem countSym_cfg (x : Sym) (s : State) : (countSym x s).cfg = s.cfg := rfl
@[simp] theorem countSym_phase (x : Sym) (s : State) : (countSym x s).phase = s.phase := rfl
@[simp] theorem countSym_turns (x : Sym) (s : State) : (countSym x s).turns = s.turns := rfl
@[simp] theorem countSym_host (x : Sym) (s : State) : (countSym x s).host = s.host := rfl
@[simp] theorem countSym_draws (x : Sym) (s : State) : (countSym x s).draws = s.draws := rfl

/-! ## finishBuild -/

@[simp] theorem finishBuild_data (t : Builder) (n : Nat) (s : State) : (finishBuild t n s).data = s.data := rfl
@[simp] theorem finishBuild_resp (t : Builder) (n : Nat) (s : State) : (finishBuild t n s).resp = s.resp := rfl
@[simp] theorem finishBuild_busy (t : Builder) (n : Nat) (s : State) : (finishBuild t n s).busy = s.busy := rfl
@[simp] theorem finishBuild_treeValid (t : Builder) (n : Nat) (s : State) : (finishBuild t n s).treeValid = true := rfl
@[simp] theorem finishBuild_codesValid (t : Builder) (n : Nat) (s : State) : (finishBuild t n s).codesValid = s.codesValid := rfl
@[simp] theorem finishBuild_encActive (t : Builder) (n : Nat) (s : State) : (finishBuild t n s).encActive = s.encActive := rfl
@[simp] theorem finishBuild_outValid (t : Builder) (n : Nat) (s : State) : (finishBuild t n s).outValid = s.outValid := rfl
@[simp] theorem finishBuild_outKind (t : Builder) (n : Nat) (s : State) : (finishBuild t n s).outKind = s.outKind := rfl
@[simp] theorem finishBuild_err (t : Builder) (n : Nat) (s : State) : (finishBuild t n s).err = s.err := rfl
@[simp] theorem finishBuild_errOpc (t : Builder) (n : Nat) (s : State) : (finishBuild t n s).errOpc = s.errOpc := rfl
@[simp] theorem finishBuild_total (t : Builder) (n : Nat) (s : State) : (finishBuild t n s).total = s.total := rfl
@[simp] theorem finishBuild_nsym (t : Builder) (n : Nat) (s : State) : (finishBuild t n s).nsym = s.nsym := rfl
@[simp] theorem finishBuild_encBits (t : Builder) (n : Nat) (s : State) : (finishBuild t n s).encBits = s.encBits := rfl
@[simp] theorem finishBuild_pad (t : Builder) (n : Nat) (s : State) : (finishBuild t n s).pad = s.pad := rfl
@[simp] theorem finishBuild_inLen (t : Builder) (n : Nat) (s : State) : (finishBuild t n s).inLen = s.inLen := rfl
@[simp] theorem finishBuild_outLen (t : Builder) (n : Nat) (s : State) : (finishBuild t n s).outLen = s.outLen := rfl
@[simp] theorem finishBuild_pending (t : Builder) (n : Nat) (s : State) : (finishBuild t n s).pending = s.pending := rfl
@[simp] theorem finishBuild_pendingData (t : Builder) (n : Nat) (s : State) : (finishBuild t n s).pendingData = s.pendingData := rfl
@[simp] theorem finishBuild_freq (t : Builder) (n : Nat) (s : State) : (finishBuild t n s).freq = s.freq := rfl
@[simp] theorem finishBuild_nodes (t : Builder) (n : Nat) (s : State) : (finishBuild t n s).nodes = t.nodes := rfl
@[simp] theorem finishBuild_nnodes (t : Builder) (n : Nat) (s : State) : (finishBuild t n s).nnodes = t.next := rfl
@[simp] theorem finishBuild_root (t : Builder) (n : Nat) (s : State) : (finishBuild t n s).root = n := rfl
@[simp] theorem finishBuild_pq (t : Builder) (n : Nat) (s : State) : (finishBuild t n s).pq = t.pq := rfl
@[simp] theorem finishBuild_codeLen (t : Builder) (n : Nat) (s : State) : (finishBuild t n s).codeLen = s.codeLen := rfl
@[simp] theorem finishBuild_codeVal (t : Builder) (n : Nat) (s : State) : (finishBuild t n s).codeVal = s.codeVal := rfl
@[simp] theorem finishBuild_codeStage (t : Builder) (n : Nat) (s : State) : (finishBuild t n s).codeStage = s.codeStage := rfl
@[simp] theorem finishBuild_encStream (t : Builder) (n : Nat) (s : State) : (finishBuild t n s).encStream = s.encStream := rfl
@[simp] theorem finishBuild_inMem (t : Builder) (n : Nat) (s : State) : (finishBuild t n s).inMem = s.inMem := rfl
@[simp] theorem finishBuild_outMem (t : Builder) (n : Nat) (s : State) : (finishBuild t n s).outMem = s.outMem := rfl
@[simp] theorem finishBuild_cfg (t : Builder) (n : Nat) (s : State) : (finishBuild t n s).cfg = s.cfg := rfl
@[simp] theorem finishBuild_phase (t : Builder) (n : Nat) (s : State) : (finishBuild t n s).phase = s.phase := rfl
@[simp] theorem finishBuild_turns (t : Builder) (n : Nat) (s : State) : (finishBuild t n s).turns = s.turns := rfl
@[simp] theorem finishBuild_host (t : Builder) (n : Nat) (s : State) : (finishBuild t n s).host = s.host := rfl
@[simp] theorem finishBuild_draws (t : Builder) (n : Nat) (s : State) : (finishBuild t n s).draws = t.draw := rfl

/-! ## loadTable -/

@[simp] theorem loadTable_data (t : CodeTable) (s : State) : (loadTable t s).data = s.data := rfl
@[simp] theorem loadTable_resp (t : CodeTable) (s : State) : (loadTable t s).resp = s.resp := rfl
@[simp] theorem loadTable_busy (t : CodeTable) (s : State) : (loadTable t s).busy = s.busy := rfl
@[simp] theorem loadTable_treeValid (t : CodeTable) (s : State) : (loadTable t s).treeValid = s.treeValid := rfl
@[simp] theorem loadTable_codesValid (t : CodeTable) (s : State) : (loadTable t s).codesValid = true := rfl
@[simp] theorem loadTable_encActive (t : CodeTable) (s : State) : (loadTable t s).encActive = s.encActive := rfl
@[simp] theorem loadTable_outValid (t : CodeTable) (s : State) : (loadTable t s).outValid = s.outValid := rfl
@[simp] theorem loadTable_outKind (t : CodeTable) (s : State) : (loadTable t s).outKind = s.outKind := rfl
@[simp] theorem loadTable_err (t : CodeTable) (s : State) : (loadTable t s).err = s.err := rfl
@[simp] theorem loadTable_errOpc (t : CodeTable) (s : State) : (loadTable t s).errOpc = s.errOpc := rfl
@[simp] theorem loadTable_total (t : CodeTable) (s : State) : (loadTable t s).total = s.total := rfl
@[simp] theorem loadTable_nsym (t : CodeTable) (s : State) : (loadTable t s).nsym = s.nsym := rfl
@[simp] theorem loadTable_encBits (t : CodeTable) (s : State) : (loadTable t s).encBits = s.encBits := rfl
@[simp] theorem loadTable_pad (t : CodeTable) (s : State) : (loadTable t s).pad = s.pad := rfl
@[simp] theorem loadTable_inLen (t : CodeTable) (s : State) : (loadTable t s).inLen = s.inLen := rfl
@[simp] theorem loadTable_outLen (t : CodeTable) (s : State) : (loadTable t s).outLen = s.outLen := rfl
@[simp] theorem loadTable_pending (t : CodeTable) (s : State) : (loadTable t s).pending = s.pending := rfl
@[simp] theorem loadTable_pendingData (t : CodeTable) (s : State) : (loadTable t s).pendingData = s.pendingData := rfl
@[simp] theorem loadTable_freq (t : CodeTable) (s : State) : (loadTable t s).freq = s.freq := rfl
@[simp] theorem loadTable_nodes (t : CodeTable) (s : State) : (loadTable t s).nodes = s.nodes := rfl
@[simp] theorem loadTable_nnodes (t : CodeTable) (s : State) : (loadTable t s).nnodes = s.nnodes := rfl
@[simp] theorem loadTable_root (t : CodeTable) (s : State) : (loadTable t s).root = s.root := rfl
@[simp] theorem loadTable_pq (t : CodeTable) (s : State) : (loadTable t s).pq = s.pq := rfl
@[simp] theorem loadTable_codeLen (t : CodeTable) (s : State) : (loadTable t s).codeLen = t.len := rfl
@[simp] theorem loadTable_codeVal (t : CodeTable) (s : State) : (loadTable t s).codeVal = t.val := rfl
@[simp] theorem loadTable_codeStage (t : CodeTable) (s : State) : (loadTable t s).codeStage = s.codeStage := rfl
@[simp] theorem loadTable_encStream (t : CodeTable) (s : State) : (loadTable t s).encStream = s.encStream := rfl
@[simp] theorem loadTable_inMem (t : CodeTable) (s : State) : (loadTable t s).inMem = s.inMem := rfl
@[simp] theorem loadTable_outMem (t : CodeTable) (s : State) : (loadTable t s).outMem = s.outMem := rfl
@[simp] theorem loadTable_cfg (t : CodeTable) (s : State) : (loadTable t s).cfg = s.cfg := rfl
@[simp] theorem loadTable_phase (t : CodeTable) (s : State) : (loadTable t s).phase = s.phase := rfl
@[simp] theorem loadTable_turns (t : CodeTable) (s : State) : (loadTable t s).turns = s.turns := rfl
@[simp] theorem loadTable_host (t : CodeTable) (s : State) : (loadTable t s).host = s.host := rfl
@[simp] theorem loadTable_draws (t : CodeTable) (s : State) : (loadTable t s).draws = s.draws := rfl

/-! ## putCode -/

@[simp] theorem putCode_data (x : Sym) (l : BitVec 8) (v : BitVec 256) (s : State) : (putCode x l v s).data = s.data := rfl
@[simp] theorem putCode_resp (x : Sym) (l : BitVec 8) (v : BitVec 256) (s : State) : (putCode x l v s).resp = s.resp := rfl
@[simp] theorem putCode_busy (x : Sym) (l : BitVec 8) (v : BitVec 256) (s : State) : (putCode x l v s).busy = s.busy := rfl
@[simp] theorem putCode_treeValid (x : Sym) (l : BitVec 8) (v : BitVec 256) (s : State) : (putCode x l v s).treeValid = s.treeValid := rfl
@[simp] theorem putCode_codesValid (x : Sym) (l : BitVec 8) (v : BitVec 256) (s : State) : (putCode x l v s).codesValid = true := rfl
@[simp] theorem putCode_encActive (x : Sym) (l : BitVec 8) (v : BitVec 256) (s : State) : (putCode x l v s).encActive = s.encActive := rfl
@[simp] theorem putCode_outValid (x : Sym) (l : BitVec 8) (v : BitVec 256) (s : State) : (putCode x l v s).outValid = s.outValid := rfl
@[simp] theorem putCode_outKind (x : Sym) (l : BitVec 8) (v : BitVec 256) (s : State) : (putCode x l v s).outKind = s.outKind := rfl
@[simp] theorem putCode_err (x : Sym) (l : BitVec 8) (v : BitVec 256) (s : State) : (putCode x l v s).err = s.err := rfl
@[simp] theorem putCode_errOpc (x : Sym) (l : BitVec 8) (v : BitVec 256) (s : State) : (putCode x l v s).errOpc = s.errOpc := rfl
@[simp] theorem putCode_total (x : Sym) (l : BitVec 8) (v : BitVec 256) (s : State) : (putCode x l v s).total = s.total := rfl
@[simp] theorem putCode_nsym (x : Sym) (l : BitVec 8) (v : BitVec 256) (s : State) : (putCode x l v s).nsym = s.nsym := rfl
@[simp] theorem putCode_encBits (x : Sym) (l : BitVec 8) (v : BitVec 256) (s : State) : (putCode x l v s).encBits = s.encBits := rfl
@[simp] theorem putCode_pad (x : Sym) (l : BitVec 8) (v : BitVec 256) (s : State) : (putCode x l v s).pad = s.pad := rfl
@[simp] theorem putCode_inLen (x : Sym) (l : BitVec 8) (v : BitVec 256) (s : State) : (putCode x l v s).inLen = s.inLen := rfl
@[simp] theorem putCode_outLen (x : Sym) (l : BitVec 8) (v : BitVec 256) (s : State) : (putCode x l v s).outLen = s.outLen := rfl
@[simp] theorem putCode_pending (x : Sym) (l : BitVec 8) (v : BitVec 256) (s : State) : (putCode x l v s).pending = s.pending := rfl
@[simp] theorem putCode_pendingData (x : Sym) (l : BitVec 8) (v : BitVec 256) (s : State) : (putCode x l v s).pendingData = s.pendingData := rfl
@[simp] theorem putCode_freq (x : Sym) (l : BitVec 8) (v : BitVec 256) (s : State) : (putCode x l v s).freq = s.freq := rfl
@[simp] theorem putCode_nodes (x : Sym) (l : BitVec 8) (v : BitVec 256) (s : State) : (putCode x l v s).nodes = s.nodes := rfl
@[simp] theorem putCode_nnodes (x : Sym) (l : BitVec 8) (v : BitVec 256) (s : State) : (putCode x l v s).nnodes = s.nnodes := rfl
@[simp] theorem putCode_root (x : Sym) (l : BitVec 8) (v : BitVec 256) (s : State) : (putCode x l v s).root = s.root := rfl
@[simp] theorem putCode_pq (x : Sym) (l : BitVec 8) (v : BitVec 256) (s : State) : (putCode x l v s).pq = s.pq := rfl
@[simp] theorem putCode_codeLen (x : Sym) (l : BitVec 8) (v : BitVec 256) (s : State) : (putCode x l v s).codeLen = symSet s.codeLen x l := rfl
@[simp] theorem putCode_codeVal (x : Sym) (l : BitVec 8) (v : BitVec 256) (s : State) : (putCode x l v s).codeVal = symSet s.codeVal x v := rfl
@[simp] theorem putCode_codeStage (x : Sym) (l : BitVec 8) (v : BitVec 256) (s : State) : (putCode x l v s).codeStage = s.codeStage := rfl
@[simp] theorem putCode_encStream (x : Sym) (l : BitVec 8) (v : BitVec 256) (s : State) : (putCode x l v s).encStream = s.encStream := rfl
@[simp] theorem putCode_inMem (x : Sym) (l : BitVec 8) (v : BitVec 256) (s : State) : (putCode x l v s).inMem = s.inMem := rfl
@[simp] theorem putCode_outMem (x : Sym) (l : BitVec 8) (v : BitVec 256) (s : State) : (putCode x l v s).outMem = s.outMem := rfl
@[simp] theorem putCode_cfg (x : Sym) (l : BitVec 8) (v : BitVec 256) (s : State) : (putCode x l v s).cfg = s.cfg := rfl
@[simp] theorem putCode_phase (x : Sym) (l : BitVec 8) (v : BitVec 256) (s : State) : (putCode x l v s).phase = s.phase := rfl
@[simp] theorem putCode_turns (x : Sym) (l : BitVec 8) (v : BitVec 256) (s : State) : (putCode x l v s).turns = s.turns := rfl
@[simp] theorem putCode_host (x : Sym) (l : BitVec 8) (v : BitVec 256) (s : State) : (putCode x l v s).host = s.host := rfl
@[simp] theorem putCode_draws (x : Sym) (l : BitVec 8) (v : BitVec 256) (s : State) : (putCode x l v s).draws = s.draws := rfl

/-! ## appendCode -/

@[simp] theorem appendCode_data (x : Sym) (s : State) : (appendCode x s).data = s.data := rfl
@[simp] theorem appendCode_resp (x : Sym) (s : State) : (appendCode x s).resp = s.resp := rfl
@[simp] theorem appendCode_busy (x : Sym) (s : State) : (appendCode x s).busy = s.busy := rfl
@[simp] theorem appendCode_treeValid (x : Sym) (s : State) : (appendCode x s).treeValid = s.treeValid := rfl
@[simp] theorem appendCode_codesValid (x : Sym) (s : State) : (appendCode x s).codesValid = s.codesValid := rfl
@[simp] theorem appendCode_encActive (x : Sym) (s : State) : (appendCode x s).encActive = s.encActive := rfl
@[simp] theorem appendCode_outValid (x : Sym) (s : State) : (appendCode x s).outValid = s.outValid := rfl
@[simp] theorem appendCode_outKind (x : Sym) (s : State) : (appendCode x s).outKind = s.outKind := rfl
@[simp] theorem appendCode_err (x : Sym) (s : State) : (appendCode x s).err = s.err := rfl
@[simp] theorem appendCode_errOpc (x : Sym) (s : State) : (appendCode x s).errOpc = s.errOpc := rfl
@[simp] theorem appendCode_total (x : Sym) (s : State) : (appendCode x s).total = s.total := rfl
@[simp] theorem appendCode_nsym (x : Sym) (s : State) : (appendCode x s).nsym = s.nsym := rfl
@[simp] theorem appendCode_encBits (x : Sym) (s : State) : (appendCode x s).encBits = BitVec.ofNat 32 (s.encBits.toNat + (symGet s.codeLen x).toNat) := rfl
@[simp] theorem appendCode_pad (x : Sym) (s : State) : (appendCode x s).pad = s.pad := rfl
@[simp] theorem appendCode_inLen (x : Sym) (s : State) : (appendCode x s).inLen = s.inLen := rfl
@[simp] theorem appendCode_outLen (x : Sym) (s : State) : (appendCode x s).outLen = s.outLen := rfl
@[simp] theorem appendCode_pending (x : Sym) (s : State) : (appendCode x s).pending = s.pending := rfl
@[simp] theorem appendCode_pendingData (x : Sym) (s : State) : (appendCode x s).pendingData = s.pendingData := rfl
@[simp] theorem appendCode_freq (x : Sym) (s : State) : (appendCode x s).freq = s.freq := rfl
@[simp] theorem appendCode_nodes (x : Sym) (s : State) : (appendCode x s).nodes = s.nodes := rfl
@[simp] theorem appendCode_nnodes (x : Sym) (s : State) : (appendCode x s).nnodes = s.nnodes := rfl
@[simp] theorem appendCode_root (x : Sym) (s : State) : (appendCode x s).root = s.root := rfl
@[simp] theorem appendCode_pq (x : Sym) (s : State) : (appendCode x s).pq = s.pq := rfl
@[simp] theorem appendCode_codeLen (x : Sym) (s : State) : (appendCode x s).codeLen = s.codeLen := rfl
@[simp] theorem appendCode_codeVal (x : Sym) (s : State) : (appendCode x s).codeVal = s.codeVal := rfl
@[simp] theorem appendCode_codeStage (x : Sym) (s : State) : (appendCode x s).codeStage = s.codeStage := rfl
@[simp] theorem appendCode_encStream (x : Sym) (s : State) : (appendCode x s).encStream = s.encStream ++ codeOf s.codeLen s.codeVal x := rfl
@[simp] theorem appendCode_inMem (x : Sym) (s : State) : (appendCode x s).inMem = s.inMem := rfl
@[simp] theorem appendCode_outMem (x : Sym) (s : State) : (appendCode x s).outMem = s.outMem := rfl
@[simp] theorem appendCode_cfg (x : Sym) (s : State) : (appendCode x s).cfg = s.cfg := rfl
@[simp] theorem appendCode_phase (x : Sym) (s : State) : (appendCode x s).phase = s.phase := rfl
@[simp] theorem appendCode_turns (x : Sym) (s : State) : (appendCode x s).turns = s.turns := rfl
@[simp] theorem appendCode_host (x : Sym) (s : State) : (appendCode x s).host = s.host := rfl
@[simp] theorem appendCode_draws (x : Sym) (s : State) : (appendCode x s).draws = s.draws := rfl

/-! ## finishStream -/

@[simp] theorem finishStream_data (s : State) : (finishStream s).data = s.data := rfl
@[simp] theorem finishStream_resp (s : State) : (finishStream s).resp = s.resp := rfl
@[simp] theorem finishStream_busy (s : State) : (finishStream s).busy = s.busy := rfl
@[simp] theorem finishStream_treeValid (s : State) : (finishStream s).treeValid = s.treeValid := rfl
@[simp] theorem finishStream_codesValid (s : State) : (finishStream s).codesValid = s.codesValid := rfl
@[simp] theorem finishStream_encActive (s : State) : (finishStream s).encActive = false := rfl
@[simp] theorem finishStream_outValid (s : State) : (finishStream s).outValid = true := rfl
@[simp] theorem finishStream_outKind (s : State) : (finishStream s).outKind = false := rfl
@[simp] theorem finishStream_err (s : State) : (finishStream s).err = s.err := rfl
@[simp] theorem finishStream_errOpc (s : State) : (finishStream s).errOpc = s.errOpc := rfl
@[simp] theorem finishStream_total (s : State) : (finishStream s).total = s.total := rfl
@[simp] theorem finishStream_nsym (s : State) : (finishStream s).nsym = s.nsym := rfl
@[simp] theorem finishStream_encBits (s : State) : (finishStream s).encBits = s.encBits := rfl
@[simp] theorem finishStream_pad (s : State) : (finishStream s).pad = BitVec.ofNat 8 (padAmount s.encStream.length) := rfl
@[simp] theorem finishStream_inLen (s : State) : (finishStream s).inLen = s.inLen := rfl
@[simp] theorem finishStream_outLen (s : State) : (finishStream s).outLen = (paddedStream s.encStream).length / 8 := rfl
@[simp] theorem finishStream_pending (s : State) : (finishStream s).pending = s.pending := rfl
@[simp] theorem finishStream_pendingData (s : State) : (finishStream s).pendingData = s.pendingData := rfl
@[simp] theorem finishStream_freq (s : State) : (finishStream s).freq = s.freq := rfl
@[simp] theorem finishStream_nodes (s : State) : (finishStream s).nodes = s.nodes := rfl
@[simp] theorem finishStream_nnodes (s : State) : (finishStream s).nnodes = s.nnodes := rfl
@[simp] theorem finishStream_root (s : State) : (finishStream s).root = s.root := rfl
@[simp] theorem finishStream_pq (s : State) : (finishStream s).pq = s.pq := rfl
@[simp] theorem finishStream_codeLen (s : State) : (finishStream s).codeLen = s.codeLen := rfl
@[simp] theorem finishStream_codeVal (s : State) : (finishStream s).codeVal = s.codeVal := rfl
@[simp] theorem finishStream_codeStage (s : State) : (finishStream s).codeStage = s.codeStage := rfl
@[simp] theorem finishStream_encStream (s : State) : (finishStream s).encStream = s.encStream := rfl
@[simp] theorem finishStream_inMem (s : State) : (finishStream s).inMem = s.inMem := rfl
@[simp] theorem finishStream_outMem (s : State) : (finishStream s).outMem = storePutFrom s.outMem 0 (bytesOfBits (paddedStream s.encStream) ((paddedStream s.encStream).length / 8)) := rfl
@[simp] theorem finishStream_cfg (s : State) : (finishStream s).cfg = s.cfg := rfl
@[simp] theorem finishStream_phase (s : State) : (finishStream s).phase = s.phase := rfl
@[simp] theorem finishStream_turns (s : State) : (finishStream s).turns = s.turns := rfl
@[simp] theorem finishStream_host (s : State) : (finishStream s).host = s.host := rfl
@[simp] theorem finishStream_draws (s : State) : (finishStream s).draws = s.draws := rfl

/-! ## storeDecoded -/

@[simp] theorem storeDecoded_data (out : List Sym) (h : Byte) (s : State) : (storeDecoded out h s).data = s.data := rfl
@[simp] theorem storeDecoded_resp (out : List Sym) (h : Byte) (s : State) : (storeDecoded out h s).resp = s.resp := rfl
@[simp] theorem storeDecoded_busy (out : List Sym) (h : Byte) (s : State) : (storeDecoded out h s).busy = s.busy := rfl
@[simp] theorem storeDecoded_treeValid (out : List Sym) (h : Byte) (s : State) : (storeDecoded out h s).treeValid = s.treeValid := rfl
@[simp] theorem storeDecoded_codesValid (out : List Sym) (h : Byte) (s : State) : (storeDecoded out h s).codesValid = s.codesValid := rfl
@[simp] theorem storeDecoded_encActive (out : List Sym) (h : Byte) (s : State) : (storeDecoded out h s).encActive = s.encActive := rfl
@[simp] theorem storeDecoded_outValid (out : List Sym) (h : Byte) (s : State) : (storeDecoded out h s).outValid = true := rfl
@[simp] theorem storeDecoded_outKind (out : List Sym) (h : Byte) (s : State) : (storeDecoded out h s).outKind = true := rfl
@[simp] theorem storeDecoded_err (out : List Sym) (h : Byte) (s : State) : (storeDecoded out h s).err = s.err := rfl
@[simp] theorem storeDecoded_errOpc (out : List Sym) (h : Byte) (s : State) : (storeDecoded out h s).errOpc = s.errOpc := rfl
@[simp] theorem storeDecoded_total (out : List Sym) (h : Byte) (s : State) : (storeDecoded out h s).total = s.total := rfl
@[simp] theorem storeDecoded_nsym (out : List Sym) (h : Byte) (s : State) : (storeDecoded out h s).nsym = s.nsym := rfl
@[simp] theorem storeDecoded_encBits (out : List Sym) (h : Byte) (s : State) : (storeDecoded out h s).encBits = s.encBits := rfl
@[simp] theorem storeDecoded_pad (out : List Sym) (h : Byte) (s : State) : (storeDecoded out h s).pad = h := rfl
@[simp] theorem storeDecoded_inLen (out : List Sym) (h : Byte) (s : State) : (storeDecoded out h s).inLen = s.inLen := rfl
@[simp] theorem storeDecoded_outLen (out : List Sym) (h : Byte) (s : State) : (storeDecoded out h s).outLen = out.length := rfl
@[simp] theorem storeDecoded_pending (out : List Sym) (h : Byte) (s : State) : (storeDecoded out h s).pending = s.pending := rfl
@[simp] theorem storeDecoded_pendingData (out : List Sym) (h : Byte) (s : State) : (storeDecoded out h s).pendingData = s.pendingData := rfl
@[simp] theorem storeDecoded_freq (out : List Sym) (h : Byte) (s : State) : (storeDecoded out h s).freq = s.freq := rfl
@[simp] theorem storeDecoded_nodes (out : List Sym) (h : Byte) (s : State) : (storeDecoded out h s).nodes = s.nodes := rfl
@[simp] theorem storeDecoded_nnodes (out : List Sym) (h : Byte) (s : State) : (storeDecoded out h s).nnodes = s.nnodes := rfl
@[simp] theorem storeDecoded_root (out : List Sym) (h : Byte) (s : State) : (storeDecoded out h s).root = s.root := rfl
@[simp] theorem storeDecoded_pq (out : List Sym) (h : Byte) (s : State) : (storeDecoded out h s).pq = s.pq := rfl
@[simp] theorem storeDecoded_codeLen (out : List Sym) (h : Byte) (s : State) : (storeDecoded out h s).codeLen = s.codeLen := rfl
@[simp] theorem storeDecoded_codeVal (out : List Sym) (h : Byte) (s : State) : (storeDecoded out h s).codeVal = s.codeVal := rfl
@[simp] theorem storeDecoded_codeStage (out : List Sym) (h : Byte) (s : State) : (storeDecoded out h s).codeStage = s.codeStage := rfl
@[simp] theorem storeDecoded_encStream (out : List Sym) (h : Byte) (s : State) : (storeDecoded out h s).encStream = s.encStream := rfl
@[simp] theorem storeDecoded_inMem (out : List Sym) (h : Byte) (s : State) : (storeDecoded out h s).inMem = s.inMem := rfl
@[simp] theorem storeDecoded_outMem (out : List Sym) (h : Byte) (s : State) : (storeDecoded out h s).outMem = storePutFrom s.outMem 0 out := rfl
@[simp] theorem storeDecoded_cfg (out : List Sym) (h : Byte) (s : State) : (storeDecoded out h s).cfg = s.cfg := rfl
@[simp] theorem storeDecoded_phase (out : List Sym) (h : Byte) (s : State) : (storeDecoded out h s).phase = s.phase := rfl
@[simp] theorem storeDecoded_turns (out : List Sym) (h : Byte) (s : State) : (storeDecoded out h s).turns = s.turns := rfl
@[simp] theorem storeDecoded_host (out : List Sym) (h : Byte) (s : State) : (storeDecoded out h s).host = s.host := rfl
@[simp] theorem storeDecoded_draws (out : List Sym) (h : Byte) (s : State) : (storeDecoded out h s).draws = s.draws := rfl

/-! ## acceptWord -/

@[simp] theorem acceptWord_data (w : Word) (s : State) : (acceptWord w s).data = s.data := rfl
@[simp] theorem acceptWord_resp (w : Word) (s : State) : (acceptWord w s).resp = s.resp := rfl
@[simp] theorem acceptWord_busy (w : Word) (s : State) : (acceptWord w s).busy = true := rfl
@[simp] theorem acceptWord_treeValid (w : Word) (s : State) : (acceptWord w s).treeValid = s.treeValid := rfl
@[simp] theorem acceptWord_codesValid (w : Word) (s : State) : (acceptWord w s).codesValid = s.codesValid := rfl
@[simp] theorem acceptWord_encActive (w : Word) (s : State) : (acceptWord w s).encActive = s.encActive := rfl
@[simp] theorem acceptWord_outValid (w : Word) (s : State) : (acceptWord w s).outValid = s.outValid := rfl
@[simp] theorem acceptWord_outKind (w : Word) (s : State) : (acceptWord w s).outKind = s.outKind := rfl
@[simp] theorem acceptWord_err (w : Word) (s : State) : (acceptWord w s).err = s.err := rfl
@[simp] theorem acceptWord_errOpc (w : Word) (s : State) : (acceptWord w s).errOpc = s.errOpc := rfl
@[simp] theorem acceptWord_total (w : Word) (s : State) : (acceptWord w s).total = s.total := rfl
@[simp] theorem acceptWord_nsym (w : Word) (s : State) : (acceptWord w s).nsym = s.nsym := rfl
@[simp] theorem acceptWord_encBits (w : Word) (s : State) : (acceptWord w s).encBits = s.encBits := rfl
@[simp] theorem acceptWord_pad (w : Word) (s : State) : (acceptWord w s).pad = s.pad := rfl
@[simp] theorem acceptWord_inLen (w : Word) (s : State) : (acceptWord w s).inLen = s.inLen := rfl
@[simp] theorem acceptWord_outLen (w : Word) (s : State) : (acceptWord w s).outLen = s.outLen := rfl
@[simp] theorem acceptWord_pending (w : Word) (s : State) : (acceptWord w s).pending = w := rfl
@[simp] theorem acceptWord_pendingData (w : Word) (s : State) : (acceptWord w s).pendingData = s.data := rfl
@[simp] theorem acceptWord_freq (w : Word) (s : State) : (acceptWord w s).freq = s.freq := rfl
@[simp] theorem acceptWord_nodes (w : Word) (s : State) : (acceptWord w s).nodes = s.nodes := rfl
@[simp] theorem acceptWord_nnodes (w : Word) (s : State) : (acceptWord w s).nnodes = s.nnodes := rfl
@[simp] theorem acceptWord_root (w : Word) (s : State) : (acceptWord w s).root = s.root := rfl
@[simp] theorem acceptWord_pq (w : Word) (s : State) : (acceptWord w s).pq = s.pq := rfl
@[simp] theorem acceptWord_codeLen (w : Word) (s : State) : (acceptWord w s).codeLen = s.codeLen := rfl
@[simp] theorem acceptWord_codeVal (w : Word) (s : State) : (acceptWord w s).codeVal = s.codeVal := rfl
@[simp] theorem acceptWord_codeStage (w : Word) (s : State) : (acceptWord w s).codeStage = s.codeStage := rfl
@[simp] theorem acceptWord_encStream (w : Word) (s : State) : (acceptWord w s).encStream = s.encStream := rfl
@[simp] theorem acceptWord_inMem (w : Word) (s : State) : (acceptWord w s).inMem = s.inMem := rfl
@[simp] theorem acceptWord_outMem (w : Word) (s : State) : (acceptWord w s).outMem = s.outMem := rfl
@[simp] theorem acceptWord_cfg (w : Word) (s : State) : (acceptWord w s).cfg = s.cfg := rfl
@[simp] theorem acceptWord_phase (w : Word) (s : State) : (acceptWord w s).phase = s.phase := rfl
@[simp] theorem acceptWord_turns (w : Word) (s : State) : (acceptWord w s).turns = s.turns := rfl
@[simp] theorem acceptWord_host (w : Word) (s : State) : (acceptWord w s).host = s.host := rfl
@[simp] theorem acceptWord_draws (w : Word) (s : State) : (acceptWord w s).draws = s.draws := rfl

/-! ## hostNext -/

@[simp] theorem hostNext_data (s : State) : (hostNext s).data = s.data := rfl
@[simp] theorem hostNext_resp (s : State) : (hostNext s).resp = s.resp := rfl
@[simp] theorem hostNext_busy (s : State) : (hostNext s).busy = s.busy := rfl
@[simp] theorem hostNext_treeValid (s : State) : (hostNext s).treeValid = s.treeValid := rfl
@[simp] theorem hostNext_codesValid (s : State) : (hostNext s).codesValid = s.codesValid := rfl
@[simp] theorem hostNext_encActive (s : State) : (hostNext s).encActive = s.encActive := rfl
@[simp] theorem hostNext_outValid (s : State) : (hostNext s).outValid = s.outValid := rfl
@[simp] theorem hostNext_outKind (s : State) : (hostNext s).outKind = s.outKind := rfl
@[simp] theorem hostNext_err (s : State) : (hostNext s).err = s.err := rfl
@[simp] theorem hostNext_errOpc (s : State) : (hostNext s).errOpc = s.errOpc := rfl
@[simp] theorem hostNext_total (s : State) : (hostNext s).total = s.total := rfl
@[simp] theorem hostNext_nsym (s : State) : (hostNext s).nsym = s.nsym := rfl
@[simp] theorem hostNext_encBits (s : State) : (hostNext s).encBits = s.encBits := rfl
@[simp] theorem hostNext_pad (s : State) : (hostNext s).pad = s.pad := rfl
@[simp] theorem hostNext_inLen (s : State) : (hostNext s).inLen = s.inLen := rfl
@[simp] theorem hostNext_outLen (s : State) : (hostNext s).outLen = s.outLen := rfl
@[simp] theorem hostNext_pending (s : State) : (hostNext s).pending = s.pending := rfl
@[simp] theorem hostNext_pendingData (s : State) : (hostNext s).pendingData = s.pendingData := rfl
@[simp] theorem hostNext_freq (s : State) : (hostNext s).freq = s.freq := rfl
@[simp] theorem hostNext_nodes (s : State) : (hostNext s).nodes = s.nodes := rfl
@[simp] theorem hostNext_nnodes (s : State) : (hostNext s).nnodes = s.nnodes := rfl
@[simp] theorem hostNext_root (s : State) : (hostNext s).root = s.root := rfl
@[simp] theorem hostNext_pq (s : State) : (hostNext s).pq = s.pq := rfl
@[simp] theorem hostNext_codeLen (s : State) : (hostNext s).codeLen = s.codeLen := rfl
@[simp] theorem hostNext_codeVal (s : State) : (hostNext s).codeVal = s.codeVal := rfl
@[simp] theorem hostNext_codeStage (s : State) : (hostNext s).codeStage = s.codeStage := rfl
@[simp] theorem hostNext_encStream (s : State) : (hostNext s).encStream = s.encStream := rfl
@[simp] theorem hostNext_inMem (s : State) : (hostNext s).inMem = s.inMem := rfl
@[simp] theorem hostNext_outMem (s : State) : (hostNext s).outMem = s.outMem := rfl
@[simp] theorem hostNext_cfg (s : State) : (hostNext s).cfg = s.cfg := rfl
@[simp] theorem hostNext_phase (s : State) : (hostNext s).phase = s.phase := rfl
@[simp] theorem hostNext_turns (s : State) : (hostNext s).turns = s.turns := rfl
@[simp] theorem hostNext_host (s : State) : (hostNext s).host = { s.host with pc := s.host.pc + 1 } := rfl
@[simp] theorem hostNext_draws (s : State) : (hostNext s).draws = s.draws := rfl

/-! ## hostStore -/

@[simp] theorem hostStore_data (n : Nat) (v : Word) (s : State) : (hostStore n v s).data = s.data := rfl
@[simp] theorem hostStore_resp (n : Nat) (v : Word) (s : State) : (hostStore n v s).resp = s.resp := rfl
@[simp] theorem hostStore_busy (n : Nat) (v : Word) (s : State) : (hostStore n v s).busy = s.busy := rfl
@[simp] theorem hostStore_treeValid (n : Nat) (v : Word) (s : State) : (hostStore n v s).treeValid = s.treeValid := rfl
@[simp] theorem hostStore_codesValid (n : Nat) (v : Word) (s : State) : (hostStore n v s).codesValid = s.codesValid := rfl
@[simp] theorem hostStore_encActive (n : Nat) (v : Word) (s : State) : (hostStore n v s).encActive = s.encActive := rfl
@[simp] theorem hostStore_outValid (n : Nat) (v : Word) (s : State) : (hostStore n v s).outValid = s.outValid := rfl
@[simp] theorem hostStore_outKind (n : Nat) (v : Word) (s : State) : (hostStore n v s).outKind = s.outKind := rfl
@[simp] theorem hostStore_err (n : Nat) (v : Word) (s : State) : (hostStore n v s).err = s.err := rfl
@[simp] theorem hostStore_errOpc (n : Nat) (v : Word) (s : State) : (hostStore n v s).errOpc = s.errOpc := rfl
@[simp] theorem hostStore_total (n : Nat) (v : Word) (s : State) : (hostStore n v s).total = s.total := rfl
@[simp] theorem hostStore_nsym (n : Nat) (v : Word) (s : State) : (hostStore n v s).nsym = s.nsym := rfl
@[simp] theorem hostStore_encBits (n : Nat) (v : Word) (s : State) : (hostStore n v s).encBits = s.encBits := rfl
@[simp] theorem hostStore_pad (n : Nat) (v : Word) (s : State) : (hostStore n v s).pad = s.pad := rfl
@[simp] theorem hostStore_inLen (n : Nat) (v : Word) (s : State) : (hostStore n v s).inLen = s.inLen := rfl
@[simp] theorem hostStore_outLen (n : Nat) (v : Word) (s : State) : (hostStore n v s).outLen = s.outLen := rfl
@[simp] theorem hostStore_pending (n : Nat) (v : Word) (s : State) : (hostStore n v s).pending = s.pending := rfl
@[simp] theorem hostStore_pendingData (n : Nat) (v : Word) (s : State) : (hostStore n v s).pendingData = s.pendingData := rfl
@[simp] theorem hostStore_freq (n : Nat) (v : Word) (s : State) : (hostStore n v s).freq = s.freq := rfl
@[simp] theorem hostStore_nodes (n : Nat) (v : Word) (s : State) : (hostStore n v s).nodes = s.nodes := rfl
@[simp] theorem hostStore_nnodes (n : Nat) (v : Word) (s : State) : (hostStore n v s).nnodes = s.nnodes := rfl
@[simp] theorem hostStore_root (n : Nat) (v : Word) (s : State) : (hostStore n v s).root = s.root := rfl
@[simp] theorem hostStore_pq (n : Nat) (v : Word) (s : State) : (hostStore n v s).pq = s.pq := rfl
@[simp] theorem hostStore_codeLen (n : Nat) (v : Word) (s : State) : (hostStore n v s).codeLen = s.codeLen := rfl
@[simp] theorem hostStore_codeVal (n : Nat) (v : Word) (s : State) : (hostStore n v s).codeVal = s.codeVal := rfl
@[simp] theorem hostStore_codeStage (n : Nat) (v : Word) (s : State) : (hostStore n v s).codeStage = s.codeStage := rfl
@[simp] theorem hostStore_encStream (n : Nat) (v : Word) (s : State) : (hostStore n v s).encStream = s.encStream := rfl
@[simp] theorem hostStore_inMem (n : Nat) (v : Word) (s : State) : (hostStore n v s).inMem = s.inMem := rfl
@[simp] theorem hostStore_outMem (n : Nat) (v : Word) (s : State) : (hostStore n v s).outMem = s.outMem := rfl
@[simp] theorem hostStore_cfg (n : Nat) (v : Word) (s : State) : (hostStore n v s).cfg = s.cfg := rfl
@[simp] theorem hostStore_phase (n : Nat) (v : Word) (s : State) : (hostStore n v s).phase = s.phase := rfl
@[simp] theorem hostStore_turns (n : Nat) (v : Word) (s : State) : (hostStore n v s).turns = s.turns := rfl
@[simp] theorem hostStore_host (n : Nat) (v : Word) (s : State) : (hostStore n v s).host = { s.host with vars := storePut s.host.vars n v } := rfl
@[simp] theorem hostStore_draws (n : Nat) (v : Word) (s : State) : (hostStore n v s).draws = s.draws := rfl

@[simp] theorem powerUpState_cfg (s : State) : (powerUpState s).cfg = s.cfg := rfl
@[simp] theorem powerUpState_phase (s : State) : (powerUpState s).phase = .powerUp := rfl
@[simp] theorem powerUpState_turns (s : State) : (powerUpState s).turns = s.turns := rfl
@[simp] theorem powerUpState_host (s : State) : (powerUpState s).host = s.host := rfl
@[simp] theorem powerUpState_draws (s : State) : (powerUpState s).draws = s.draws + 1 := rfl

end Sys2Proof.Machine
end

