-- ==== Sys2Proof/Laws/Commands.lean ====
section
/-! SUPPORT. What a command can do, said once: the outcome of the sequencing step, of error entry, and of every
command. -/

namespace Sys2Proof.Machine

/-! ## Error entry -/

/-- Error entry records the error if none is recorded (60_exceptions.md R252). -/
theorem recordErr_eq (e : Err) (opc : BitVec 8) (s : State) :
    recordErr e opc s =
      { s with err := if s.err = 0 then errCode e else s.err, errOpc := if s.err = 0 then opc else s.errOpc } := by
  unfold recordErr; split <;> rfl

/-- An abort effect is nothing, the encode abort or the decode abort (60_exceptions.md R250). -/
theorem abortEffect_cases (e : Err) (i : Instr) (s : State) :
    abortEffect e i s = s ∨ (abortEffect e i s = encodeAbort s ∧ ∃ x, i = .encSym x) ∨
      (abortEffect e i s = decodeAbort s ∧ i = .decode) := by
  unfold abortEffect
  split
  · exact .inr (.inl ⟨rfl, _, rfl⟩)
  · exact .inr (.inl ⟨rfl, _, rfl⟩)
  · exact .inr (.inr ⟨rfl, rfl⟩)
  · exact .inr (.inr ⟨rfl, rfl⟩)
  · exact .inr (.inr ⟨rfl, rfl⟩)
  · exact .inl rfl

/-- An error that is not raised by the body of ENC_SYM or DECODE has no abort effect (60_exceptions.md R253). -/
theorem abortEffect_eq (e : Err) (i : Instr) (s : State) (h1 : ∀ x, i ≠ .encSym x) (h2 : i ≠ .decode) :
    abortEffect e i s = s := by
  rcases abortEffect_cases e i s with h | ⟨-, x, h⟩ | ⟨-, h⟩
  · exact h
  · exact absurd h (h1 x)
  · exact absurd h h2

@[simp] theorem abortEffect_sequence (i : Instr) (s : State) : abortEffect .sequence i s = s := by
  cases i <;> rfl

/-- No error has code 0 (60_exceptions.md R250). -/
theorem errCode_ne (e : Err) : errCode e ≠ 0 := by cases e <;> decide

/-- The codes are 1 to 11 (60_exceptions.md R250). -/
theorem errCode_le (e : Err) : (errCode e).toNat ≤ 11 := by cases e <;> decide

/-- Fields that error entry leaves, and the two it records (60_exceptions.md R252). -/
theorem enterErr_fields (e o c s) : (enterErr e o c s).freq = s.freq ∧ (enterErr e o c s).codeLen = s.codeLen ∧ (enterErr e o c s).codeVal = s.codeVal ∧ (enterErr e o c s).resp = s.resp ∧
   (enterErr e o c s).err = (if s.err = 0 then errCode e else s.err) ∧ (enterErr e o c s).errOpc = (if s.err = 0 then o else s.errOpc) := by
  cases c with
  | none => simp [enterErr, recordErr_eq]
  | some i => rcases abortEffect_cases e i (recordErr e o s) with h | ⟨h, -⟩ | ⟨h, -⟩ <;> simp only [enterErr, h] <;> simp [recordErr_eq, encodeAbort, decodeAbort]

/-! ## The sequencing step -/

/-- A command outside its condition raises SEQUENCE, with no abort effect (40_control.md R104, R106). -/
theorem sequenced_of_not {i : Instr} {s : State} {body : Out} (h : seqOk i s = false) :
    sequenced i s body = .next (recordErr .sequence (opcodeOf i) s) := by
  simp [sequenced, h, raiseErr, enterErr]

theorem sequenced_of_ok {i : Instr} {s : State} {body : Out} (h : seqOk i s = true) : sequenced i s body = body := by
  simp [sequenced, h]

/-- A next state of a sequenced command is the SEQUENCE error's or the body's. -/
theorem sequenced_next {i : Instr} {s t : State} {body : Out} (h : sequenced i s body = .next t) :
    (seqOk i s = false ∧ t = enterErr .sequence (opcodeOf i) (some i) s) ∨ (seqOk i s = true ∧ body = .next t) := by
  cases hs : seqOk i s with
  | false => rw [sequenced, hs] at h; exact .inl ⟨rfl, by cases h; rfl⟩
  | true => rw [sequenced, hs] at h; exact .inr ⟨rfl, h⟩

/-- A sequenced command whose body raises nothing. -/
theorem sequenced_plain {i : Instr} {s t u : State} (h : sequenced i s (.next u) = .next t) :
    (∃ e, t = enterErr e (opcodeOf i) (some i) s) ∨ (seqOk i s = true ∧ t = u) := by
  rcases sequenced_next h with ⟨-, h⟩ | ⟨hs, h⟩
  · exact .inl ⟨_, h⟩
  · cases h; exact .inr ⟨hs, rfl⟩

/-! ## The commands -/

/-- The effect of a command that raises no error, as its rule gives it. -/
def Effect (i : Instr) (s t : State) : Prop :=
  match i with
  | .nop => t = s
  | .clear => t = resetCore s
  | .errClear => t = leaveErr s
  | .count x => s.treeValid = false ∧ s.codesValid = false ∧ s.total ≠ 0xFFFFFFFF ∧ t = countSym x s
  | .readFreq x => t = { s with resp := symGet s.freq x }
  | .buildTree => s.treeValid = false ∧ s.codesValid = false ∧ s.nsym ≠ 0 ∧
      ∃ b root q, buildWith Config.freeChoice s = some b ∧ b.pq = root :: q ∧ t = finishBuild b root s
  | .genCodes => s.treeValid = true ∧ s.codesValid = false ∧
      ∃ tab, tableOfTree (nodeAt s.nodes s.draws) s.root = some tab ∧ t = loadTable tab s
  | .readCodeLen x => t = { s with resp := (symGet s.codeLen x).setWidth 32 }
  | .readCodeWord x w => t = { s with resp := codeWord (symGet s.codeVal x) w }
  | .stageCodeWord w => t = { s with codeStage := stageSet s.codeStage w s.pendingData }
  | .writeCode x l => s.treeValid = false ∧ s.encActive = false ∧
      ¬ (0 < l.toNat ∧ duplicateCode s x l (stagedCode s l) = true) ∧ t = putCode x l (stagedCode s l) s
  | .encSym x => s.codesValid = true ∧ symGet s.codeLen x ≠ 0 ∧
      finishedBytes ((openStream s).encBits.toNat + (symGet s.codeLen x).toNat) ≤ s.cfg.outCap ∧
      t = appendCode x (openStream s)
  | .encFinish => s.codesValid = true ∧ t = finishStream (openStream s)
  | .readOut a => s.outValid = true ∧ a.toNat < s.outLen ∧ t = { s with resp := (readOutByte s a.toNat).setWidth 32 }
  | .inPush b => s.inLen ≠ s.cfg.inCap ∧ t = { writeIn s s.inLen b with inLen := s.inLen + 1 }
  | .inClear => t = { s with inLen := 0, inMem := [] }
  | .decode => s.codesValid = true ∧ s.encActive = false ∧ s.inLen ≠ 0 ∧ (readIn s 0).toNat ≤ 8 * s.inLen - 8 ∧
      ∃ out, scanBits (matchCode s.codeLen s.codeVal) s.cfg.outCap (payloadBits s) [] [] = .ok out ∧
        t = storeDecoded out (readIn s 0) s

/-- Everything a command can do when it answers a next state: an error is entered, or its own effect takes place. -/
theorem exec_next {i : Instr} {s t : State} (h : exec i s = .next t) :
    (∃ e, t = enterErr e (opcodeOf i) (some i) s) ∨ Effect i s t := by
  cases i <;> simp only [exec] at h
  case nop => exact (sequenced_plain h).imp_right And.right
  case clear => exact (sequenced_plain h).imp_right And.right
  case errClear => exact (sequenced_plain h).imp_right And.right
  case count x =>
    rcases sequenced_next h with ⟨-, h⟩ | ⟨hs, h⟩
    · exact .inl ⟨_, h⟩
    · split at h
      · cases h; exact .inl ⟨_, rfl⟩
      · cases h
        simp only [seqOk, Bool.and_eq_true, Bool.not_eq_true'] at hs
        exact .inr ⟨hs.1, hs.2, by assumption, rfl⟩
  case readFreq x => exact (sequenced_plain h).imp_right And.right
  case buildTree =>
    rcases sequenced_next h with ⟨-, h⟩ | ⟨hs, h⟩
    · exact .inl ⟨_, h⟩
    · simp only [seqOk, Bool.and_eq_true, Bool.not_eq_true'] at hs
      unfold buildTreeBody at h
      split at h
      · cases h; exact .inl ⟨_, rfl⟩
      · rename_i hn
        split at h
        · cases h
        · rename_i b hb
          split at h
          · rename_i root q hq
            cases h
            exact .inr ⟨hs.1, hs.2, hn, b, root, q, hb, hq, rfl⟩
          · cases h
  case genCodes =>
    rcases sequenced_next h with ⟨-, h⟩ | ⟨hs, h⟩
    · exact .inl ⟨_, h⟩
    · simp only [seqOk, Bool.and_eq_true, Bool.not_eq_true'] at hs
      split at h
      · rename_i tab ht
        cases h
        exact .inr ⟨hs.1, hs.2, tab, ht, rfl⟩
      · cases h
  case readCodeLen x => exact (sequenced_plain h).imp_right And.right
  case readCodeWord x w => exact (sequenced_plain h).imp_right And.right
  case stageCodeWord w => exact (sequenced_plain h).imp_right And.right
  case writeCode x l =>
    rcases sequenced_next h with ⟨-, h⟩ | ⟨hs, h⟩
    · exact .inl ⟨_, h⟩
    · simp only [seqOk, Bool.and_eq_true, Bool.not_eq_true'] at hs
      split at h
      · cases h; exact .inl ⟨_, rfl⟩
      · rename_i hd
        cases h
        exact .inr ⟨hs.1, hs.2, by simpa using hd, rfl⟩
  case encSym x =>
    rcases sequenced_next h with ⟨-, h⟩ | ⟨hs, h⟩
    · exact .inl ⟨_, h⟩
    · split at h
      · cases h; exact .inl ⟨_, rfl⟩
      · split at h
        · cases h; exact .inl ⟨_, rfl⟩
        · rename_i h1 h2
          cases h
          exact .inr ⟨hs, h1, by omega, rfl⟩
  case encFinish => exact sequenced_plain h
  case readOut a =>
    rcases sequenced_next h with ⟨-, h⟩ | ⟨hs, h⟩
    · exact .inl ⟨_, h⟩
    · split at h
      · cases h; exact .inl ⟨_, rfl⟩
      · rename_i h1
        cases h
        exact .inr ⟨hs, by omega, rfl⟩
  case inPush b =>
    rcases sequenced_next h with ⟨-, h⟩ | ⟨hs, h⟩
    · exact .inl ⟨_, h⟩
    · split at h
      · cases h; exact .inl ⟨_, rfl⟩
      · rename_i h1
        cases h
        exact .inr ⟨h1, rfl⟩
  case inClear => exact (sequenced_plain h).imp_right And.right
  case decode =>
    rcases sequenced_next h with ⟨-, h⟩ | ⟨hs, h⟩
    · exact .inl ⟨_, h⟩
    · simp only [seqOk, Bool.and_eq_true, Bool.not_eq_true'] at hs
      split at h
      · cases h; exact .inl ⟨_, rfl⟩
      · split at h
        · cases h; exact .inl ⟨_, rfl⟩
        · split at h
          · cases h; exact .inl ⟨_, rfl⟩
          · rename_i h1 h2 _ out ho
            cases h
            exact .inr ⟨hs.1, hs.2, h1, by omega, out, ho, rfl⟩

/-! ## The step -/

/-- The core step completes the command: BUSY is 0 (40_control.md R103). -/
theorem complete_next {o : Out} {t : State} (h : complete o = .next t) : ∃ u, o = .next u ∧ t = { u with busy := false } := by
  cases o <;> simp only [complete] at h
  · cases h; exact ⟨_, rfl, rfl⟩
  · cases h
  · cases h

/-- Everything a host operation that answers a next state does to the CORE: nothing, a slot write, or the draw of a free
value; the host agent's own fields aside. -/
theorem hostOp_next {op : HostOp} {s t : State} (h : hostOp op s = .next t) :
    (∃ g, t = { s with host := g }) ∨ (∃ addr v g, t = { writeSlot (slotOfAddr s.cfg addr) v s with host := g }) ∨
      (∃ n g, t = { s with draws := n, host := g }) := by
  have hguard : ∀ {width : Nat} {access : Out}, guardAccess width s access = .next t → access = .next t := by
    intro width access hg
    unfold guardAccess at hg
    split at hg
    · cases hg
    · cases hg
    · split at hg
      · exact hg
      · cases hg
  cases op with
  | wr width addr v =>
    have := hguard h
    cases this
    exact .inr (.inl ⟨addr, v, _, rfl⟩)
  | rd width addr var =>
    have := hguard h
    cases this
    unfold afterRead
    split
    · exact .inr (.inr ⟨_, _, rfl⟩)
    · exact .inl ⟨_, rfl⟩
  | bnz var bit target =>
    simp only [hostOp] at h
    cases h
    unfold hostBranch
    split <;> exact .inl ⟨_, rfl⟩
  | bz var bit target =>
    simp only [hostOp] at h
    cases h
    unfold hostBranch
    split <;> exact .inl ⟨_, rfl⟩
  | requireNoErr var =>
    simp only [hostOp] at h
    split at h <;> cases h <;> exact .inl ⟨_, rfl⟩

/-- Everything a slot write does: nothing, a new DATA, an accepted word, or the overrun recorded (40_control.md R101, R102). -/
theorem writeSlot_cases (slot : Slot) (v : Word) (s : State) :
    writeSlot slot v s = s ∨ writeSlot slot v s = { s with data := v } ∨
      (s.busy = false ∧ writeSlot slot v s = acceptWord v s) ∨
      (s.busy = true ∧ writeSlot slot v s = recordErr .busyOverrun (opcField v) s) := by
  cases slot
  case cmd =>
    simp only [writeSlot, writeCmd]
    cases hb : s.busy with
    | true => exact .inr (.inr (.inr ⟨rfl, rfl⟩))
    | false =>
      rw [if_neg (by simp)]
      split
      · exact .inl rfl
      · exact .inr (.inr (.inl ⟨rfl, rfl⟩))
  case data => exact .inr (.inl rfl)
  all_goals exact .inl rfl

/-- Everything one turn can do when it answers a next state. -/
theorem turnOf_next {a : Turn} {u t : State} (h : turnOf a u = .next t) :
    t = u ∨
    (a = .core ∧ coreEnabled u = true ∧ ∃ v, executeWord u.pending u = .next v ∧ t = { v with busy := false }) ∨
    (a = .host ∧ ∃ op, hostPending u = some op ∧ hostOp op u = .next t) ∨
    t = { u with phase := .resetAsserted } ∨ t = powerUpState u ∨
    (a = .releaseReset ∧ u.phase = .resetAsserted ∧ t = resetCore u) := by
  cases a <;> simp only [turnOf] at h
  · unfold coreTurn at h
    split at h
    · obtain ⟨v, hv, ht⟩ := complete_next h
      exact .inr (.inl ⟨rfl, by assumption, v, hv, ht⟩)
    · cases h; exact .inl rfl
  · unfold hostTurn at h
    split at h
    · cases h; exact .inl rfl
    · exact .inr (.inr (.inl ⟨rfl, _, by assumption, h⟩))
  · cases h; exact .inr (.inr (.inr (.inl rfl)))
  · cases h
    unfold releaseTurn
    split
    · exact .inr (.inr (.inr (.inr (.inr ⟨rfl, by assumption, rfl⟩))))
    · exact .inl rfl
  · cases h; exact .inr (.inr (.inr (.inr (.inl rfl))))

/-- The step takes the turn `a` on the state `u`, which is `s` with the schedule moved on: a turn that is listed, the host's where
the core has no step, or the first of the turns up to the core's. -/
inductive Scheduled (s : State) : Turn → State → Prop where
  | listed (a : Turn) (ts : List Turn) (h : s.turns = a :: ts) : Scheduled s a { s with turns := ts }
  | idle (h : s.turns = []) (hc : coreEnabled s = false) : Scheduled s .host s
  | core (h : s.turns = []) (hc : coreEnabled s = true) (hd : Config.freeDelay s.draws = 0) :
      Scheduled s .core { s with draws := s.draws + 1 }
  | delayed (d : Nat) (h : s.turns = []) (hc : coreEnabled s = true) (hd : Config.freeDelay s.draws = d + 1) :
      Scheduled s .host { s with turns := fairTurns d, draws := s.draws + 1 }

/-- A turn that is listed is taken. -/
theorem step_of_listed {s : State} {a : Turn} {ts : List Turn} (h : s.turns = a :: ts) :
    step s = turnOf a { s with turns := ts } := by
  simp [step, turnStep, listTurns, takeTurn, h]

/-- With no turn listed the host moves while the core has no step. -/
theorem step_of_idle {s : State} (h : s.turns = []) (hc : coreEnabled s = false) : step s = turnOf .host s := by
  simp [step, turnStep, listTurns, takeTurn, h, hc]

/-- With no turn listed and the core enabled, the step is that of the state with the turns up to the core's listed. -/
theorem step_of_enabled {s : State} (h : s.turns = []) (hc : coreEnabled s = true) :
    step s = step { s with turns := fairTurns (Config.freeDelay s.draws), draws := s.draws + 1 } := by
  simp [step, turnStep, listTurns, h, hc, fairTurns]

/-- Every step is the turn of one agent. -/
theorem step_eq (s : State) : ∃ a u, step s = turnOf a u ∧ Scheduled s a u := by
  cases h : s.turns with
  | cons a ts => exact ⟨a, _, step_of_listed h, .listed a ts h⟩
  | nil =>
    cases hc : coreEnabled s with
    | false => exact ⟨.host, s, step_of_idle h hc, .idle h hc⟩
    | true =>
      rw [step_of_enabled h hc]
      cases hd : Config.freeDelay s.draws with
      | zero =>
        refine ⟨.core, _, (step_of_listed rfl).trans ?_, .core h hc hd⟩
        simp only [h]
      | succ d => exact ⟨.host, _, step_of_listed rfl, .delayed d h hc hd⟩

/-- Only the schedule and the count of draws differ where a turn is taken. -/
theorem Scheduled.frame {s u : State} {a : Turn} (h : Scheduled s a u) : ∃ ts n, u = { s with turns := ts, draws := n } := by
  cases h with
  | listed _ ts h => exact ⟨ts, s.draws, rfl⟩
  | idle h hc => exact ⟨s.turns, s.draws, rfl⟩
  | core h hc hd => exact ⟨s.turns, s.draws + 1, rfl⟩
  | delayed d h hc hd => exact ⟨fairTurns d, s.draws + 1, rfl⟩

/-- Where the core's turn comes and it is enabled, the core moves. -/
theorem Scheduled.coreMoves {s u : State} (h : Scheduled s .core u) (he : coreEnabled u = true) : CoreMoves s := by
  cases h with
  | listed _ ts h => simp_all [coreEnabled, CoreMoves]
  | core h hc hd => simp_all [coreEnabled, CoreMoves]

/-- The reset input is released only where that turn is listed. -/
theorem Scheduled.resetReleased {s u : State} (h : Scheduled s .releaseReset u) (hp : u.phase = .resetAsserted) :
    ResetReleased s := by
  cases h with
  | listed _ ts h => exact ⟨hp, by simp [h]⟩

/-- Everything one step can do when it answers a next state, `u` being the state with the schedule moved on. -/
theorem step_next {s t : State} (h : step s = .next t) :
    ∃ u, (∃ ts n, u = { s with turns := ts, draws := n }) ∧
      (t = u ∨
      (CoreMoves s ∧ ∃ v, executeWord u.pending u = .next v ∧ t = { v with busy := false }) ∨
      (∃ op, hostPending u = some op ∧ hostOp op u = .next t) ∨
      t = { u with phase := .resetAsserted } ∨ t = powerUpState u ∨
      (ResetReleased s ∧ t = resetCore u)) := by
  obtain ⟨a, u, hs, hu⟩ := step_eq s
  rw [hs] at h
  refine ⟨u, hu.frame, ?_⟩
  rcases turnOf_next h with ht | ⟨rfl, he, hv⟩ | ⟨-, hop⟩ | ht | rfl | ⟨rfl, hph, ht⟩
  · exact .inl ht
  · exact .inr (.inl ⟨hu.coreMoves he, hv⟩)
  · exact .inr (.inr (.inl hop))
  · exact .inr (.inr (.inr (.inl ht)))
  · exact .inr (.inr (.inr (.inr (.inl rfl))))
  · exact .inr (.inr (.inr (.inr (.inr ⟨hu.resetReleased hph, ht⟩))))

end Sys2Proof.Machine
end

