-- ==== Sys2Proof/Laws/Counts.lean ====
section
/-! SUPPORT. Laws of the sum of FREQ and of the symbols that are present (10_state.md R27, R28, R35). -/

namespace Sys2Proof.Machine

/-- Writing one entry moves the sum by the difference. -/
theorem freqSum_symSet (f : Vector Word 256) (x : Sym) (v : Word) :
    freqSum (symSet f x v) + (symGet f x).toNat = freqSum f + v.toNat := by
  unfold freqSum
  have hnd := nodup_allSyms
  have hx := mem_allSyms x
  generalize allSyms = l at hnd hx
  induction l with
  | nil => simp at hx
  | cons y l ih =>
    obtain ⟨hy, hl⟩ := List.nodup_cons.1 hnd
    simp only [List.map_cons, List.sum_cons]
    by_cases hxy : y = x
    · subst hxy
      have : (l.map fun z => (symGet (symSet f y v) z).toNat) = l.map fun z => (symGet f z).toNat :=
        List.map_congr_left fun z hz => by rw [symGet_symSet_ne]; rintro rfl; exact hy hz
      rw [this, symGet_symSet_self]; omega
    · rw [symGet_symSet_ne _ _ hxy]
      have := ih hl (by rcases List.mem_cons.1 hx with h | h; exact absurd h.symm hxy; exact h)
      omega

/-- One entry is at most the sum. -/
theorem le_freqSum (f : Vector Word 256) (x : Sym) : (symGet f x).toNat ≤ freqSum f := by
  unfold freqSum
  exact List.single_le_sum (by simp) _ (List.mem_map.2 ⟨x, mem_allSyms x, rfl⟩)

/-- Writing a positive entry makes a symbol present. -/
theorem present_symSet (f : Vector Word 256) (x : Sym) (v : Word) (hv : 0 < v.toNat) :
    (presentSyms (symSet f x v)).length = (presentSyms f).length + if symGet f x = 0 then 1 else 0 := by
  unfold presentSyms
  have hnd := nodup_allSyms
  have hx := mem_allSyms x
  generalize allSyms = l at hnd hx
  induction l with
  | nil => simp at hx
  | cons y l ih =>
    obtain ⟨hy, hl⟩ := List.nodup_cons.1 hnd
    by_cases hxy : y = x
    · subst hxy
      have : (l.filter fun z => decide (0 < (symGet (symSet f y v) z).toNat)) = l.filter fun z => decide (0 < (symGet f z).toNat) :=
        List.filter_congr fun z hz => by rw [symGet_symSet_ne]; rintro rfl; exact hy hz
      rw [List.filter_cons, List.filter_cons, this, symGet_symSet_self]
      by_cases h0 : symGet f y = 0
      · simp [h0, hv]
      · have : 0 < (symGet f y).toNat := by
          rcases Nat.eq_zero_or_pos (symGet f y).toNat with h | h
          · exact absurd (BitVec.eq_of_toNat_eq (by simpa using h)) h0
          · exact h
        have h0' : ¬ symGet f y = 0#32 := h0
        simp [h0', hv, this]
    · have := ih hl (by rcases List.mem_cons.1 hx with h | h; exact absurd h.symm hxy; exact h)
      rw [List.filter_cons, List.filter_cons, symGet_symSet_ne _ _ hxy]
      split <;> simp [this]; omega

/-- The symbols present are those with a count. -/
theorem mem_present {f : Vector Word 256} {x : Sym} : x ∈ presentSyms f ↔ symGet f x ≠ 0 := by
  unfold presentSyms
  rw [List.mem_filter]
  constructor
  · rintro ⟨-, h⟩ e; rw [e] at h; simp at h
  · intro h; refine ⟨mem_allSyms x, ?_⟩; simp; exact Nat.pos_of_ne_zero fun e => h (BitVec.eq_of_toNat_eq e)

/-- Where NSYM is not 0 a symbol is present. -/
theorem present_ne {s : State} (hc : CountsInv s) (h : s.nsym ≠ 0) : presentSyms s.freq ≠ [] := by
  intro e; apply h; rw [hc.nsym, e]; rfl

end Sys2Proof.Machine
end

