-- ==== Sys2Proof/Laws/HostProgram.lean ====
section
/-! SUPPORT. The numbers of a host program's variables: the one of the pseudo-instructions, those of the names, and those of
the elements of the arrays `read_out` fills are all different (30_encoding.md R89, R90). -/

namespace Sys2Proof.Machine

theorem nameVar_ne_statusVar (i : Nat) : nameVar i ≠ statusVar := by unfold nameVar statusVar; omega

theorem nameVar_inj {i j : Nat} (h : nameVar i = nameVar j) : i = j := by unfold nameVar at h; omega

theorem elemVar_ne_statusVar (m i a : Nat) : elemVar m i a ≠ statusVar := by unfold elemVar statusVar; omega

theorem elemVar_ne_nameVar {m j : Nat} (i a : Nat) (h : j < m) : elemVar m i a ≠ nameVar j := by
  unfold elemVar nameVar; omega

theorem elemVar_inj {m i j a c : Nat} (ha : a < 2 ^ 24) (hc : c < 2 ^ 24) (h : elemVar m i a = elemVar m j c) :
    i = j ∧ a = c := by
  unfold elemVar at h; omega

end Sys2Proof.Machine
end

