-- ==== Sys2Proof/Laws/Packer.lean ====
section
/-! SUPPORT. Laws of the open stream and of the bytes a command lists (44_bit_packer.md R191, R192, R196). -/

namespace Sys2Proof.Machine

/-- The ranges of 00_scope.md R7 as inequalities. -/
theorem wf_bounds {c : Config} (h : c.wf = true) : 1 ≤ c.inCap ∧ c.inCap ≤ 2^24 ∧ 2 ≤ c.outCap ∧ c.outCap ≤ 2^24 := by
  simp only [Config.wf, Bool.and_eq_true, decide_eq_true_eq] at h; omega

/-- The stream a command goes on from is the open one or a new one. -/
theorem openStream_cases (s : State) : (s.encActive = true ∧ openStream s = s) ∨ (s.encActive = false ∧ openStream s = startStream s) := by
  unfold openStream; cases h : s.encActive <;> simp

/-- What it holds. -/
theorem openStream_eqs (s : State) : (openStream s).encStream = streamOf s ∧ (openStream s).encBits = streamBits s ∧ (openStream s).outMem = s.outMem ∧ (openStream s).draws = s.draws := by
  unfold openStream streamOf streamBits; cases s.encActive <;> simp

/-- A listed byte was written or listed before. -/
theorem storeGet_listed (m : Store Byte) (vs : List Byte) (a : Nat) (h : (storeGet (storePutFrom m 0 vs) a).isSome = true) :
    a < vs.length ∨ (storeGet m a).isSome = true := by
  rw [storeGet_putFrom] at h
  split at h
  · left; omega
  · right; exact h

/-- A written byte is listed. -/
theorem listed_put (m : Store Byte) (vs : List Byte) (a : Nat) (h : a < vs.length) : (storeGet (storePutFrom m 0 vs) a).isSome = true := by
  rw [storeGet_putFrom, if_pos (by omega)]; simp; exact h

end Sys2Proof.Machine
end

