-- ==== Sys2Proof/Laws/PerInstr.lean ====
section
/-! SUPPORT. Lemmas made once per command: the shape of its word (30_encoding.md R80 to R85). -/

namespace Sys2Proof.Laws

/-- A bit of a word is a bit of its operand field or of its opcode. -/
theorem getLsbD_word (o : BitVec 8) (d : BitVec 24) (i : Nat) :
    (o ++ d : Word).getLsbD i = if i < 24 then d.getLsbD i else o.getLsbD (i - 24) :=
  BitVec.getLsbD_append

/-- The opcode field of a word is its upper byte. -/
theorem opcField_append (o : BitVec 8) (d : BitVec 24) : opcField (o ++ d) = o := by
  apply BitVec.eq_of_getLsbD_eq
  intro i hi
  rw [opcField, BitVec.getLsbD_extractLsb', getLsbD_word, if_neg (by omega)]
  simp [hi]

/-- The operand field of a word is its lower 24 bits. -/
theorem operand_append (o : BitVec 8) (d : BitVec 24) : (o ++ d : Word).extractLsb' 0 24 = d := by
  apply BitVec.eq_of_getLsbD_eq
  intro i hi
  rw [BitVec.getLsbD_extractLsb', getLsbD_word, if_pos (by omega)]
  simp [hi]

/-- The reserved bits of a word are those of its operand field. -/
theorem reserved_append (o : BitVec 8) (d m : BitVec 24) (h : d &&& m = 0) :
    (o ++ d : Word) &&& (0#8 ++ m : Word) = 0 := by
  apply BitVec.eq_of_getLsbD_eq
  intro i hi
  have hd := congrArg (fun v : BitVec 24 => v.getLsbD i) h
  simp only [BitVec.getLsbD_and] at hd
  rw [BitVec.getLsbD_and, getLsbD_word, getLsbD_word]
  split
  · simpa using hd
  · simp

/-- The reserved bits of the SYM and BYTE forms are clear. -/
theorem low_clear (v : BitVec 8) : (0#16 ++ v : BitVec 24) &&& 0xFFFF00 = 0 := by
  revert v; decide

/-- The reserved bits of the SYMW form are clear. -/
theorem symw_clear (x : BitVec 8) (w : BitVec 3) : (0#13 ++ w ++ x : BitVec 24) &&& 0xFFF800 = 0 := by
  revert x w; decide

/-- The reserved bits of the WIDX form are clear. -/
theorem widx_clear (w : BitVec 3) : (0#21 ++ w : BitVec 24) &&& 0xFFFFF8 = 0 := by
  revert w; decide

/-- The reserved bits of the CODE form are clear. -/
theorem code_clear (x l : BitVec 8) : (0#8 ++ l ++ x : BitVec 24) &&& 0xFF0000 = 0 := by
  apply BitVec.eq_of_getLsbD_eq
  intro i hi
  have hx : (0#8 ++ l ++ x : BitVec 24).getLsbD i = if i < 8 then x.getLsbD i else (0#8 ++ l : BitVec 16).getLsbD (i - 8) :=
    BitVec.getLsbD_append
  have hl : (0#8 ++ l : BitVec 16).getLsbD (i - 8) = if i - 8 < 8 then l.getLsbD (i - 8) else (0#8).getLsbD (i - 8 - 8) :=
    BitVec.getLsbD_append
  have hm : ∀ j : Fin 16, (0xFF0000 : BitVec 24).getLsbD j = false := by decide
  rw [BitVec.getLsbD_and, hx, hl]
  by_cases h : i < 16
  · rw [hm ⟨i, h⟩, Bool.and_false]; simp
  · simp [show ¬ i < 8 by omega, show ¬ i - 8 < 8 by omega]

namespace WordShape

/-- The word of a command has its opcode on top, its operand field below, no reserved bit of its form set, and operands
that fit the form (30_encoding.md R80 to R85). -/
def Statement (i : Instr) : Prop :=
  opcField (encode i) = opcodeOf i ∧ (encode i).extractLsb' 0 24 = operandField i ∧
    formOf (opcodeOf i) = some i.form ∧ encode i &&& reservedMask i.form = 0 ∧ i.wellFormed = true

theorem nop : Statement .nop :=
  ⟨opcField_append _ _, operand_append _ _, rfl, reserved_append _ _ 0xFFFFFF (by rfl), rfl⟩

theorem clear : Statement .clear :=
  ⟨opcField_append _ _, operand_append _ _, rfl, reserved_append _ _ 0xFFFFFF (by rfl), rfl⟩

theorem errClear : Statement .errClear :=
  ⟨opcField_append _ _, operand_append _ _, rfl, reserved_append _ _ 0xFFFFFF (by rfl), rfl⟩

theorem count (x : Sym) : Statement (.count x) :=
  ⟨opcField_append _ _, operand_append _ _, rfl, reserved_append _ _ 0xFFFF00 (by exact low_clear x), decide_eq_true x.isLt⟩

theorem readFreq (x : Sym) : Statement (.readFreq x) :=
  ⟨opcField_append _ _, operand_append _ _, rfl, reserved_append _ _ 0xFFFF00 (by exact low_clear x), decide_eq_true x.isLt⟩

theorem buildTree : Statement .buildTree :=
  ⟨opcField_append _ _, operand_append _ _, rfl, reserved_append _ _ 0xFFFFFF (by rfl), rfl⟩

theorem genCodes : Statement .genCodes :=
  ⟨opcField_append _ _, operand_append _ _, rfl, reserved_append _ _ 0xFFFFFF (by rfl), rfl⟩

theorem readCodeLen (x : Sym) : Statement (.readCodeLen x) :=
  ⟨opcField_append _ _, operand_append _ _, rfl, reserved_append _ _ 0xFFFF00 (by exact low_clear x), decide_eq_true x.isLt⟩

theorem readCodeWord (x : Sym) (w : BitVec 3) : Statement (.readCodeWord x w) :=
  ⟨opcField_append _ _, operand_append _ _, rfl, reserved_append _ _ 0xFFF800 (by exact symw_clear x w), by simp [Instr.wellFormed, Instr.form, Instr.operands, operandsFit, x.isLt, w.isLt]⟩

theorem stageCodeWord (w : BitVec 3) : Statement (.stageCodeWord w) :=
  ⟨opcField_append _ _, operand_append _ _, rfl, reserved_append _ _ 0xFFFFF8 (by exact widx_clear w), decide_eq_true w.isLt⟩

theorem writeCode (x : Sym) (l : BitVec 8) : Statement (.writeCode x l) :=
  ⟨opcField_append _ _, operand_append _ _, rfl, reserved_append _ _ 0xFF0000 (by exact code_clear x l), by simp [Instr.wellFormed, Instr.form, Instr.operands, operandsFit, x.isLt, l.isLt]⟩

theorem encSym (x : Sym) : Statement (.encSym x) :=
  ⟨opcField_append _ _, operand_append _ _, rfl, reserved_append _ _ 0xFFFF00 (by exact low_clear x), decide_eq_true x.isLt⟩

theorem encFinish : Statement .encFinish :=
  ⟨opcField_append _ _, operand_append _ _, rfl, reserved_append _ _ 0xFFFFFF (by rfl), rfl⟩

theorem readOut (a : BitVec 24) : Statement (.readOut a) :=
  ⟨opcField_append _ _, operand_append _ _, rfl, reserved_append _ _ 0x000000 (by exact BitVec.and_zero), decide_eq_true a.isLt⟩

theorem inPush (b : Byte) : Statement (.inPush b) :=
  ⟨opcField_append _ _, operand_append _ _, rfl, reserved_append _ _ 0xFFFF00 (by exact low_clear b), decide_eq_true b.isLt⟩

theorem inClear : Statement .inClear :=
  ⟨opcField_append _ _, operand_append _ _, rfl, reserved_append _ _ 0xFFFFFF (by rfl), rfl⟩

theorem decode : Statement .decode :=
  ⟨opcField_append _ _, operand_append _ _, rfl, reserved_append _ _ 0xFFFFFF (by rfl), rfl⟩

end WordShape

/-- Every command is well-formed: the fields of `Instr` have the fields' widths (30_encoding.md R82). -/
theorem wellFormed_all (i : Instr) : i.wellFormed = true := by
  cases i <;> simp [Instr.wellFormed, Instr.form, Instr.operands, operandsFit] <;> omega

end Sys2Proof.Laws
end

