-- ==== Sys2Proof/Laws/Scan.lean ====
section
/-! SUPPORT. Laws of the reverse lookup and of the greedy scan (45_bit_unpacker.md R225). -/

namespace Sys2Proof.Machine

/-- A symbol that the lookup answers has the candidate as its code. -/
theorem matchCode_some {len val} {c : BitString} {x : Sym} (h : matchCode len val c = some x) :
    0 < c.length ∧ (symGet len x).toNat = c.length ∧ (symGet val x).toNat = bitsVal c := by
  have := List.find?_some h
  simpa [and_assoc] using this

theorem codeOf_of_matchCode {len val} {c : BitString} {x : Sym} (h : matchCode len val c = some x) :
    codeOf len val x = c := by
  obtain ⟨-, hl, hv⟩ := matchCode_some h
  rw [codeOf, hl, hv, bitsOf_bitsVal]

/-- Where the lookup answers nothing, no symbol has the candidate as its code. -/
theorem matchCode_none {len val} {c : BitString} (h : matchCode len val c = none) (hc : 0 < c.length) (x : Sym) :
    ¬ ((symGet len x).toNat = c.length ∧ (symGet val x).toNat = bitsVal c) := by
  have := List.find?_eq_none.1 h x (mem_allSyms x)
  simpa [hc] using this

/-- The lookup is `match` of 45_bit_unpacker.md R225: it answers exactly the symbol whose code the candidate is, given
invariant (b) of 10_state.md R39. -/
theorem matchCode_iff {s : State} (h : CodesInv s) {c : BitString} {x : Sym} :
    matchCode s.codeLen s.codeVal c = some x ↔
      0 < c.length ∧ (symGet s.codeLen x).toNat = c.length ∧ (symGet s.codeVal x).toNat = bitsVal c := by
  refine ⟨matchCode_some, fun ⟨hc, hl, hv⟩ => ?_⟩
  cases hm : matchCode s.codeLen s.codeVal c with
  | none => exact absurd ⟨hl, hv⟩ (matchCode_none hm hc x)
  | some y =>
    obtain ⟨-, hyl, hyv⟩ := matchCode_some hm
    by_contra hne
    refine h.distinct x y (fun e => hne (by rw [e])) (fun h0 => ?_) (BitVec.eq_of_toNat_eq (hl.trans hyl.symm))
      (BitVec.eq_of_toNat_eq (hv.trans hyv.symm))
    rw [h0] at hl; simp at hl; omega

@[simp] theorem length_codeOf (len val) (x : Sym) : (codeOf len val x).length = (symGet len x).toNat := by
  simp [codeOf]

/-- The lookup finds a symbol by its own code (10_state.md R39: the two mappings are inverses). -/
theorem matchCode_codeOf {s : State} (h : CodesInv s) {x : Sym} (hx : symGet s.codeLen x ≠ 0) :
    matchCode s.codeLen s.codeVal (codeOf s.codeLen s.codeVal x) = some x := by
  have hv : bitsVal (codeOf s.codeLen s.codeVal x) = (symGet s.codeVal x).toNat := by
    rw [codeOf, bitsVal_bitsOf, Nat.mod_eq_of_lt (h.small x)]
  have hpos : 0 < (symGet s.codeLen x).toNat := by
    rcases Nat.eq_zero_or_pos (symGet s.codeLen x).toNat with h0 | h0
    · exact absurd (BitVec.eq_of_toNat_eq (by simpa using h0)) hx
    · exact h0
  cases hm : matchCode s.codeLen s.codeVal (codeOf s.codeLen s.codeVal x) with
  | none => exact absurd ⟨(length_codeOf _ _ x).symm, hv.symm⟩ (matchCode_none hm (by simpa using hpos) x)
  | some y =>
    obtain ⟨-, hl, hw⟩ := matchCode_some hm
    rw [length_codeOf] at hl
    by_contra hne
    have hxy : x ≠ y := fun e => hne (by rw [e])
    exact h.distinct x y hxy hx (BitVec.eq_of_toNat_eq hl.symm) (BitVec.eq_of_toNat_eq (by rw [hw, hv]))

/-- While no prefix of the bits completes the candidate, the scan only collects them. -/
theorem scanBits_collect {look : BitString → Option Sym} {cap : Nat} (p rest c : BitString) (out : List Sym)
    (h : ∀ q, q ≠ [] → q <+: p → look (c ++ q) = none) :
    scanBits look cap (p ++ rest) c out = scanBits look cap rest (c ++ p) out := by
  induction p generalizing c with
  | nil => simp
  | cons b p ih =>
    have h1 : look (c ++ [b]) = none := h [b] (by simp) (by simp)
    rw [List.cons_append, scanBits, h1]
    simp only
    rw [ih (c ++ [b]) (fun q hq hp => by
      have := h (b :: q) (by simp) (by simpa using hp)
      simpa using this)]
    simp

/-- One whole code is scanned: its symbol is emitted if it fits, and the candidate is empty again. -/
theorem scanBits_code {look : BitString → Option Sym} {cap : Nat} (p rest : BitString) (x : Sym) (out : List Sym)
    (hp : p ≠ []) (hx : look p = some x) (h : ∀ q, q ≠ [] → q <+: p → q ≠ p → look q = none) :
    scanBits look cap (p ++ rest) [] out =
      if out.length = cap then .error .capacity else scanBits look cap rest [] (out ++ [x]) := by
  obtain ⟨q, b, rfl⟩ : ∃ q b, p = q ++ [b] := ⟨p.dropLast, p.getLast hp, (List.dropLast_append_getLast hp).symm⟩
  rw [List.append_assoc, scanBits_collect q ([b] ++ rest) [] out]
  · simp [scanBits, hx]
  · intro r hr hrq
    refine h r hr (hrq.trans (List.prefix_append q [b])) (fun e => ?_)
    have := hrq.length_le
    simp [e] at this

/-- A proper, non-empty part of a code of a prefix-free table matches nothing. -/
theorem matchCode_proper {s : State} (hpf : PrefixFree s.codeLen s.codeVal) {x : Sym} (hx : symGet s.codeLen x ≠ 0)
    {q : BitString} (hq : q <+: codeOf s.codeLen s.codeVal x) (hne : q ≠ codeOf s.codeLen s.codeVal x) :
    matchCode s.codeLen s.codeVal q = none := by
  cases hm : matchCode s.codeLen s.codeVal q with
  | none => rfl
  | some y =>
    have hy := codeOf_of_matchCode hm
    have hy0 : symGet s.codeLen y ≠ 0 := fun e => by
      have := (matchCode_some hm).2.1
      have := (matchCode_some hm).1
      simp_all
    have := hpf y x hy0 hx (by rw [hy]; exact hq)
    subst this
    exact absurd hy.symm hne

/-- With a prefix-free table the scan of the codes of a symbol sequence emits the sequence, as far as it fits. -/
theorem scanBits_encodeAll {s : State} (hc : CodesInv s) (hpf : PrefixFree s.codeLen s.codeVal) (cap : Nat) (t : List Sym)
    (ht : ∀ x ∈ t, symGet s.codeLen x ≠ 0) (rest : BitString) (out : List Sym) (hcap : out.length + t.length ≤ cap) :
    scanBits (matchCode s.codeLen s.codeVal) cap (encodeAll s.codeLen s.codeVal t ++ rest) [] out =
      scanBits (matchCode s.codeLen s.codeVal) cap rest [] (out ++ t) := by
  induction t generalizing out with
  | nil => simp [encodeAll]
  | cons x t ih =>
    have hx := ht x (by simp)
    have hne : codeOf s.codeLen s.codeVal x ≠ [] := fun e => hx (by
      have := congrArg List.length e
      exact BitVec.eq_of_toNat_eq (by simpa using this))
    rw [List.length_cons] at hcap
    have : encodeAll s.codeLen s.codeVal (x :: t) ++ rest =
        codeOf s.codeLen s.codeVal x ++ (encodeAll s.codeLen s.codeVal t ++ rest) := by simp [encodeAll]
    rw [this, scanBits_code _ _ x out hne (matchCode_codeOf hc hx) (fun q _ hq hqn => matchCode_proper hpf hx hq hqn),
      if_neg (by omega), ih (fun y hy => ht y (by simp [hy])) (out ++ [x]) (by simp; omega)]
    simp

/-- The scan emits at most OUT_CAP symbols. -/
theorem scanBits_length {look : BitString → Option Sym} {cap : Nat} (p c : BitString) (out res : List Sym)
    (hout : out.length ≤ cap) (h : scanBits look cap p c out = .ok res) : res.length ≤ cap := by
  induction p generalizing c out with
  | nil =>
    rw [scanBits] at h
    split at h
    · cases h; exact hout
    · cases h
  | cons b p ih =>
    rw [scanBits] at h
    split at h
    · split at h
      · cases h
      · exact ih _ _ (by simp; omega) h
    · exact ih _ _ hout h

/-- No code is longer than the longest. -/
theorem le_longest (len : Vector (BitVec 8) 256) (x : Sym) : (symGet len x).toNat ≤ longestCode len := by
  unfold longestCode
  have : ∀ (l : List Nat) a, a ∈ l → a ≤ l.foldr max 0 := by
    intro l; induction l with
    | nil => simp
    | cons b l ih => intro a ha; rcases List.mem_cons.1 ha with rfl | h
                     · simp
                     · have := ih a h; simp; right; exact this
  exact this _ _ (List.mem_map.2 ⟨x, mem_allSyms x, rfl⟩)

/-- A candidate longer than the longest code has no match (45_bit_unpacker.md R227). -/
theorem match_long {len val} {c : BitString} (h : longestCode len < c.length) : matchCode len val c = none := by
  cases hm : matchCode len val c with
  | none => rfl
  | some x => have := (matchCode_some hm).2.1; have := le_longest len x; omega

end Sys2Proof.Machine
end

