-- ==== Sys2Proof/Laws/Staging.lean ====
section
/-! SUPPORT. The value staged for WRITE_CODE is the sum of 10_state.md R40. -/

namespace Sys2Proof.Machine

/-- Eight words in base `b`. -/
theorem sum_base (b : Nat) (f : Nat → Nat) :
    ((List.range 8).map fun w => f w * b ^ w).sum =
      f 0 + f 1 * b + f 2 * b ^ 2 + f 3 * b ^ 3 + f 4 * b ^ 4 + f 5 * b ^ 5 + f 6 * b ^ 6 + f 7 * b ^ 7 := by
  simp [List.range_succ]; ring

/-- The staged value is the sum over the eight staging words (10_state.md R40). -/
theorem stagedValue_eq (s : State) : stagedValue s.codeStage = stagedSum s := by
  have h := sum_base (2 ^ 32) fun w => (stageGet s.codeStage (BitVec.ofNat 3 w)).toNat
  simp only [stagedSum, Nat.pow_mul]
  rw [h]
  simp only [← Nat.pow_mul]
  rfl

/-- The staged code is the low bits of the staged value (43_code_table.md R169). -/
theorem stagedCode_toNat (s : State) (l : BitVec 8) : (stagedCode s l).toNat = stagedSum s % 2 ^ l.toNat := by
  have h : stagedSum s % 2 ^ l.toNat < 2 ^ 256 :=
    Nat.lt_of_lt_of_le (Nat.mod_lt _ (Nat.two_pow_pos _)) (Nat.pow_le_pow_right (by omega) (by omega))
  rw [stagedCode, stagedValue_eq, BitVec.toNat_ofNat, Nat.mod_eq_of_lt h]

end Sys2Proof.Machine
end

