-- ==== Sys2Proof/Laws/Step.lean ====
section
/-! SUPPORT. One induction for every property that steps keep: it is enough to look at the fields of the agents, the
recording of an error, the aborts and the effect of each command, and that a reset gives it. -/

namespace Sys2Proof.Machine

/-- What a property must satisfy for every step to keep it. -/
structure Kept (P : State → Prop) : Prop where
  /-- The fields of the handshake and of the agents do not matter. -/
  fields : ∀ s b d p pd tu ho ph dr, P s →
    P { s with busy := b, data := d, pending := p, pendingData := pd, turns := tu, host := ho, phase := ph, draws := dr }
  /-- Error entry keeps it. -/
  record : ∀ s e opc, P s → P (recordErr e opc s)
  encodeAbort : ∀ s, P s → P (encodeAbort s)
  decodeAbort : ∀ s, P s → P (decodeAbort s)
  /-- The effect of every command keeps it. -/
  effect : ∀ i s t, P s → Effect i s t → P t

variable {P : State → Prop}

theorem Kept.enterErr (h : Kept P) {e : Err} {opc : BitVec 8} {cmd : Option Instr} {s : State} (hs : P s) :
    P (enterErr e opc cmd s) := by
  cases cmd with
  | none => exact h.record s e opc hs
  | some i =>
    rcases abortEffect_cases e i (recordErr e opc s) with ha | ⟨ha, -⟩ | ⟨ha, -⟩ <;>
      simp only [Machine.enterErr, ha]
    · exact h.record s e opc hs
    · exact h.encodeAbort _ (h.record s e opc hs)
    · exact h.decodeAbort _ (h.record s e opc hs)

/-- A command keeps a kept property. -/
theorem Kept.exec (h : Kept P) {i : Instr} {s t : State} (hs : P s) (ht : exec i s = .next t) : P t := by
  rcases exec_next ht with ⟨e, rfl⟩ | he
  · exact h.enterErr hs
  · exact h.effect i s t hs he

/-- A host write to a slot keeps a kept property. -/
theorem Kept.writeSlot (h : Kept P) (slot : Slot) (v : Word) {s : State} (hs : P s) : P (writeSlot slot v s) := by
  rcases writeSlot_cases slot v s with hw | hw | ⟨-, hw⟩ | ⟨-, hw⟩ <;> rw [hw]
  · exact hs
  · exact h.fields s s.busy v s.pending s.pendingData s.turns s.host s.phase s.draws hs
  · exact h.fields s true s.data v s.data s.turns s.host s.phase s.draws hs
  · exact h.record _ _ _ hs

theorem writeSlot_phase (slot : Slot) (v : Word) (s : State) : (Machine.writeSlot slot v s).phase = s.phase := by
  rcases writeSlot_cases slot v s with hw | hw | ⟨-, hw⟩ | ⟨-, hw⟩ <;> rw [hw]
  · rfl
  · rw [recordErr_eq]

/-- Every step keeps a kept property while the rules apply: what holds after a reset, and is kept, holds in every state after
a reset (70_reset_and_hazards.md R280, R282). -/
theorem Kept.step (h : Kept P) {s t : State} (hs : s.phase = .running → P s)
    (hr : ∀ ts n, P (resetCore { s with turns := ts, draws := n })) (ht : step s = .next t) (hp : t.phase = .running) : P t := by
  obtain ⟨u, ⟨ts, n, hu⟩, hcase⟩ := step_next ht
  have hpu : u.phase = .running → P u := by
    rw [hu]
    exact fun hph => h.fields s s.busy s.data s.pending s.pendingData ts s.host s.phase n (hs hph)
  rcases hcase with rfl | ⟨hc, v, hv, rfl⟩ | ⟨op, -, hop⟩ | rfl | rfl | ⟨-, rfl⟩
  · exact hpu hp
  · have hpu : P u := hpu (by rw [hu]; exact hc.1)
    have hpv : P v := by
      unfold executeWord at hv
      split at hv
      · cases hv; exact h.enterErr hpu
      · exact h.exec hpu hv
    exact h.fields v false v.data v.pending v.pendingData v.turns v.host v.phase v.draws hpv
  · rcases hostOp_next hop with ⟨g, rfl⟩ | ⟨addr, v, g, rfl⟩ | ⟨n, g, rfl⟩
    · exact h.fields u u.busy u.data u.pending u.pendingData u.turns g u.phase u.draws (hpu hp)
    · have hw := h.writeSlot (slotOfAddr u.cfg addr) v (hpu ((writeSlot_phase _ v u).symm.trans hp))
      revert hw
      generalize Machine.writeSlot (slotOfAddr u.cfg addr) v u = w
      exact fun hw => h.fields w w.busy w.data w.pending w.pendingData w.turns g w.phase w.draws hw
    · exact h.fields u u.busy u.data u.pending u.pendingData u.turns g u.phase n (hpu hp)
  · cases hp
  · cases hp
  · rw [hu]; exact hr ts n

/-- A run of commands keeps a kept property. -/
theorem Kept.run (h : Kept P) {is : List Instr} {s t : State} (hs : P s) (ht : runCommands is s = .next t) : P t := by
  induction is generalizing s with
  | nil => rw [runCommands] at ht; cases ht; exact hs
  | cons i is ih =>
    rw [runCommands] at ht
    split at ht
    · exact ih (h.exec hs (by assumption)) ht
    · cases ht
    · cases ht

/-- A sequence of commands, cut in two. -/
theorem run_append (a b : List Instr) (s v : State) : runCommands (a ++ b) s = .next v ↔ ∃ u, runCommands a s = .next u ∧ runCommands b u = .next v := by
  induction a generalizing s with
  | nil => simp [runCommands]
  | cons i a ih =>
    simp only [List.cons_append, runCommands]
    cases exec i s <;> simp [ih]

end Sys2Proof.Machine
end

