-- ==== Sys2Proof/Laws/Walk.lean ====
section
/-! SUPPORT. Laws of the path walk (43_code_table.md R162). -/

namespace Sys2Proof.Machine

/-- The entry of symbol `x` in `t` is the path `p`. -/
def HasPath (t : CodeTable) (x : Sym) (p : BitString) : Prop :=
  symGet t.len x = BitVec.ofNat 8 p.length ∧ symGet t.val x = BitVec.ofNat 256 (bitsVal p)

theorem recordCode_self (t : CodeTable) (x : Sym) (p : BitString) : HasPath (recordCode t x p) x p := by
  simp [HasPath, recordCode]

theorem recordCode_other (t : CodeTable) {x y : Sym} (p : BitString) (h : y ≠ x) :
    symGet (recordCode t x p).len y = symGet t.len y ∧ symGet (recordCode t x p).val y = symGet t.val y := by
  simp [recordCode, symGet_symSet_ne _ _ h]

theorem walkFrom_leaf {node : Nat → Node} {n : Nat} {x : Sym} {f : Word} (h : node n = .leaf x f) {p : BitString} {m : Node}
    (hw : walkFrom node n p = some m) : p = [] ∧ m = .leaf x f := by
  cases p with
  | nil => simpa [walkFrom, h, eq_comm] using hw
  | cons b p => simp [walkFrom, h] at hw

/-- What the walk does to the entry of one symbol: it is left, or it is the path to a leaf of that symbol. -/
theorem visit_entry {node : Nat → Node} (fuel n : Nat) (p : BitString) (t t' : CodeTable)
    (h : visit node fuel n p t = some t') (x : Sym) :
    (symGet t'.len x = symGet t.len x ∧ symGet t'.val x = symGet t.val x) ∨
      ∃ q f, walkFrom node n q = some (.leaf x f) ∧ q.length ≤ fuel ∧ HasPath t' x (p ++ q) := by
  induction fuel generalizing n p t t' with
  | zero =>
    unfold visit at h
    split at h
    · rename_i y f hn
      cases h
      by_cases hx : x = y
      · subst hx
        exact .inr ⟨[], f, by simp [walkFrom, hn], by simp, by simpa using recordCode_self t x p⟩
      · exact .inl (recordCode_other t p hx)
    · cases h
  | succ fuel ih =>
    unfold visit at h
    split at h
    · rename_i y f hn
      cases h
      by_cases hx : x = y
      · subst hx
        exact .inr ⟨[], f, by simp [walkFrom, hn], by simp, by simpa using recordCode_self t x p⟩
      · exact .inl (recordCode_other t p hx)
    · rename_i f l r hn
      obtain ⟨t1, h1, h2⟩ := Option.bind_eq_some_iff.1 h
      rcases ih _ _ _ _ h2 with hr | ⟨q, g, hw, hl, hp⟩
      · rcases ih _ _ _ _ h1 with hl' | ⟨q, g, hw, hl, hp⟩
        · exact .inl ⟨hr.1.trans hl'.1, hr.2.trans hl'.2⟩
        · refine .inr ⟨false :: q, g, by simp [walkFrom, hn, hw], by simp; omega, ?_⟩
          simp only [HasPath, hr.1, hr.2]
          simpa [HasPath] using hp
      · exact .inr ⟨true :: q, g, by simp [walkFrom, hn, hw], by simp; omega, by simpa using hp⟩

/-- A leaf that a path reaches has its symbol recorded, with some path to a leaf of that symbol. -/
theorem visit_reaches {node : Nat → Node} (fuel n : Nat) (p : BitString) (t t' : CodeTable)
    (h : visit node fuel n p t = some t') (x : Sym) (q : BitString) (f : Word)
    (hq : walkFrom node n q = some (.leaf x f)) :
    ∃ q' f', walkFrom node n q' = some (.leaf x f') ∧ q'.length ≤ fuel ∧ HasPath t' x (p ++ q') := by
  induction fuel generalizing n p t t' q with
  | zero =>
    unfold visit at h
    split at h
    · rename_i y g hn
      cases h
      obtain ⟨rfl, hm⟩ := walkFrom_leaf hn hq
      cases hm
      exact ⟨[], f, hq, by simp, by simpa using recordCode_self t x p⟩
    · cases h
  | succ fuel ih =>
    unfold visit at h
    split at h
    · rename_i y g hn
      cases h
      obtain ⟨rfl, hm⟩ := walkFrom_leaf hn hq
      cases hm
      exact ⟨[], f, hq, by simp, by simpa using recordCode_self t x p⟩
    · rename_i g l r hn
      obtain ⟨t1, h1, h2⟩ := Option.bind_eq_some_iff.1 h
      cases q with
      | nil => simp [walkFrom, hn] at hq
      | cons b q =>
        simp only [walkFrom, hn] at hq
        have right : ∀ q' f', walkFrom node r.toNat q' = some (.leaf x f') → q'.length ≤ fuel →
            HasPath t' x (p ++ [true] ++ q') →
            ∃ q' f', walkFrom node n q' = some (.leaf x f') ∧ q'.length ≤ fuel + 1 ∧ HasPath t' x (p ++ q') :=
          fun q' f' hw hl hp =>
            ⟨true :: q', f', by simp [walkFrom, hn, hw], by simp; omega, by simpa using hp⟩
        cases b with
        | true =>
          obtain ⟨q', f', hw, hl, hp⟩ := ih _ _ _ _ h2 q (by simpa using hq)
          exact right q' f' hw hl hp
        | false =>
          obtain ⟨q', f', hw, hl, hp⟩ := ih _ _ _ _ h1 q (by simpa using hq)
          rcases visit_entry _ _ _ _ _ h2 x with he | ⟨q2, f2, hw2, hl2, hp2⟩
          · refine ⟨false :: q', f', by simp [walkFrom, hn, hw], by simp; omega, ?_⟩
            simp only [HasPath, he.1, he.2]
            simpa [HasPath] using hp
          · exact right q2 f2 hw2 hl2 hp2

/-- The walk ends when no path of `fuel` edges leads to an internal node. -/
theorem visit_isSome {node : Nat → Node} (fuel n : Nat) (p : BitString) (t : CodeTable)
    (h : ∀ q f l r, walkFrom node n q = some (.branch f l r) → q.length < fuel) :
    ∃ t', visit node fuel n p t = some t' := by
  induction fuel generalizing n p t with
  | zero =>
    unfold visit
    split
    · exact ⟨_, rfl⟩
    · rename_i f l r hn
      exact absurd (h [] f l r (by simp [walkFrom, hn])) (by simp)
  | succ fuel ih =>
    unfold visit
    split
    · exact ⟨_, rfl⟩
    · rename_i f l r hn
      obtain ⟨t1, h1⟩ := ih l.toNat (p ++ [false]) t (fun q f' l' r' hq => by
        have := h (false :: q) f' l' r' (by simp [walkFrom, hn, hq])
        simpa using this)
      obtain ⟨t2, h2⟩ := ih r.toNat (p ++ [true]) t1 (fun q f' l' r' hq => by
        have := h (true :: q) f' l' r' (by simp [walkFrom, hn, hq])
        simpa using this)
      exact ⟨t2, by simp [h1, h2]⟩

/-- A path that leads to a leaf is no proper part of a path that leads anywhere. -/
theorem walkFrom_prefix {node : Nat → Node} (n : Nat) (p q : BitString) {x : Sym} {f : Word} {m : Node}
    (hp : walkFrom node n p = some (.leaf x f)) (hq : walkFrom node n q = some m) (h : p <+: q) :
    p = q ∧ m = .leaf x f := by
  induction p generalizing n q with
  | nil =>
    have hn : node n = .leaf x f := by simpa [walkFrom] using hp
    obtain ⟨rfl, hm⟩ := walkFrom_leaf hn hq
    exact ⟨rfl, hm⟩
  | cons b p ih =>
    cases q with
    | nil => simp at h
    | cons c q =>
      obtain ⟨rfl, hpq⟩ := List.cons_prefix_cons.1 h
      simp only [walkFrom] at hp hq
      split at hp
      · cases hp
      · rename_i g l r hn
        rw [hn] at hq
        obtain ⟨e, hm⟩ := ih _ _ hp hq hpq
        exact ⟨by rw [e], hm⟩

/-- What the table of a tree holds: no code, or the code "0" for the symbol of a tree of one leaf, or the path
to a leaf of the symbol. -/
theorem tableOfTree_entry {node : Nat → Node} {root : Nat} {t : CodeTable} (h : tableOfTree node root = some t) (x : Sym) :
    (symGet t.len x = 0 ∧ symGet t.val x = 0) ∨ ∃ q, 1 ≤ q.length ∧ q.length ≤ Config.maxCodeLen ∧ HasPath t x q ∧
      ((∃ f, node root = .leaf x f ∧ q = [false]) ∨ ∃ f, walkFrom node root q = some (.leaf x f)) := by
  unfold tableOfTree at h
  split at h
  · rename_i y f hn
    cases h
    by_cases hx : x = y
    · subst hx
      exact .inr ⟨[false], by simp, by simp [Config.maxCodeLen], recordCode_self _ _ _, .inl ⟨f, hn, rfl⟩⟩
    · obtain ⟨h1, h2⟩ := recordCode_other emptyTable [false] hx
      exact .inl ⟨by simpa [emptyTable] using h1, by simpa [emptyTable] using h2⟩
  · rename_i f l r hn
    rcases visit_entry _ _ _ _ _ h x with ⟨h1, h2⟩ | ⟨q, g, hw, hl, hp⟩
    · exact .inl ⟨by simpa [emptyTable] using h1, by simpa [emptyTable] using h2⟩
    · refine .inr ⟨q, ?_, hl, by simpa using hp, .inr ⟨g, hw⟩⟩
      cases q with
      | nil => simp [walkFrom, hn] at hw
      | cons _ _ => simp

/-- The code an entry stands for is its path. -/
theorem codeOf_of_hasPath {t : CodeTable} {x : Sym} {p : BitString} (hp : p.length ≤ Config.maxCodeLen)
    (h : HasPath t x p) : codeOf t.len t.val x = p := by
  have hl : p.length < 256 := by simp [Config.maxCodeLen] at hp; omega
  have hv : bitsVal p < 2 ^ 256 := Nat.lt_of_lt_of_le (bitsVal_lt p) (Nat.pow_le_pow_right (by omega) (by omega))
  rw [codeOf, h.1, h.2, BitVec.toNat_ofNat, BitVec.toNat_ofNat, Nat.mod_eq_of_lt hl, Nat.mod_eq_of_lt hv, bitsOf_bitsVal]

end Sys2Proof.Machine
end

