-- ==== Sys2Proof/Laws/Tree.lean ====
section
/-! SUPPORT. Laws of a built tree: every node is reached from ROOT, its leaves are the symbols counted, and unlisted nodes do
not matter (42_tree_builder.md R145, 43_code_table.md R162). -/

namespace Sys2Proof.Machine

/-- The builder writes no entry at or above `next` (42_tree_builder.md R141). -/
theorem buildWith_above (choose : Nat → Nat) (s : State) (h : presentSyms s.freq ≠ []) (t) (ht : buildWith choose s = some t) :
    ∀ i, t.next ≤ i → storeGet t.nodes i = storeGet s.nodes i := by
  have hpos : 0 < (presentSyms s.freq).length := List.length_pos_iff.2 h
  obtain ⟨t', h1, h2, h3, h4⟩ := mergeLoop_induction (tie := s.cfg.tie) (choose := choose) (k := s.draws)
    (fun t => ∀ i, t.next ≤ i → storeGet t.nodes i = storeGet s.nodes i)
    (fun t t' hP _ hm => by
      obtain ⟨a, b, -, -, hpq, hn, hno⟩ := mergeOnce_spec hm
      intro i hi; rw [hno, storeGet_put_ne _ _ (by omega)]; exact hP i (by omega))
    (leavesOf s.freq).length (builderStart s) (by
      intro i hi; simp [builderStart] at hi ⊢; rw [storeGet_putFrom, if_neg]; simp; omega) (by simpa [builderStart] using hpos)
    (by simp [builderStart])
  rw [buildWith, h1] at ht; cases ht; exact h2

/-- Every node of a built tree is reached from ROOT. -/
theorem BuiltTree.reach {s : State} (h : BuiltTree s) (k : Nat) : ∀ d i, i < s.nnodes → d = s.root - i → ∃ p, walkFrom (nodeAt s.nodes k) s.root p = some (nodeAt s.nodes k i) := by
  have happ : ∀ (p : BitString) (n j : Nat) (b : Bool) (f l r), walkFrom (nodeAt s.nodes k) n p = some (.branch f l r) → ∀ m, (if b then r.toNat else l.toNat) = m → walkFrom (nodeAt s.nodes k) n (p ++ [b]) = some (nodeAt s.nodes k m) := by
    intro p
    induction p with
    | nil => intro n j b f l r hw m hm; simp [walkFrom] at hw ⊢; rw [hw]; simp [hm]
    | cons c p ih =>
      intro n j b f l r hw m hm
      simp only [walkFrom, List.cons_append] at hw ⊢
      split at hw
      · cases hw
      · exact ih _ j b f l r hw m hm
  intro d
  induction d using Nat.strong_induction_on with
  | _ d ih =>
    intro i hi hd
    have hr := h.root
    by_cases hir : i = s.root
    · subst hir; exact ⟨[], by simp [walkFrom]⟩
    · obtain ⟨j, ⟨hj, f, l, r, hs, hc⟩, -⟩ := h.parent i hi hir
      have hnode : nodeAt s.nodes k j = .branch f l r := by simp [nodeAt, hs]
      have hlt : i < j := by
        rcases h.node hj with ⟨-, x, g, hs', -⟩ | ⟨-, f', l', r', hs', h1, h2⟩
        · rw [hs] at hs'; cases hs'
        · rw [hs] at hs'; cases hs'; omega
      obtain ⟨p, hp⟩ := ih (s.root - j) (by omega) j hj rfl
      rw [hnode] at hp
      rcases hc with hc | hc
      · exact ⟨p ++ [false], happ p _ 0 false f l r hp i (by simpa using hc)⟩
      · exact ⟨p ++ [true], happ p _ 0 true f l r hp i (by simpa using hc)⟩

/-- A counted symbol has its leaf. -/
theorem leaf_index {s : State} (hc : CountsInv s) (h : BuiltTree s) (x : Sym) (hx : symGet s.freq x ≠ 0) :
    ∃ i, i < s.nsym ∧ storeGet s.nodes i = some (.leaf x (symGet s.freq x)) := by
  have : Node.leaf x (symGet s.freq x) ∈ leavesOf s.freq := by
    rw [leavesOf_eq_map]; exact List.mem_map.2 ⟨x, mem_present.2 hx, rfl⟩
  obtain ⟨i, hi, e⟩ := List.mem_iff_getElem.1 this
  have hi' : i < s.nsym := by rw [hc.nsym, ← length_leavesOf]; exact hi
  refine ⟨i, hi', ?_⟩
  obtain ⟨n, hn, hl⟩ := h.leaves i hi'
  rw [List.getElem?_eq_getElem hi, e] at hl; cases hl; exact hn

/-- A leaf that a path reaches is a counted symbol with its count. -/
theorem leaf_sym {s : State} (h : BuiltTree s) (k p x f) (hw : walkFrom (nodeAt s.nodes k) s.root p = some (.leaf x f)) : f = symGet s.freq x ∧ f ≠ 0 := by
  have hr := h.root
  obtain ⟨i, hi, -, hs⟩ := h.walk k p s.root (by omega) hw
  rcases h.node hi with ⟨-, y, g, hs', hL⟩ | ⟨-, f', l, r, hs', -⟩
  · rw [hs] at hs'; cases hs'
    have := List.mem_of_getElem? hL
    rw [leavesOf_eq_map] at this
    obtain ⟨z, hz, e⟩ := List.mem_map.1 this
    cases e; exact ⟨rfl, mem_present.1 hz⟩
  · rw [hs] at hs'; cases hs'

/-- The walk of a built tree reads listed nodes only. -/
theorem visit_congr {s : State} (h : BuiltTree s) (k k' : Nat) (fuel n : Nat) (hn : n < s.nnodes) (p : BitString) (t : CodeTable) :
    visit (nodeAt s.nodes k) fuel n p t = visit (nodeAt s.nodes k') fuel n p t := by
  induction fuel generalizing n p t with
  | zero =>
    rcases h.node hn with ⟨-, x, f, hs, -⟩ | ⟨-, f, l, r, hs, h1, h2⟩ <;> simp [visit, nodeAt, hs]
  | succ fuel ih =>
    rcases h.node hn with ⟨-, x, f, hs, -⟩ | ⟨-, f, l, r, hs, h1, h2⟩
    · simp [visit, nodeAt, hs]
    · have e : ∀ k, nodeAt s.nodes k n = .branch f l r := fun k => by simp [nodeAt, hs]
      rw [visit, visit, e k, e k']
      simp only
      rw [ih l.toNat (by omega)]
      congr 1
      funext t1
      exact ih r.toNat (by omega) _ _

/-- The table of a built tree does not depend on the draw behind unlisted nodes. -/
theorem table_congr {s : State} (h : BuiltTree s) (k k' : Nat) :
    tableOfTree (nodeAt s.nodes k) s.root = tableOfTree (nodeAt s.nodes k') s.root := by
  have hr := h.root
  rcases h.node (i := s.root) (by omega) with ⟨-, x, f, hs, -⟩ | ⟨-, f, l, r, hs, h1, h2⟩
  · simp [tableOfTree, nodeAt, hs]
  · have e : ∀ k, nodeAt s.nodes k s.root = .branch f l r := fun k => by simp [nodeAt, hs]
    rw [tableOfTree, tableOfTree, e k, e k']
    exact visit_congr h k k' _ _ (by omega) _ _

/-- A built tree depends on these fields only. -/
theorem BuiltTree.congr {s t : State} (h : BuiltTree s) (h1 : t.nsym = s.nsym) (h2 : t.nnodes = s.nnodes) (h3 : t.root = s.root) (h4 : t.pq = s.pq)
    (h5 : t.nodes = s.nodes) (h6 : t.freq = s.freq) : BuiltTree t := by
  refine ⟨?_, ?_, ?_, ?_, ?_, ?_, ?_⟩ <;> simp only [h1, h2, h3, h4, h5, h6]
  exacts [h.nonempty, h.count, h.root, h.queue, h.leaves, h.inner, h.parent]

end Sys2Proof.Machine
end

