-- ==== Sys2Proof/Tests/Slice0.lean ====
section
/-! SUPPORT. Tests: the checks of WellFormed, decoding from words written out from the spec, one or two steps of every
command with the spec's own vectors (95_test_vectors.md, cited as V-...), and a witness for the hypotheses of every
obligation. -/

namespace Sys2Proof.Tests

open Sys2Proof.Machine

/-! ## WellFormed: what each check refuses (30_encoding.md R81, R82, R89; 00_scope.md R7) -/

theorem test_fit_none : operandsFit .none [] = true ∧ operandsFit .none [0] = false := by decide
theorem test_fit_sym : operandsFit .sym [255] = true ∧ operandsFit .sym [256] = false ∧ operandsFit .sym [] = false := by
  decide
theorem test_fit_byte : operandsFit .byte [255] = true ∧ operandsFit .byte [256] = false := by decide
theorem test_fit_symw :
    operandsFit .symw [255, 7] = true ∧ operandsFit .symw [255, 8] = false ∧ operandsFit .symw [256, 7] = false := by decide
theorem test_fit_widx : operandsFit .widx [7] = true ∧ operandsFit .widx [8] = false := by decide
theorem test_fit_code :
    operandsFit .code [255, 255] = true ∧ operandsFit .code [0, 256] = false ∧ operandsFit .code [256, 0] = false := by decide
theorem test_fit_addr : operandsFit .addr [0xFFFFFF] = true ∧ operandsFit .addr [0x1000000] = false := by decide
theorem test_config_wf : Config.default.wf = true := by decide
theorem test_config_in_zero : { Config.default with inCap := 0 }.wf = false := by decide
theorem test_config_in_large : { Config.default with inCap := 2 ^ 24 + 1 }.wf = false := by decide
theorem test_config_out_one : { Config.default with outCap := 1 }.wf = false := by decide
theorem test_config_out_large : { Config.default with outCap := 2 ^ 24 + 1 }.wf = false := by decide

/-! ## Decoding: every command from its word (30_encoding.md R80, R81, R83; V-DEC-1 to V-DEC-15) -/

theorem test_decode_nop : decodeWord 0x00000000 = .ok .nop := by decide
theorem test_decode_clear : decodeWord 0x01000000 = .ok .clear := by decide
theorem test_decode_errClear : decodeWord 0x02000000 = .ok .errClear := by decide
theorem test_decode_count : decodeWord 0x100000FF = .ok (.count 0xFF) := by decide
theorem test_decode_readFreq : decodeWord 0x11000061 = .ok (.readFreq 0x61) := by decide
theorem test_decode_buildTree : decodeWord 0x20000000 = .ok .buildTree := by decide
theorem test_decode_genCodes : decodeWord 0x21000000 = .ok .genCodes := by decide
theorem test_decode_readCodeLen : decodeWord 0x22000072 = .ok (.readCodeLen 0x72) := by decide
theorem test_decode_readCodeWord : decodeWord 0x23000764 = .ok (.readCodeWord 0x64 7) := by decide
theorem test_decode_stageCodeWord : decodeWord 0x24000007 = .ok (.stageCodeWord 7) := by decide
theorem test_decode_writeCode : decodeWord 0x2500FF41 = .ok (.writeCode 0x41 255) := by decide
theorem test_decode_encSym : decodeWord 0x30000061 = .ok (.encSym 0x61) := by decide
theorem test_decode_encFinish : decodeWord 0x31000000 = .ok .encFinish := by decide
theorem test_decode_readOut : decodeWord 0x32FFFFFF = .ok (.readOut 0xFFFFFF) := by decide
theorem test_decode_inPush : decodeWord 0x400000AB = .ok (.inPush 0xAB) := by decide
theorem test_decode_inClear : decodeWord 0x41000000 = .ok .inClear := by decide
theorem test_decode_decode : decodeWord 0x50000000 = .ok .decode := by decide

/-- The same word bit by bit: OPC = 0010 0011, zeros, w = 110, s = 0110 0100 (30_encoding.md R80, R81). -/
theorem test_decode_bits :
    decodeWord (0b00100011#8 ++ 0b0000000000000#13 ++ 0b110#3 ++ 0b01100100#8) = .ok (.readCodeWord 0x64 6) := by decide

theorem test_illegal_none : decodeWord 0x00000001 = .error (.reservedBits 0x00) := by decide
theorem test_illegal_sym : decodeWord 0x10000100 = .error (.reservedBits 0x10) := by decide
theorem test_illegal_byte : decodeWord 0x40000100 = .error (.reservedBits 0x40) := by decide
theorem test_illegal_symw : decodeWord 0x23000864 = .error (.reservedBits 0x23) := by decide
theorem test_illegal_widx : decodeWord 0x24000008 = .error (.reservedBits 0x24) := by decide
theorem test_illegal_code : decodeWord 0x25010041 = .error (.reservedBits 0x25) := by decide
theorem test_illegal_opcodes :
    decodeWord 0x26000000 = .error (.unassignedOpcode 0x26) ∧ decodeWord 0x51000000 = .error (.unassignedOpcode 0x51) ∧
      decodeWord 0xFF000000 = .error (.unassignedOpcode 0xFF) := by decide

/-- 30_encoding.md R89: a line of the command language and its word. -/
theorem test_assemble :
    (tokensOf "write_code 'A', 0xFF ; x".toList [] false).bind assembleCommand = some 0x2500FF41 := by decide

/-- Blanks separate tokens (log entry 23): a tab as a space does. -/
theorem test_assemble_tab : (tokensOf "count\t1 ".toList [] false).bind assembleCommand = some 0x10000001 := by decide

/-- P3: the program's `t` is not the `t` of the pseudo-instructions. -/
theorem test_assemble_own_t :
    (assembleProgram 0 ["rd STATUS -> t".toList, "poll".toList]).map (fun p => p 0) =
      some [.rd 32 8 (nameVar 0), .rd 32 8 statusVar, .bnz statusVar 0 1] := by decide
/-- R89: an operand that does not fit is an assembly error. -/
theorem test_assemble_read_out_too_far : (readOutAll 0 (2 ^ 24 + 1) id).isNone = true := by decide
/-- R90: the expansion of `read_out` reads into v[a], the variable a program names so. -/
theorem test_assemble_elem :
    (assembleProgram 0 ["rd RESP -> v[3]".toList, "L: bnz v[3], 8, L".toList]).map (fun p => p 0) =
      some [.rd 32 0x0C (elemVar 2 0 3), .bnz (elemVar 2 0 3) 8 1] ∧
    (assembleProgram 0 ["rd RESP -> v[x]".toList]).isNone = true := by decide
theorem test_assemble_label_twice : (assembleProgram 0 ["L: NOP".toList, "L: NOP".toList]).isNone = true := by decide

/-! ## States -/

/-- The outcome is a next state with this property. -/
def holds (o : Out) (p : State → Bool) : Bool :=
  match o with
  | .next t => p t
  | .fault _ => false
  | .refused _ => false

theorem next_of_holds {o : Out} {p : State → Bool} (h : holds o p = true) : ∃ t, o = .next t ∧ p t = true := by
  cases o with
  | next t => exact ⟨t, rfl, h⟩
  | fault _ => exact absurd h (by simp [holds])
  | refused _ => exact absurd h (by simp [holds])

/-- The reset state (S0 of the vectors). -/
def s0 : State := State.reset

/-- After one COUNT of 'a' and one of 'b'. -/
def counted : State :=
  { s0 with freq := symSet (symSet s0.freq 0x61 1) 0x62 1, total := 2, nsym := 2 }

/-- After BUILD_TREE on that (V-TB-2). -/
def tree2 : State :=
  { counted with
    nodes := [(0, .leaf 0x61 1), (1, .leaf 0x62 1), (2, .branch 2 0 1)], nnodes := 3, root := 2, pq := [2], treeValid := true }

/-- A table with 'a' = "0" (V-UP-17). -/
def tableA : State := { s0 with codeLen := symSet s0.codeLen 0x61 1, codesValid := true }

/-- The table 'a' = "0", 'b' = "1". -/
def tableAB : State :=
  { tableA with codeLen := symSet tableA.codeLen 0x62 1, codeVal := symSet s0.codeVal 0x62 1 }

/-- A state with input bytes. -/
def withInput (s : State) (m : Memory) : State := { s with inMem := m, inLen := m.length }

/-- A state with small capacities. -/
def withCaps (s : State) (i o : Nat) : State := { s with cfg := { s.cfg with inCap := i, outCap := o } }

/-! ## One or two steps of every command -/

theorem test_nop : holds (exec .nop { s0 with data := 7 }) (fun t => t.data = 7 && t.err = 0) = true := by decide
/-- V-CTL-4. -/
theorem test_clear :
    holds (exec .clear { tree2 with err := 3 }) (fun t => statusWord t = 0 && t.total = 0 && symGet t.freq 0x61 = 0) = true := by
  decide
/-- V-CTL-2. -/
theorem test_errClear : holds (exec .errClear { tree2 with err := 1, errOpc := 3 }) (fun t => statusWord t = 2) = true := by
  decide
/-- V-FC-1. -/
theorem test_count :
    holds (exec (.count 0x61) counted) (fun t => symGet t.freq 0x61 = 2 && t.total = 3 && t.nsym = 2) = true := by decide
/-- V-FC-6. -/
theorem test_count_sequence : holds (exec (.count 0x61) tree2) (fun t => statusWord t = 0x00100202 && t.total = 2) = true := by
  decide
theorem test_readFreq : holds (exec (.readFreq 0x62) counted) (fun t => t.resp = 1) = true := by decide
/-- V-TB-2. -/
theorem test_buildTree :
    holds (exec .buildTree counted) (fun t => t.nodes = tree2.nodes && t.root = 2 && t.nnodes = 3 && t.pq = [2]) = true := by
  decide +kernel
/-- V-TB-5. -/
theorem test_buildTree_empty : holds (exec .buildTree s0) (fun t => statusWord t = 0x00200400) = true := by decide
/-- S_ab: 'a' = "0", 'b' = "1". -/
theorem test_genCodes :
    holds (exec .genCodes tree2) (fun t => symGet t.codeLen 0x61 = 1 && symGet t.codeVal 0x61 = 0 &&
      symGet t.codeLen 0x62 = 1 && symGet t.codeVal 0x62 = 1 && symGet t.codeLen 0x63 = 0) = true := by decide
/-- V-CT-4. -/
theorem test_genCodes_sequence : holds (exec .genCodes s0) (fun t => statusWord t = 0x00210200) = true := by decide
theorem test_readCodeLen : holds (exec (.readCodeLen 0x62) tableAB) (fun t => t.resp = 1) = true := by decide
/-- V-CT-5: a code that crosses into word 1. -/
theorem test_readCodeWord :
    holds (exec (.readCodeWord 0x42 1) { s0 with codeVal := symSet s0.codeVal 0x42 0x1FFFFFFFE }) (fun t => t.resp = 1) =
      true := by decide
/-- V-CTL-8: the latched data counts, not DATA. -/
theorem test_stageCodeWord :
    holds (exec (.stageCodeWord 7) { s0 with data := 9, pendingData := 5 }) (fun t => stageGet t.codeStage 7 = 5) = true := by
  decide
/-- V-CT-8. -/
theorem test_writeCode :
    holds (exec (.writeCode 0x41 3) { s0 with codeStage := Vector.replicate 8 0xFFFFFFFF })
      (fun t => symGet t.codeLen 0x41 = 3 && symGet t.codeVal 0x41 = 7 && t.codesValid) = true := by decide +kernel
/-- V-CT-6. -/
theorem test_writeCode_duplicate :
    holds (exec (.writeCode 0x64 1) tableA) (fun t => statusWord t = 0x00250804 && symGet t.codeLen 0x64 = 0) = true := by decide
/-- V-PK-12: a new stream is started. -/
theorem test_encSym :
    holds (exec (.encSym 0x62) { tableAB with outValid := true, outLen := 2 })
      (fun t => t.encStream = [true] && t.encBits = 1 && t.outLen = 0 && statusWord t = 0x0000000C) = true := by decide
/-- V-PK-7. -/
theorem test_encSym_unknown :
    holds (exec (.encSym 0x63) { tableAB with encActive := true, encStream := [true], encBits := 1 })
      (fun t => statusWord t = 0x00300604 && t.encStream = [] && t.encBits = 0) = true := by decide
/-- V-PK-4: eight bits take a full byte of padding. -/
theorem test_encFinish :
    holds (exec .encFinish
        { tableAB with encActive := true, encBits := 8, encStream := [false, true, false, true, false, true, false, true] })
      (fun t => t.outMem = [(0, 0x08), (1, 0x55), (2, 0x00)] && t.outLen = 3 && t.pad = 8 && t.encBits = 8) = true := by decide
/-- V-PK-6: the empty stream. -/
theorem test_encFinish_empty :
    holds (exec .encFinish tableAB) (fun t => t.outMem = [(0, 0x08), (1, 0x00)] && t.outLen = 2 && t.encBits = 0) = true := by
  decide
/-- V-PK-10. -/
theorem test_readOut :
    holds (exec (.readOut 1) { s0 with outMem := [(0, 0x06), (1, 0x40)], outLen := 2, outValid := true })
      (fun t => t.resp = 0x40) = true := by decide
theorem test_readOut_beyond :
    holds (exec (.readOut 2) { s0 with outMem := [(0, 0x06), (1, 0x40)], outLen := 2, outValid := true })
      (fun t => statusWord t = 0x00320310 && t.resp = 0) = true := by decide
theorem test_inPush :
    holds (exec (.inPush 0xAB) (withInput s0 [(0, 1)])) (fun t => t.inMem = [(0, 1), (1, 0xAB)] && t.inLen = 2) = true := by decide
/-- V-UP-18. -/
theorem test_inPush_full :
    holds (exec (.inPush 3) (withCaps (withInput s0 [(0, 1), (1, 2)]) 2 2))
      (fun t => statusWord t = 0x00400700 && t.inLen = 2) = true := by decide
theorem test_inClear : holds (exec .inClear (withInput s0 [(0, 1)])) (fun t => t.inLen = 0 && t.inMem = []) = true := by decide
/-- V-UP-15 on a shorter stream: header 6, then "01" and padding. -/
theorem test_decode :
    holds (exec .decode (withInput tableAB [(0, 0x06), (1, 0x40)]))
      (fun t => t.outMem = [(0, 0x61), (1, 0x62)] && t.outLen = 2 && t.pad = 6 && statusWord t = 0x00000034) = true := by decide
/-- V-UP-17: CAPACITY pre-empts CORRUPT_LEFTOVER. -/
theorem test_decode_capacity :
    holds (exec .decode (withCaps (withInput tableA [(0, 0x04), (1, 0x10)]) 2 2)) (fun t => statusWord t = 0x00500704) = true := by
  decide

/-- V-CTL-3: a write while BUSY is an overrun and drops the word. -/
theorem test_overrun :
    holds (hostOp (.wr 32 0 0x10000062) { s0 with busy := true, pending := 0x10000061 })
      (fun t => statusWord t = 0x00100B01 && t.pending = 0x10000061) = true := by decide
/-- V-CTL-2: the gate drops a COUNT. -/
theorem test_gate :
    holds (hostOp (.wr 32 0 0x10000061) { s0 with err := 1, errOpc := 3 }) (fun t => statusWord t = 0x00030100) = true := by decide

/-- R23: ID and the capacities through the window. -/
theorem test_read_constants :
    slotValue (slotOfAddr s0.cfg 0x28) s0 = 0x48554631 ∧ slotValue (slotOfAddr s0.cfg 0x2C) s0 = 65536 ∧
      slotValue (slotOfAddr s0.cfg 0x33) s0 = 65536 ∧ slotValue (slotOfAddr s0.cfg 0x3C) s0 = 0 := by decide

/-- The step runs the word that is placed for it, as the first one after reset. -/
theorem test_step_placed :
    holds (step (State.reset.withFetchWord 32 0x10000061)) (fun t => symGet t.freq 0x61 = 1 && t.total = 1 && !t.busy) = true := by
  decide

/-! ## Witnesses: states and operands that meet the hypotheses of the obligations -/

/-- The opcode of no command is another one's. -/
theorem witness_IllegalWord_any : ∀ i, encode i ≠ 0xFF000000 := by
  intro i h
  have h' := congrArg opcField h
  rw [encode, Laws.opcField_append] at h'
  cases i <;> simp [opcodeOf, opcField] at h'
theorem witness_IllegalWord_opcode :
    opcField 0x03000000 ∉ [(0x00 : BitVec 8), 0x01, 0x02, 0x10, 0x11, 0x20, 0x21, 0x22, 0x23, 0x24, 0x25, 0x30, 0x31, 0x32,
      0x40, 0x41, 0x50] := by decide
theorem witness_IllegalWord_none :
    opcField 0x50000001 ∈ [(0x00 : BitVec 8), 0x01, 0x02, 0x20, 0x21, 0x31, 0x41, 0x50] ∧
      (0x50000001 : Word).extractLsb' 0 24 ≠ 0 ∧ (0x00800000 : Word).extractLsb' 0 24 ≠ 0 := by decide
theorem witness_IllegalWord_sym :
    opcField 0x10000100 ∈ [(0x10 : BitVec 8), 0x11, 0x22, 0x30, 0x40] ∧ (0x10000100 : Word).extractLsb' 8 16 ≠ 0 ∧
      opcField 0x40800000 ∈ [(0x10 : BitVec 8), 0x11, 0x22, 0x30, 0x40] ∧ (0x40800000 : Word).extractLsb' 8 16 ≠ 0 := by decide
theorem witness_IllegalWord_symw :
    opcField 0x23000800 = 0x23 ∧ (0x23000800 : Word).extractLsb' 11 13 ≠ 0 ∧ (0x23800000 : Word).extractLsb' 11 13 ≠ 0 := by
  decide
theorem witness_IllegalWord_widx :
    opcField 0x24000008 = 0x24 ∧ (0x24000008 : Word).extractLsb' 3 21 ≠ 0 ∧ (0x24800000 : Word).extractLsb' 3 21 ≠ 0 := by decide
theorem witness_IllegalWord_code :
    opcField 0x25010000 = 0x25 ∧ (0x25010000 : Word).extractLsb' 16 8 ≠ 0 ∧ (0x25800000 : Word).extractLsb' 16 8 ≠ 0 := by decide
theorem witness_AssemblerGivesTheWord : operandsFit (Instr.count 0).form [256] = false := by decide

/-- A command is pending, and the core's turn is next. -/
def ready (s : State) (w : Word) : State := { s with busy := true, pending := w, turns := [.core] }

theorem witness_StepRuns_none_listed : ∃ s : State, s.turns = [] ∧ s.phase = .running ∧ s.busy = true :=
  ⟨{ s0 with busy := true }, rfl, rfl, rfl⟩
theorem witness_StepRuns_listed :
    (ready s0 0x50000000).turns = [.core] ∧ (ready s0 0x50000000).phase = .running ∧ (ready s0 0x50000000).busy = true ∧
      decodeWord (ready s0 0x50000000).pending = .ok .decode := by decide
theorem witness_StepRuns_host :
    ∃ s : State, s.turns = [.host] ∧ s.host.failed = false ∧ s.host.prog[s.host.pc]? = some (.wr 32 0 0x20000000) :=
  ⟨{ s0 with turns := [.host], host := { s0.host with prog := [.wr 32 0 0x20000000] } }, rfl, rfl, rfl⟩
theorem witness_StepRuns_host_default :
    ∃ s : State, s.turns = [] ∧ ¬ (s.phase = .running ∧ s.busy = true) ∧ s.host.failed = false ∧
      s.host.prog[s.host.pc]? = some (.rd 32 0x28 1) :=
  ⟨{ s0 with host := { s0.host with prog := [.rd 32 0x28 1] } }, rfl, by decide, rfl, rfl⟩
theorem witness_StepRuns_host_finished : ∃ s : State, s.turns = [.host] ∧ s.host.prog[s.host.pc]? = none :=
  ⟨{ s0 with turns := [.host] }, rfl, rfl⟩
theorem witness_StepRuns_idle : ∃ s : State, s.turns = [.core] ∧ s.busy = false := ⟨{ s0 with turns := [.core] }, rfl, rfl⟩

/-- A state that meets the invariants, with any turns listed: the table is held, a command is pending. -/
theorem inv_pending (w : Word) (ts : List Turn) : CoreInv { ready { s0 with codesValid := true } w with turns := ts } := by
  refine ⟨rfl, ⟨?_, ?_⟩, ⟨?_, ?_, ?_, ?_⟩, ⟨?_, ?_⟩, ⟨?_, ?_⟩, ⟨?_, ?_, ?_, ?_, ?_, ?_, ?_, ?_⟩, ⟨?_, ?_, ?_⟩⟩ <;>
    simp [ready, s0, State.reset, State.resetAt, freqSum, presentSyms, finishedBytes, Store.wf, Config.default]

theorem inv_ready (w : Word) : CoreInv (ready { s0 with codesValid := true } w) := inv_pending w [.core]

/-- No turn listed, turns of the host alone, and the core's after one of the host's. -/
theorem witness_PendingCommandCompletes : ∀ ts ∈ [[], [Turn.host, .host], [.host, .core, .host]],
    ∃ s, s.turns = ts ∧ SysInv s ∧ s.phase = .running ∧ s.busy = true ∧ ∀ a ∈ s.turns, a = .core ∨ a = .host := by
  intro ts hts
  refine ⟨_, rfl, ⟨rfl, fun _ => inv_pending 0x31000000 ts⟩, rfl, rfl, ?_⟩
  revert ts
  decide
/-- A host whose program holds an access that has no step. -/
theorem witness_PendingCommand_refused :
    ∃ s : State, s.turns = [.host] ∧ s.busy = true ∧ HostOp.rd 16 0 0 ∈ s.host.prog ∧ runSteps 1 s = .refused .accessWidth :=
  ⟨{ s0 with busy := true, turns := [.host], host := { s0.host with prog := [.rd 16 0 0] } }, rfl, rfl, by decide, rfl⟩
/-- Each clause of the table: TREE_VALID, CODES_VALID, neither, ENC_ACTIVE. -/
theorem witness_SequenceError :
    (∃ s : State, s.treeValid = true) ∧ (∃ s : State, s.codesValid = true ∧ s.treeValid = false) ∧
      (∃ s : State, s.treeValid = false ∧ s.codesValid = false ∧ s.outValid = false) ∧ (∃ s : State, s.encActive = true) :=
  ⟨⟨tree2, rfl⟩, ⟨tableA, rfl, rfl⟩, ⟨s0, rfl, rfl, rfl⟩, ⟨{ tableA with encActive := true }, rfl⟩⟩
theorem witness_CountCounts : s0.treeValid = false ∧ s0.codesValid = false ∧ s0.total ≠ 0xFFFFFFFF := by decide
theorem witness_CountCounts_last :
    ∃ s : State, s.treeValid = false ∧ s.codesValid = false ∧ s.total = 0xFFFFFFFE ∧ s.total ≠ 0xFFFFFFFF :=
  ⟨{ s0 with total := 0xFFFFFFFE }, rfl, rfl, rfl, by decide⟩
theorem witness_CountOverflow : ∃ s : State, s.treeValid = false ∧ s.codesValid = false ∧ s.total = 0xFFFFFFFF :=
  ⟨{ s0 with total := 0xFFFFFFFF }, rfl, rfl, rfl⟩
/-- V-FC-8. -/
theorem witness_CountingIsOrderIndependent :
    s0.treeValid = false ∧ s0.codesValid = false ∧ s0.total.toNat + [(0x62 : Sym), 0x61].length ≤ 2 ^ 32 - 1 ∧
      [(0x62 : Sym), 0x61].Perm [0x61, 0x62] := by decide
theorem present_counted : presentSyms counted.freq ≠ [] := by
  have h : (0x61 : Sym) ∈ presentSyms counted.freq := List.mem_filter.2 ⟨List.mem_map.2 ⟨0x61, by simp, rfl⟩, by decide⟩
  exact List.ne_nil_of_mem h
theorem witness_BuildTreeCompletes :
    counted.treeValid = false ∧ counted.codesValid = false ∧ counted.nsym ≠ 0 ∧ presentSyms counted.freq ≠ [] :=
  ⟨rfl, rfl, by decide, present_counted⟩
theorem witness_BuildTreeOfNothing : s0.treeValid = false ∧ s0.codesValid = false ∧ s0.nsym = 0 := ⟨rfl, rfl, rfl⟩
theorem counts_counted : CountsInv counted := ⟨by decide +kernel, by decide +kernel⟩
theorem witness_BuildTreeLeavesAFullTree : ∃ s, CountsInv s ∧ s.nsym ≠ 0 := ⟨counted, counts_counted, by decide⟩
/-- The builder of V-TB-2 before its one round. -/
theorem witness_MergesTheTwoLowest_round : 2 ≤ (builderStart counted).pq.length := by decide +kernel
theorem witness_MergesTheTwoLowest : counted.treeValid = false ∧ counted.codesValid = false ∧ counted.nsym ≠ 0 ∧
    presentSyms counted.freq ≠ [] := ⟨rfl, rfl, by decide, present_counted⟩
theorem witness_PopMin : [0, 1] ≠ ([] : List Nat) ∧ [0, 1].Nodup ∧ (1 ∈ [0, 1]) ∧ ∀ j ∈ [0, 1], 5 ≤ (fun _ => 5) j := by decide

/-- The leaves of the tree of V-TB-2. -/
theorem leaves_tree2 : leavesOf tree2.freq = [.leaf 0x61 1, .leaf 0x62 1] := by decide +kernel
/-- The tree of V-TB-2 is a built tree. -/
theorem built_tree2 : BuiltTree tree2 := by
  refine ⟨by decide, rfl, rfl, rfl, ?_, ?_, ?_⟩
  · intro i hi
    have hi' : i < 2 := hi
    rcases (by omega : i = 0 ∨ i = 1) with rfl | rfl
    · exact ⟨_, rfl, by rw [leaves_tree2]; rfl⟩
    · exact ⟨_, rfl, by rw [leaves_tree2]; rfl⟩
  · intro i h1 h2
    have h1' : 2 ≤ i := h1
    have h2' : i < 3 := h2
    obtain rfl : i = 2 := by omega
    exact ⟨2, 0, 1, rfl, by decide, by decide, by decide, _, _, rfl, rfl, by decide⟩
  · intro i h1 h2
    have h1' : i < 3 := h1
    have h2' : i ≠ 2 := h2
    refine ⟨2, ⟨by decide, 2, 0, 1, rfl, ?_⟩, ?_⟩
    · rcases (by omega : i = 0 ∨ i = 1) with rfl | rfl
      · exact .inl rfl
      · exact .inr rfl
    · rintro j ⟨hj, f, l, r, hs, -⟩
      have hj' : j < 3 := hj
      rcases (by omega : j = 0 ∨ j = 1 ∨ j = 2) with rfl | rfl | rfl
      · cases hs
      · cases hs
      · rfl
theorem witness_leaf_depth : walkFrom (nodeAt tree2.nodes 0) tree2.root [true] = some (.leaf 0x62 1) := rfl
theorem counts_tree2 : CountsInv tree2 := ⟨counts_counted.total, counts_counted.nsym⟩

theorem witness_GenCodes :
    tree2.treeValid = true ∧ tree2.codesValid = false ∧ CountsInv tree2 ∧ BuiltTree tree2 ∧ 2 ≤ tree2.nsym ∧
      ∃ t, exec .genCodes tree2 = .next t :=
  ⟨rfl, rfl, counts_tree2, built_tree2, by decide, (next_of_holds test_genCodes).imp fun _ h => h.1⟩

theorem witness_WriteCode_delete : s0.treeValid = false ∧ s0.encActive = false ∧ (0 : BitVec 8) = 0 := ⟨rfl, rfl, rfl⟩
theorem witness_WriteCode_longest :
    s0.treeValid = false ∧ s0.encActive = false ∧ ∀ y, y ≠ 0x61 →
      ¬ (symGet s0.codeLen y = 255 ∧ (symGet s0.codeVal y).toNat = stagedSum s0 % 2 ^ (255 : BitVec 8).toNat) :=
  ⟨rfl, rfl, fun y _ h => by simp [s0, State.reset, State.resetAt] at h⟩
theorem witness_WriteCodeRefuses :
    tableA.treeValid = false ∧ tableA.encActive = false ∧ (1 : BitVec 8) ≠ 0 ∧ (0x61 : Sym) ≠ 0x62 ∧
      symGet tableA.codeLen 0x61 = 1 ∧ (symGet tableA.codeVal 0x61).toNat = stagedSum tableA % 2 ^ (1 : BitVec 8).toNat := by
  decide
/-- The last code that fits two bytes: 7 bits in all (V-PK-8). -/
theorem witness_EncSymAppends :
    ∃ s : State, s.codesValid = true ∧ symGet s.codeLen 0x61 ≠ 0 ∧ s.cfg.wf = true ∧ s.encActive = true ∧
      2 + ((streamBits s).toNat + (symGet s.codeLen 0x61).toNat) / 8 = s.cfg.outCap :=
  ⟨{ withCaps tableA 2 2 with encActive := true, encBits := 6, encStream := List.replicate 6 false }, by decide⟩
theorem witness_EncSymErrors_unknown : tableA.codesValid = true ∧ symGet tableA.codeLen 0x63 = 0 := by decide
theorem witness_EncSymErrors_capacity :
    ∃ s : State, s.codesValid = true ∧ symGet s.codeLen 0x61 ≠ 0 ∧
      s.cfg.outCap < 2 + ((streamBits s).toNat + (symGet s.codeLen 0x61).toNat) / 8 :=
  ⟨{ withCaps tableA 2 2 with encActive := true, encBits := 7, encStream := List.replicate 7 false }, by decide⟩
theorem witness_EncFinish : tableA.codesValid = true := rfl
theorem witness_FinishedStreamFacts :
    ∃ s t : State, CoreInv s ∧ s.codesValid = true ∧ exec .encFinish s = .next t := ⟨_, _, inv_ready 0, rfl, rfl⟩
theorem witness_ReadOut : ∃ s : State, s.outValid = true ∧ (1 : BitVec 24).toNat < s.outLen ∧ s.outLen ≤ (2 : BitVec 24).toNat :=
  ⟨{ s0 with outValid := true, outLen := 2 }, by decide⟩
theorem witness_InPush : s0.inLen ≠ s0.cfg.inCap := by decide
theorem witness_InPushFull : ∃ s : State, s.inLen = s.cfg.inCap := ⟨withCaps (withInput s0 [(0, 1)]) 1 2, rfl⟩

/-- The lookup in the table of 'a' = "0". -/
theorem matchA_one : matchCode tableA.codeLen tableA.codeVal [true] = none := by decide +kernel
theorem matchA_zero : matchCode tableA.codeLen tableA.codeVal [false] = some 0x61 := by decide +kernel
/-- A candidate that no code is. -/
theorem leftover_one : GreedyParse (matchCode tableA.codeLen tableA.codeVal) [true] [] [true] :=
  .leftover _ fun q hq hp => by
    rcases List.prefix_cons_iff.1 hp with rfl | ⟨r, rfl, hr⟩
    · exact absurd rfl hq
    · rw [List.prefix_nil.1 hr]; exact matchA_one
/-- One code, then nothing. -/
theorem parse_zero (rest : BitString) {rest2 : BitString} (xs : List Sym) (h : GreedyParse (matchCode tableA.codeLen tableA.codeVal) rest xs rest2) :
    GreedyParse (matchCode tableA.codeLen tableA.codeVal) ([false] ++ rest) (0x61 :: xs) rest2 :=
  .emit [false] rest rest2 0x61 xs (by simp) matchA_zero (fun q hq hp hne => by
    rcases List.prefix_cons_iff.1 hp with rfl | ⟨r, rfl, hr⟩
    · exact absurd rfl hq
    · rw [List.prefix_nil.1 hr] at hne; exact absurd rfl hne) h
theorem parse_nil : GreedyParse (matchCode tableA.codeLen tableA.codeVal) [] [] [] :=
  .leftover _ fun _ hq hp => absurd (List.prefix_nil.1 hp) hq
theorem witness_ReverseLookup : ∃ s : State, CodesInv s := ⟨_, (inv_ready 0x31000000).codes⟩
theorem witness_ScanIsTheGreedyParse :
    GreedyParse (matchCode tableA.codeLen tableA.codeVal) [false, true] [0x61] [true] := parse_zero _ _ leftover_one

/-- Header 7, then "0" and padding: the symbol 'a'. -/
theorem witness_DecodeWrites :
    ∃ (s : State) (xs : List Sym), s.codesValid = true ∧ s.encActive = false ∧ s.inLen ≠ 0 ∧
      (readIn s 0).toNat ≤ 8 * s.inLen - 8 ∧
      GreedyParse (matchCode s.codeLen s.codeVal)
        (bitSlice (bitsOfBytes ((List.range s.inLen).map (readIn s))) 8 (8 * s.inLen - (readIn s 0).toNat)) xs [] ∧
      xs.length ≤ s.cfg.outCap :=
  ⟨withInput tableA [(0, 7), (1, 0)], [0x61], rfl, rfl, by decide, by decide, parse_zero _ _ parse_nil, by decide⟩
/-- The largest header a two-byte buffer takes: an empty payload. -/
theorem witness_DecodeWrites_empty :
    ∃ s : State, s.codesValid = true ∧ s.encActive = false ∧ s.inLen ≠ 0 ∧ (readIn s 0).toNat = 8 * s.inLen - 8 ∧
      GreedyParse (matchCode s.codeLen s.codeVal)
        (bitSlice (bitsOfBytes ((List.range s.inLen).map (readIn s))) 8 (8 * s.inLen - (readIn s 0).toNat)) [] [] :=
  ⟨withInput tableA [(0, 8), (1, 0)], rfl, rfl, by decide, by decide, parse_nil⟩
theorem witness_DecodePadding_empty : tableA.codesValid = true ∧ tableA.encActive = false ∧ tableA.inLen = 0 := ⟨rfl, rfl, rfl⟩
theorem witness_DecodePadding_header :
    ∃ s : State, s.codesValid = true ∧ s.encActive = false ∧ 8 * s.inLen - 8 < (readIn s 0).toNat :=
  ⟨withInput tableA [(0, 9), (1, 0)], rfl, rfl, by decide⟩
theorem witness_DecodeScan_leftover :
    ∃ (s : State) (xs : List Sym) (rest : BitString), s.codesValid = true ∧ s.encActive = false ∧ s.inLen ≠ 0 ∧
      (readIn s 0).toNat ≤ 8 * s.inLen - 8 ∧
      GreedyParse (matchCode s.codeLen s.codeVal)
        (bitSlice (bitsOfBytes ((List.range s.inLen).map (readIn s))) 8 (8 * s.inLen - (readIn s 0).toNat)) xs rest ∧
      rest ≠ [] :=
  ⟨withInput tableA [(0, 6), (1, 0x40)], [0x61], [true], rfl, rfl, by decide, by decide, parse_zero _ _ leftover_one, by decide⟩
/-- Three symbols do not fit two bytes (V-UP-17). -/
theorem witness_DecodeScan_capacity :
    ∃ (s : State) (xs : List Sym) (rest : BitString), s.codesValid = true ∧ s.encActive = false ∧ s.inLen ≠ 0 ∧
      (readIn s 0).toNat ≤ 8 * s.inLen - 8 ∧
      GreedyParse (matchCode s.codeLen s.codeVal)
        (bitSlice (bitsOfBytes ((List.range s.inLen).map (readIn s))) 8 (8 * s.inLen - (readIn s 0).toNat)) xs rest ∧
      s.cfg.outCap < xs.length :=
  ⟨withCaps (withInput tableA [(0, 4), (1, 0x10)]) 2 2, [0x61, 0x61, 0x61], [true], rfl, rfl, by decide, by decide,
    parse_zero _ _ (parse_zero _ _ (parse_zero _ _ leftover_one)), by decide⟩

/-- V-PK-3: one symbol, compressed from reset. -/
theorem test_compress_one :
    holds (runCommands (compressCommands [0x61]) (State.resetAt Config.default 0))
      (fun s => s.err = 0 && s.outMem = [(0, 7), (1, 0)] && s.outLen ≤ Config.default.inCap) = true := by decide +kernel
theorem witness_RoundTrip :
    ∃ s, Config.default.wf = true ∧ [(0x61 : Sym)] ≠ [] ∧ [(0x61 : Sym)].length ≤ Config.default.outCap ∧
      runCommands (compressCommands [0x61]) (State.resetAt Config.default 0) = .next s ∧ s.err = 0 ∧
      s.outLen ≤ Config.default.inCap := by
  obtain ⟨s, h, hp⟩ := next_of_holds test_compress_one
  simp only [Bool.and_eq_true, decide_eq_true_eq] at hp
  exact ⟨s, by decide, by simp, by decide, h, hp.1.1, hp.2⟩
theorem witness_CompressionCompletes :
    Config.default.wf = true ∧ [(0x61 : Sym)] ≠ [] ∧ 2 + 255 * [(0x61 : Sym)].length / 8 ≤ Config.default.outCap := by decide

theorem witness_FailingCommand : ∃ t, s0.err = 0 ∧ exec .genCodes s0 = .next t ∧ t.err ≠ 0 := ⟨_, rfl, rfl, by decide⟩
theorem witness_FirstErrorIsKept :
    ∃ s t : State, step s = .next t ∧ t.phase = .running ∧ s.err ≠ 0 :=
  ⟨{ s0 with err := 3, errOpc := 0x32 }, _, rfl, rfl, by decide⟩
theorem witness_RespChanges : ∃ t, exec (.readFreq 0x61) counted = .next t := ⟨_, rfl⟩
theorem witness_RespChanges_step :
    ∃ t, step (ready counted 0x11000061) = .next t ∧ t.phase = .running ∧ t.resp ≠ (ready counted 0x11000061).resp :=
  ⟨_, rfl, rfl, by decide⟩

/-- The lowest and the highest address of the CMD slot, and the three outcomes. -/
theorem witness_CmdWrite_slot :
    s0.phase = .running ∧ ((0 : Word) - s0.cfg.base).extractLsb' 2 4 = 0 ∧ ((0x03 : Word) - s0.cfg.base).extractLsb' 2 4 = 0 ∧
      ((0x03 : Word) - s0.cfg.base).toNat < 64 := by decide
theorem witness_CmdWrite_cases :
    (∃ s : State, s.phase = .running ∧ s.busy = true) ∧ (s0.phase = .running ∧ s0.busy = false ∧ s0.err = 0) ∧
      (∃ s : State, s.phase = .running ∧ s.busy = false ∧ s.err ≠ 0 ∧
        (0x10000061 : Word).extractLsb' 24 8 ∉ [(0x00 : BitVec 8), 0x01, 0x02] ∧
        (0x02000000 : Word).extractLsb' 24 8 ∈ [(0x00 : BitVec 8), 0x01, 0x02]) :=
  ⟨⟨ready s0 0, rfl, rfl⟩, ⟨rfl, rfl, rfl⟩, ⟨{ s0 with err := 1 }, rfl, rfl, by decide, by decide, by decide⟩⟩
theorem witness_CmdWrite_illegal : ∃ s : State, s.err ≠ 0 ∧ ∀ i, encode i ≠ 0xFF000000 :=
  ⟨{ s0 with err := 1 }, by decide, witness_IllegalWord_any⟩
theorem witness_OtherWrites_exec : ∃ t, exec (.stageCodeWord 0) s0 = .next t := ⟨_, rfl⟩
theorem witness_OtherWrites :
    s0.phase = .running ∧ ((4 : Word) - s0.cfg.base).extractLsb' 2 4 = 1 ∧ 1 < (((8 : Word) - s0.cfg.base).extractLsb' 2 4).toNat ∧
      1 < (((0x3F : Word) - s0.cfg.base).extractLsb' 2 4).toNat ∧ ((0x3F : Word) - s0.cfg.base).toNat < 64 := by decide
theorem witness_IdleReads : s0.phase = .running ∧ s0.busy = false ∧ (0x3C : Word) = s0.cfg.base + 0x3C := by decide
theorem witness_IdleReads_slot : ((0x3F : Word) - s0.cfg.base).toNat < 64 ∧ (0x3C : Word).toNat < 64 ∧
    ((0x3F : Word) - s0.cfg.base).extractLsb' 2 4 = (0x3C : Word).extractLsb' 2 4 := by decide
theorem witness_BusyReads :
    (ready s0 0).phase = .running ∧ (ready s0 0).busy = true ∧
      (((0x0C : Word) - (ready s0 0).cfg.base).extractLsb' 2 4).toNat = 3 ∧
      (((0x27 : Word) - (ready s0 0).cfg.base).extractLsb' 2 4).toNat = 9 ∧
      (((0x0B : Word) - (ready s0 0).cfg.base).extractLsb' 2 4).toNat = 2 ∧
      (((0x28 : Word) - (ready s0 0).cfg.base).extractLsb' 2 4).toNat = 10 := by decide
theorem witness_ForeignAccesses :
    (s0.phase = .running ∧ (16 : Nat) ≠ 32 ∧ ((0x3F : Word) - s0.cfg.base).toNat < 64) ∧
      (∃ s : State, s.phase = .resetAsserted) ∧ ∃ s : State, s.phase = .powerUp :=
  ⟨⟨rfl, by decide, by decide⟩, ⟨{ s0 with phase := .resetAsserted }, rfl⟩, ⟨{ s0 with phase := .powerUp }, rfl⟩⟩
theorem sys_ready (w : Word) : SysInv (ready { s0 with codesValid := true } w) := ⟨rfl, fun _ => inv_ready w⟩
theorem witness_StepKeeps : ∃ s t : State, SysInv s ∧ step s = .next t := ⟨_, _, sys_ready 0x31000000, rfl⟩
/-- After power was restored nothing is asked of the CORE's elements. -/
theorem witness_StepKeeps_powerUp : ∃ s t : State, SysInv s ∧ step s = .next t ∧ t.phase = .powerUp :=
  ⟨{ s0 with turns := [.powerRestored], phase := .resetAsserted }, _, ⟨rfl, fun h => by cases h⟩, rfl, rfl⟩
theorem witness_Reachable : Reachable s0 := .start Config.default 0 [] _ (by decide)
theorem witness_StepsAreSafe : ∃ s, SysInv s := ⟨_, sys_ready 0x31000000⟩
theorem witness_StepsAreSafe_refusal : ∃ s r, step s = .refused r :=
  ⟨{ s0 with host := { prog := [.rd 16 0 0], pc := 0, vars := [], failed := false } }, _, rfl⟩
theorem witness_StepKeepsCounts :
    ∃ s t : State, (s.phase = .running → CountsInv s) ∧ step s = .next t ∧ t.phase = .running :=
  ⟨_, _, fun _ => (inv_ready 0x31000000).counts, rfl, rfl⟩
theorem witness_StepKeepsCodeTable :
    ∃ s t : State, (s.phase = .running → CodesInv s) ∧ step s = .next t ∧ t.phase = .running :=
  ⟨_, _, fun _ => (inv_ready 0x31000000).codes, rfl, rfl⟩
theorem witness_ResetMeetsInvariants : ∃ c : Config, c.wf = true := ⟨Config.default, by decide⟩
theorem witness_FreqIsImmutable :
    ∃ s t : State, step s = .next t ∧ t.phase = .running ∧ (s.treeValid = true ∨ s.codesValid = true) :=
  ⟨ready tree2 0x10000061, _, rfl, rfl, .inl rfl⟩
theorem test_step_writeCode :
    holds (step (ready s0 0x25000161)) (fun t => symGet t.codeLen 0x61 = 1 && t.phase = .running) = true := by decide +kernel
/-- A WRITE_CODE that changes the table. -/
theorem witness_TableChanges :
    ∃ s t : State, step s = .next t ∧ t.phase = .running ∧ ¬ (t.codeLen = s.codeLen ∧ t.codeVal = s.codeVal) := by
  obtain ⟨t, h, hp⟩ := next_of_holds test_step_writeCode
  simp only [Bool.and_eq_true, decide_eq_true_eq] at hp
  refine ⟨_, t, h, hp.2, fun hc => ?_⟩
  rw [hc.1] at hp
  exact absurd hp.1 (by decide)
theorem witness_ResetRelease :
    ∃ s : State, s.turns = [.releaseReset] ∧ s.phase = .resetAsserted ∧ ((0 : Word) - s.cfg.base).toNat < 64 :=
  ⟨{ s0 with turns := [.releaseReset], phase := .resetAsserted }, rfl, rfl, by decide⟩
theorem witness_ParametersNeverChange : ∃ t, step s0 = .next t := ⟨_, rfl⟩

end Sys2Proof.Tests
end

section
/-! The parameters of the CORE (00_scope.md R7) are constants of a run: no turn of the core, the host or the platform
changes `cfg`. Commands and slot writes go through `Kept`; the turns that are no command are read off `step_next`. -/

namespace Sys2Proof.Machine

@[simp] theorem openStream_cfg (s : State) : (openStream s).cfg = s.cfg := by
  unfold openStream
  split
  · rfl
  · exact startStream_cfg s

/-- The effect of a command leaves the parameters. -/
theorem Effect.cfg_eq {i : Instr} {s t : State} (h : Effect i s t) : t.cfg = s.cfg := by
  cases i <;> simp only [Effect] at h
  case nop | clear | errClear | readFreq | readCodeLen | readCodeWord | stageCodeWord | inClear => subst h; rfl
  case count => obtain ⟨-, -, -, rfl⟩ := h; rfl
  case buildTree => obtain ⟨-, -, -, b, root, q, -, -, rfl⟩ := h; rfl
  case genCodes => obtain ⟨-, -, tab, -, rfl⟩ := h; rfl
  case writeCode => obtain ⟨-, -, -, rfl⟩ := h; rfl
  case encSym => obtain ⟨-, -, -, rfl⟩ := h; simp
  case encFinish => obtain ⟨-, rfl⟩ := h; simp
  case readOut => obtain ⟨-, -, rfl⟩ := h; rfl
  case inPush => obtain ⟨-, rfl⟩ := h; rfl
  case decode => obtain ⟨-, -, -, -, out, -, rfl⟩ := h; rfl

/-- Having the parameters `c` is a kept property. -/
theorem kept_cfg (c : Config) : Kept (fun s => s.cfg = c) where
  fields := fun _ _ _ _ _ _ _ _ _ hs => hs
  record := fun s e opc hs => by rw [recordErr_eq]; exact hs
  encodeAbort := fun _ hs => hs
  decodeAbort := fun _ hs => hs
  effect := fun _ _ _ hs he => he.cfg_eq.trans hs

/-- Executing a word, legal or not, keeps a kept property (40_control.md R104). -/
theorem Kept.executeWord {P : State → Prop} (h : Kept P) {w : Word} {s t : State} (hs : P s)
    (ht : executeWord w s = .next t) : P t := by
  unfold Machine.executeWord at ht
  split at ht
  · cases ht; exact h.enterErr hs
  · exact h.exec hs ht

/-- A host operation leaves the parameters. -/
theorem hostOp_cfg {op : HostOp} {s t : State} (h : hostOp op s = .next t) : t.cfg = s.cfg := by
  rcases hostOp_next h with ⟨g, rfl⟩ | ⟨addr, v, g, rfl⟩ | ⟨n, g, rfl⟩
  · rfl
  · exact (kept_cfg s.cfg).writeSlot (slotOfAddr s.cfg addr) v rfl
  · rfl

/-- Settles O59: every turn a step can take leaves `cfg`. -/
theorem parametersNeverChange : Obligations.ParametersNeverChange := by
  intro s t ht
  obtain ⟨u, ⟨ts, n, hu⟩, hcase⟩ := step_next ht
  have hcfg : u.cfg = s.cfg := by rw [hu]
  rcases hcase with rfl | ⟨-, v, hv, rfl⟩ | ⟨op, -, hop⟩ | rfl | rfl | ⟨-, rfl⟩
  · exact hcfg
  · have hv' : v.cfg = s.cfg := (kept_cfg s.cfg).executeWord hcfg hv
    exact hv'
  · exact (hostOp_cfg hop).trans hcfg
  · exact hcfg
  · exact (powerUpState_cfg u).trans hcfg
  · exact (resetCore_cfg u).trans hcfg

end Sys2Proof.Machine
end

section
/-! The parts of the CORE and which command writes which: a command leaves every part that `writes` does not list for it, and an
error leaves all but STATUS.ERR, the stream and the output. Each rule about what may change a register is read off this table. -/

namespace Sys2Proof.Machine

/-- A part of the CORE: elements of the record of 10_state.md R20 that are written together. -/
inductive Part where
  | resp
  | error
  | counts
  | tree
  | table
  | stream
  | input
  | output

/-- Two states agree on a part. -/
def Same (p : Part) (s t : State) : Prop :=
  match p with
  | .resp => t.resp = s.resp
  | .error => t.err = s.err ∧ t.errOpc = s.errOpc
  | .counts => t.freq = s.freq ∧ t.total = s.total ∧ t.nsym = s.nsym
  | .tree => t.treeValid = s.treeValid ∧ t.nodes = s.nodes ∧ t.nnodes = s.nnodes ∧ t.root = s.root ∧ t.pq = s.pq
  | .table => t.codesValid = s.codesValid ∧ t.codeLen = s.codeLen ∧ t.codeVal = s.codeVal
  | .stream => t.encActive = s.encActive ∧ t.encStream = s.encStream ∧ t.encBits = s.encBits
  | .input => t.inLen = s.inLen ∧ t.inMem = s.inMem
  | .output => t.outValid = s.outValid ∧ t.outLen = s.outLen ∧ t.outMem = s.outMem

theorem Same.refl (p : Part) (s : State) : Same p s s := by cases p <;> simp [Same]

theorem Same.trans {p : Part} {s t u : State} (h : Same p s t) (h' : Same p t u) : Same p s u := by
  cases p <;> simp_all [Same]

/-- The handshake and the agents' fields are in no part. -/
theorem same_fields (p : Part) (s : State) (b d pe pd tu ho ph dr) :
    Same p s { s with busy := b, data := d, pending := pe, pendingData := pd, turns := tu, host := ho, phase := ph,
                      draws := dr } := by
  cases p <;> simp [Same]

/-- The parts a command writes when it raises no error. -/
def writes : Instr → List Part
  | .nop => []
  | .clear => [.resp, .error, .counts, .tree, .table, .stream, .input, .output]
  | .errClear => [.error]
  | .count _ => [.counts]
  | .readFreq _ => [.resp]
  | .buildTree => [.tree]
  | .genCodes => [.table]
  | .readCodeLen _ => [.resp]
  | .readCodeWord _ _ => [.resp]
  | .stageCodeWord _ => []
  | .writeCode _ _ => [.table]
  | .encSym _ => [.stream, .output]
  | .encFinish => [.stream, .output]
  | .readOut _ => [.resp]
  | .inPush _ => [.input]
  | .inClear => [.input]
  | .decode => [.output]

/-- The parts an error writes: STATUS.ERR and what the abort effects clear (60_exceptions.md R250, R252). -/
def errorWrites : List Part := [.error, .stream, .output]

theorem openStream_same {p : Part} (hp : p ∉ [Part.stream, .output]) (s : State) : Same p s (openStream s) := by
  rcases openStream_cases s with ⟨-, h⟩ | ⟨-, h⟩ <;> rw [h]
  · exact .refl p s
  · cases p <;> simp [Same] at hp ⊢

theorem appendCode_same {p : Part} (hp : p ∉ [Part.stream, .output]) (x : Sym) (s : State) : Same p s (appendCode x s) := by
  cases p <;> simp [Same] at hp ⊢

theorem finishStream_same {p : Part} (hp : p ∉ [Part.stream, .output]) (s : State) : Same p s (finishStream s) := by
  cases p <;> simp [Same] at hp ⊢

/-- A command leaves the parts it does not write. -/
theorem Effect.same {p : Part} {i : Instr} {s t : State} (h : Effect i s t) (hp : p ∉ writes i) : Same p s t := by
  cases i <;> simp only [Effect] at h
  case clear => cases p <;> simp [writes] at hp
  case nop | errClear | readFreq | readCodeLen | readCodeWord | stageCodeWord | inClear =>
    subst h; cases p <;> simp [writes, Same] at hp ⊢
  case count | writeCode => obtain ⟨-, -, -, rfl⟩ := h; cases p <;> simp [writes, Same] at hp ⊢
  case buildTree => obtain ⟨-, -, -, b, root, q, -, -, rfl⟩ := h; cases p <;> simp [writes, Same] at hp ⊢
  case genCodes => obtain ⟨-, -, tab, -, rfl⟩ := h; cases p <;> simp [writes, Same] at hp ⊢
  case encSym => obtain ⟨-, -, -, rfl⟩ := h; exact (openStream_same hp s).trans (appendCode_same hp _ _)
  case encFinish => obtain ⟨-, rfl⟩ := h; exact (openStream_same hp s).trans (finishStream_same hp _)
  case readOut => obtain ⟨-, -, rfl⟩ := h; cases p <;> simp [writes, Same] at hp ⊢
  case inPush => obtain ⟨-, rfl⟩ := h; cases p <;> simp [writes, Same] at hp ⊢
  case decode => obtain ⟨-, -, -, -, out, -, rfl⟩ := h; cases p <;> simp [writes, Same] at hp ⊢

theorem recordErr_same {p : Part} (hp : p ≠ .error) (e : Err) (opc : BitVec 8) (s : State) : Same p s (recordErr e opc s) := by
  rw [recordErr_eq]
  cases p <;> simp [Same] at hp ⊢

theorem encodeAbort_same {p : Part} (hp : p ∉ [Part.stream, .output]) (s : State) : Same p s (encodeAbort s) := by
  cases p <;> simp [Same] at hp ⊢

theorem decodeAbort_same {p : Part} (hp : p ≠ .output) (s : State) : Same p s (decodeAbort s) := by
  cases p <;> simp [Same] at hp ⊢

/-- An error leaves the parts it does not write (60_exceptions.md R253). -/
theorem enterErr_same {p : Part} (hp : p ∉ errorWrites) (e : Err) (opc : BitVec 8) (cmd : Option Instr) (s : State) :
    Same p s (enterErr e opc cmd s) := by
  simp only [errorWrites, List.mem_cons, List.not_mem_nil, or_false, not_or] at hp
  obtain ⟨herr, hstream, hout⟩ := hp
  have hrec := recordErr_same herr e opc s
  cases cmd with
  | none => exact hrec
  | some i =>
    rcases abortEffect_cases e i (recordErr e opc s) with h | ⟨h, -⟩ | ⟨h, -⟩ <;> simp only [enterErr, h]
    · exact hrec
    · exact hrec.trans (encodeAbort_same (by simp [hstream, hout]) _)
    · exact hrec.trans (decodeAbort_same hout _)

/-- A host operation leaves the parts an error does not write (40_control.md R101, R102). -/
theorem hostOp_same {p : Part} (hp : p ∉ errorWrites) {op : HostOp} {s t : State} (h : hostOp op s = .next t) : Same p s t := by
  rcases hostOp_next h with ⟨g, rfl⟩ | ⟨addr, v, g, rfl⟩ | ⟨n, g, rfl⟩
  · exact same_fields p s s.busy s.data s.pending s.pendingData s.turns g s.phase s.draws
  · have hw : Same p s (writeSlot (slotOfAddr s.cfg addr) v s) := by
      rcases writeSlot_cases (slotOfAddr s.cfg addr) v s with h | h | ⟨-, h⟩ | ⟨-, h⟩ <;> rw [h]
      · exact .refl p s
      · exact same_fields p s s.busy v s.pending s.pendingData s.turns s.host s.phase s.draws
      · exact same_fields p s true s.data v s.data s.turns s.host s.phase s.draws
      · exact recordErr_same (fun e => hp (by simp [e, errorWrites])) _ _ s
    revert hw
    generalize writeSlot (slotOfAddr s.cfg addr) v s = w
    exact fun hw => hw.trans (same_fields p w w.busy w.data w.pending w.pendingData w.turns g w.phase w.draws)
  · exact same_fields p s s.busy s.data s.pending s.pendingData s.turns g s.phase n

/-- The core's turn runs a command that writes the part `p`: its effect on the state with the schedule moved on. -/
def WritesPart (p : Part) (s t : State) : Prop :=
  ∃ i ts n v, decodeWord s.pending = .ok i ∧ p ∈ writes i ∧ Effect i { s with turns := ts, draws := n } v ∧
    t = { v with busy := false }

/-- Who changes a part that no error writes, where the rules apply: the release of the reset input, or the core by a command
that writes the part. -/
theorem step_same {p : Part} (hp : p ∉ errorWrites) {s t : State} (h : step s = .next t) (hrun : t.phase = .running) :
    Same p s t ∨ (ResetReleased s ∧ ∃ u, t = resetCore u) ∨ (CoreMoves s ∧ WritesPart p s t) := by
  obtain ⟨u, ⟨ts, n, rfl⟩, hcase⟩ := step_next h
  have hu : Same p s { s with turns := ts, draws := n } :=
    same_fields p s s.busy s.data s.pending s.pendingData ts s.host s.phase n
  rcases hcase with rfl | ⟨hc, v, hv, rfl⟩ | ⟨op, -, hop⟩ | rfl | rfl | ⟨hr, rfl⟩
  · exact .inl hu
  · have hdone : Same p v { v with busy := false } :=
      same_fields p v false v.data v.pending v.pendingData v.turns v.host v.phase v.draws
    unfold executeWord at hv
    split at hv
    · cases hv; exact .inl ((hu.trans (enterErr_same hp _ _ _ _)).trans hdone)
    · rename_i i hi
      rcases exec_next hv with ⟨e, rfl⟩ | he
      · exact .inl ((hu.trans (enterErr_same hp _ _ _ _)).trans hdone)
      · by_cases hw : p ∈ writes i
        · exact .inr (.inr ⟨hc, i, ts, n, v, hi, hw, he, rfl⟩)
        · exact .inl ((hu.trans (he.same hw)).trans hdone)
  · exact .inl (hu.trans (hostOp_same hp hop))
  · cases hrun
  · cases hrun
  · exact .inr (.inl ⟨hr, _, rfl⟩)

/-- CLEAR and the read commands write RESP (10_state.md R26). -/
theorem resp_mem_writes {i : Instr} : Part.resp ∈ writes i ↔ i = .clear ∨ (∃ x, i = .readFreq x) ∨
    (∃ x, i = .readCodeLen x) ∨ (∃ x w, i = .readCodeWord x w) ∨ ∃ a, i = .readOut a := by
  cases i <;> simp [writes]

/-- CLEAR and COUNT write the counts. -/
theorem counts_mem_writes {i : Instr} : Part.counts ∈ writes i ↔ i = .clear ∨ ∃ x, i = .count x := by
  cases i <;> simp [writes]

/-- CLEAR, GEN_CODES and WRITE_CODE write the code table (43_code_table.md R170). -/
theorem table_mem_writes {i : Instr} :
    Part.table ∈ writes i ↔ i = .clear ∨ i = .genCodes ∨ ∃ x l, i = .writeCode x l := by
  cases i <;> simp [writes]

end Sys2Proof.Machine
end

section
/-! RESP and FREQ: each is changed by the commands that write its part, and by the release of the reset input. -/

namespace Sys2Proof.Machine

/-- A command that does not write RESP leaves it, whether it succeeds or fails (10_state.md R26). -/
theorem exec_resp_of_not_writes {i : Instr} {s t : State} (hi : Part.resp ∉ writes i) (h : exec i s = .next t) :
    t.resp = s.resp := by
  rcases exec_next h with ⟨e, rfl⟩ | he
  · exact enterErr_same (p := .resp) (by simp [errorWrites]) _ _ _ s
  · exact he.same hi

/-- RESP after READ_OUT: the byte of a valid index, else as before (44_bit_packer.md R203). -/
theorem exec_readOut_resp {a : BitVec 24} {s t : State} (h : exec (.readOut a) s = .next t) :
    t.resp = if s.outValid = true ∧ a.toNat < s.outLen then (readOutByte s a.toNat).setWidth 32 else s.resp := by
  have hkeep : ∀ e, (enterErr e (opcodeOf (.readOut a)) (some (.readOut a)) s).resp = s.resp := fun e =>
    enterErr_same (p := .resp) (by simp [errorWrites]) _ _ _ s
  rcases sequenced_next h with ⟨hseq, rfl⟩ | ⟨hseq, hbody⟩
  · have hseq : s.outValid = false := hseq
    simp [hseq, hkeep]
  · have hseq : s.outValid = true := hseq
    split at hbody
    · cases hbody
      rw [if_neg (by omega), hkeep]
    · cases hbody
      rw [if_pos ⟨hseq, by omega⟩]

/-- Settles O44: the command's clause by its rule, the step's clause from the table of what each command writes. -/
theorem respChangesOnlyByReads : Obligations.RespChangesOnlyByReads := by
  refine ⟨fun i s t h => ?_, fun s t h hrun hne => ?_⟩
  · cases i
    case clear | readFreq | readCodeLen | readCodeWord => cases h; rfl
    case readOut a => exact exec_readOut_resp h
    all_goals exact exec_resp_of_not_writes (by simp [writes]) h
  · rcases step_same (p := .resp) (by simp [errorWrites]) h hrun with hsame | ⟨hr, -⟩ | ⟨hc, i, -, -, -, hi, hw, -, -⟩
    · exact absurd hsame hne
    · exact .inl hr
    · rcases resp_mem_writes.1 hw with rfl | ⟨x, rfl⟩ | ⟨x, rfl⟩ | ⟨x, w, rfl⟩ | ⟨a, rfl⟩
      · exact .inr ⟨hc, .inl hi⟩
      · exact .inr ⟨hc, .inr (.inl ⟨x, hi⟩)⟩
      · exact .inr ⟨hc, .inr (.inr (.inl ⟨x, hi⟩))⟩
      · exact .inr ⟨hc, .inr (.inr (.inr (.inl ⟨x, w, hi⟩)))⟩
      · exact .inr ⟨hc, .inr (.inr (.inr (.inr ⟨a, hi⟩)))⟩

/-- Settles O56: of the two commands that write FREQ, COUNT has no effect while a tree or a table is held. -/
theorem freqIsImmutableUntilClear : Obligations.FreqIsImmutableUntilClear := by
  intro s t h hrun hheld
  rcases step_same (p := .counts) (by simp [errorWrites]) h hrun with
    ⟨hfreq, -⟩ | ⟨hr, u, rfl⟩ | ⟨hc, i, ts, n, v, hi, hw, he, rfl⟩
  · exact .inl hfreq
  · exact .inr ⟨.inl hr, by simp⟩
  · rcases counts_mem_writes.1 hw with rfl | ⟨x, rfl⟩
    · have he : v = resetCore { s with turns := ts, draws := n } := he
      exact .inr ⟨.inr ⟨hc, hi⟩, by simp [he]⟩
    · obtain ⟨htree : s.treeValid = false, hcodes : s.codesValid = false, -⟩ := he
      simp [htree, hcodes] at hheld

end Sys2Proof.Machine
end

section
/-! Host reads while BUSY = 0: the slot's register, STATUS being the sum of its fields at their places (10_state.md R25). -/

namespace Sys2Proof.Machine

/-- A concatenation as a number. -/
theorem toNat_append_eq_add {m n : Nat} (x : BitVec m) (y : BitVec n) : (x ++ y).toNat = x.toNat * 2 ^ n + y.toNat := by
  rw [BitVec.toNat_append, ← Nat.shiftLeft_add_eq_or_of_lt y.isLt, Nat.shiftLeft_eq]

/-- STATUS is the sum of its fields (10_state.md R25). -/
theorem statusWord_eq_statusSum (s : State) : statusWord s = statusSum s := by
  apply BitVec.eq_of_toNat_eq
  have herr := s.err.isLt
  have hopc := s.errOpc.isLt
  have hbit (b : Bool) : b.toNat < 2 := Bool.toNat_lt b
  have h0 := hbit s.busy
  have h1 := hbit s.treeValid
  have h2 := hbit s.codesValid
  have h3 := hbit s.encActive
  have h4 := hbit s.outValid
  have h5 := hbit s.outKind
  simp only [statusWord, statusSum, flagBit, toNat_append_eq_add, BitVec.toNat_ofBool, BitVec.toNat_ofNat]
  omega

/-- The slot of an address given by its offset (20_memory.md R61). -/
theorem slotOfAddr_base_add (c : Config) (off : Word) : slotOfAddr c (c.base + off) = slotOfIndex (off.extractLsb' 2 4) := by
  rw [slotOfAddr, BitVec.add_comm, BitVec.add_sub_cancel]

/-- A 32-bit read while BUSY = 0 answers the slot's value and leaves the CORE (20_memory.md R64). -/
theorem hostOp_rd_idle {s : State} (hrun : s.phase = .running) (hidle : s.busy = false) (addr : Word) (var : Nat) :
    hostOp (.rd 32 addr var) s = .next (hostNext (hostStore var (slotValue (slotOfAddr s.cfg addr) s) s)) := by
  simp [hostOp, guardAccess, hrun, readSlot, afterRead, readIsFree, hidle]

/-- Settles O47: the sixteen slots by their offsets, and only offset bits 5:2 select. -/
theorem idleReadsReturnTheRegister : Obligations.IdleReadsReturnTheRegister := by
  rintro off addr var s hrun hidle rfl
  refine ⟨fun p hp hoff => ?_, fun a _ _ hbits => ?_⟩
  · have hval : slotValue (slotOfIndex (off.extractLsb' 2 4)) s = p.2 := by
      simp only [List.mem_cons, List.not_mem_nil, or_false] at hp
      rcases hp with rfl | rfl | rfl | rfl | rfl | rfl | rfl | rfl | rfl | rfl | rfl | rfl | rfl | rfl | rfl | rfl <;>
        subst hoff <;> simp [slotOfIndex, slotValue, Config.ident, statusWord_eq_statusSum]
    rw [hostOp_rd_idle hrun hidle, slotOfAddr_base_add, hval]
  · rw [hostOp_rd_idle hrun hidle, hostOp_rd_idle hrun hidle, slotOfAddr_base_add, slotOfAddr, hbits]

end Sys2Proof.Machine
end

section
/-! The counts and the code table as kept properties (10_state.md R46 (5), (6)): each is about one part that no error writes, so
it is enough to look at the commands that write the part. -/

namespace Sys2Proof.Machine

/-- A property of one part that no error writes is kept when the commands that write the part keep it. -/
theorem Kept.of_part {P : State → Prop} (p : Part) (hp : p ∉ errorWrites) (hcongr : ∀ s t, P s → Same p s t → P t)
    (heff : ∀ i s t, P s → p ∈ writes i → Effect i s t → P t) : Kept P where
  fields := fun s b d pe pd tu ho ph dr hs => hcongr s _ hs (same_fields p s b d pe pd tu ho ph dr)
  record := fun s e opc hs => hcongr s _ hs (recordErr_same (fun h => hp (by simp [h, errorWrites])) e opc s)
  encodeAbort := fun s hs => hcongr s _ hs (encodeAbort_same (fun h => hp (by simp_all [errorWrites])) s)
  decodeAbort := fun s hs => hcongr s _ hs (decodeAbort_same (fun h => hp (by simp [h, errorWrites])) s)
  effect := fun i s t hs he => by
    by_cases hw : p ∈ writes i
    · exact heff i s t hs hw he
    · exact hcongr s t hs (he.same hw)

/-! ## The counts -/

theorem CountsInv.congr {s t : State} (hs : CountsInv s) (h : Same .counts s t) : CountsInv t := by
  obtain ⟨hfreq, htotal, hnsym⟩ := h
  exact ⟨by rw [htotal, hfreq, hs.total], by rw [hnsym, hfreq, hs.nsym]⟩

theorem countsInv_resetCore (s : State) : CountsInv (resetCore s) := by
  constructor <;> simp [freqSum, presentSyms]

/-- COUNT below the bound of TOTAL keeps the counts: no entry wraps, since TOTAL bounds it (41_frequency_counter.md R121,
R122). -/
theorem CountsInv.countSym {s : State} (hs : CountsInv s) (hb : s.total ≠ 0xFFFFFFFF) (x : Sym) : CountsInv (countSym x s) := by
  have hle := le_freqSum s.freq x
  have htotal := hs.total
  have hlt : s.total.toNat < 2 ^ 32 - 1 := by
    have hne : s.total.toNat ≠ 2 ^ 32 - 1 := fun e => hb (BitVec.eq_of_toNat_eq e)
    omega
  have hinc : (symGet s.freq x + 1).toNat = (symGet s.freq x).toNat + 1 := by bv_omega
  have hsum := freqSum_symSet s.freq x (symGet s.freq x + 1)
  constructor
  · have htot : (s.total + 1).toNat = s.total.toNat + 1 := by bv_omega
    rw [countSym_total, countSym_freq]
    omega
  · rw [countSym_nsym, countSym_freq, present_symSet _ _ _ (by omega), hs.nsym]
    split <;> rfl

theorem kept_counts : Kept CountsInv :=
  .of_part .counts (by simp [errorWrites]) (fun _ _ => CountsInv.congr) fun i s t hs hw he => by
    rcases counts_mem_writes.1 hw with rfl | ⟨x, rfl⟩
    · have he : t = resetCore s := he
      exact he ▸ countsInv_resetCore s
    · obtain ⟨-, -, hb, rfl⟩ := he
      exact hs.countSym hb x

/-- Settles O53: the counts are kept, and a reset gives them. -/
theorem stepKeepsCounts : Obligations.StepKeepsCounts :=
  fun _ _ hs ht hp => kept_counts.step hs (fun _ _ => countsInv_resetCore _) ht hp

/-! ## The code table -/

theorem CodesInv.congr {s t : State} (hs : CodesInv s) (h : Same .table s t) : CodesInv t := by
  obtain ⟨-, hlen, hval⟩ := h
  constructor <;> rw [hlen, hval]
  exacts [hs.small, hs.distinct]

theorem codesInv_resetCore (s : State) : CodesInv (resetCore s) := by
  constructor <;> simp

/-- The code of a symbol in the table of a tree: "0" for a tree of one leaf, else the path to a leaf of the symbol
(43_code_table.md R162, R163). -/
theorem codeOf_tableOfTree {node : Nat → Node} {root : Nat} {t : CodeTable} (h : tableOfTree node root = some t) {x : Sym}
    (hx : symGet t.len x ≠ 0) :
    (∃ f, node root = .leaf x f ∧ codeOf t.len t.val x = [false]) ∨
      ∃ f, walkFrom node root (codeOf t.len t.val x) = some (.leaf x f) := by
  rcases tableOfTree_entry h x with ⟨h0, -⟩ | ⟨q, -, hle, hpath, hq⟩
  · exact absurd h0 hx
  · rw [codeOf_of_hasPath hle hpath]
    exact hq

/-- In the table of a tree no code begins another: a path to a leaf does not go on (43_code_table.md R165 (a)). -/
theorem prefixFree_tableOfTree {node : Nat → Node} {root : Nat} {t : CodeTable} (h : tableOfTree node root = some t) :
    PrefixFree t.len t.val := by
  have hleaf : ∀ {x y : Sym} {f g : Word}, node root = .leaf x f →
      (node root = .leaf y g ∨ walkFrom node root (codeOf t.len t.val y) = some (.leaf y g)) → x = y := by
    intro x y f g hroot hy
    rcases hy with hy | hy
    · rw [hroot] at hy; cases hy; rfl
    · cases (walkFrom_leaf hroot hy).2; rfl
  intro x y hx hy hpre
  rcases codeOf_tableOfTree h hx with ⟨f, hroot, -⟩ | ⟨f, hwx⟩ <;>
    rcases codeOf_tableOfTree h hy with ⟨g, hroot', -⟩ | ⟨g, hwy⟩
  · exact hleaf hroot (.inl hroot')
  · exact hleaf hroot (.inr hwy)
  · exact (hleaf hroot' (.inr hwx)).symm
  · cases (walkFrom_prefix root _ _ hwx hwy hpre).2; rfl

/-- GEN_CODES leaves a table that meets the invariants (10_state.md R39). -/
theorem codesInv_loadTable {node : Nat → Node} {root : Nat} {tab : CodeTable} (h : tableOfTree node root = some tab)
    (s : State) : CodesInv (loadTable tab s) := by
  constructor
  · intro x
    show (symGet tab.val x).toNat < 2 ^ (symGet tab.len x).toNat
    rcases tableOfTree_entry h x with ⟨hlen, hval⟩ | ⟨q, -, hle, ⟨hlen, hval⟩, -⟩
    · simp [hlen, hval]
    · have hmod : q.length % 2 ^ 8 = q.length := Nat.mod_eq_of_lt (Nat.lt_of_le_of_lt hle (by decide))
      rw [hlen, hval, BitVec.toNat_ofNat, BitVec.toNat_ofNat, hmod]
      exact Nat.lt_of_le_of_lt (Nat.mod_le _ _) (bitsVal_lt q)
  · intro x y hne hx hlen hval
    have hlen : symGet tab.len x = symGet tab.len y := hlen
    have hval : symGet tab.val x = symGet tab.val y := hval
    refine hne (prefixFree_tableOfTree h x y hx (hlen ▸ hx) ?_)
    rw [codeOf, codeOf, hlen, hval]

/-- No other symbol has a code that is no duplicate (43_code_table.md R169). -/
theorem ne_of_not_duplicate {s : State} {x : Sym} {l : BitVec 8} {v : BitVec 256} (hd : duplicateCode s x l v ≠ true) {y : Sym}
    (hy : y ≠ x) (hlen : symGet s.codeLen y = l) : symGet s.codeVal y ≠ v :=
  fun hval => hd (List.any_eq_true.2 ⟨y, mem_allSyms y, by simp [hy, hlen, hval]⟩)

/-- WRITE_CODE of a code that no other symbol has keeps the invariants (43_code_table.md R169). -/
theorem CodesInv.putCode {s : State} (hs : CodesInv s) {x : Sym} {l : BitVec 8}
    (hd : ¬ (0 < l.toNat ∧ duplicateCode s x l (stagedCode s l) = true)) : CodesInv (putCode x l (stagedCode s l) s) := by
  have hother : l ≠ 0 → ∀ y, y ≠ x → symGet s.codeLen y = l → symGet s.codeVal y ≠ stagedCode s l := fun hl y =>
    ne_of_not_duplicate fun h => hd ⟨Nat.pos_of_ne_zero fun e => hl (BitVec.eq_of_toNat_eq e), h⟩
  constructor
  · intro y
    rw [putCode_codeVal, putCode_codeLen, symGet_symSet, symGet_symSet]
    split
    · rw [stagedCode_toNat]; exact Nat.mod_lt _ (Nat.two_pow_pos _)
    · exact hs.small y
  · intro y z hne
    rw [putCode_codeVal, putCode_codeLen, symGet_symSet, symGet_symSet, symGet_symSet, symGet_symSet]
    by_cases hy : y = x <;> by_cases hz : z = x
    · exact absurd (hy.trans hz.symm) hne
    · rw [if_pos hy, if_neg hz, if_pos hy, if_neg hz]
      exact fun hl hlen hval => hother hl z hz hlen.symm hval.symm
    · rw [if_neg hy, if_pos hz, if_neg hy, if_pos hz]
      exact fun hl hlen => hother (hlen ▸ hl) y hy hlen
    · rw [if_neg hy, if_neg hz, if_neg hy, if_neg hz]
      exact hs.distinct y z hne

theorem kept_codes : Kept CodesInv :=
  .of_part .table (by simp [errorWrites]) (fun _ _ => CodesInv.congr) fun i s t hs hw he => by
    rcases table_mem_writes.1 hw with rfl | rfl | ⟨x, l, rfl⟩
    · have he : t = resetCore s := he
      exact he ▸ codesInv_resetCore s
    · obtain ⟨-, -, tab, htab, rfl⟩ := he
      exact codesInv_loadTable htab s
    · obtain ⟨-, -, hd, rfl⟩ := he
      exact hs.putCode hd

/-- Settles O54: the table's invariants are kept, and a reset gives them. -/
theorem stepKeepsCodeTable : Obligations.StepKeepsCodeTable :=
  fun _ _ hs ht hp => kept_codes.step hs (fun _ _ => codesInv_resetCore _) ht hp

end Sys2Proof.Machine
end

section
/-! The parts of `CoreInv` that are about flags, stream, buffers and tree: each is kept by the commands that write its part. -/

namespace Sys2Proof.Machine

/-! ## The flags (10_state.md R46 (2) to (4)) -/

/-- Errors, output and stream as before, and CODES_VALID not taken back. -/
theorem FlagsInv.congr {s t : State} (hs : FlagsInv s) (herr : Same .error s t) (hout : Same .output s t)
    (hstream : Same .stream s t) (hcodes : s.codesValid = true → t.codesValid = true) : FlagsInv t := by
  obtain ⟨he, ho⟩ := herr
  obtain ⟨hv, hl, -⟩ := hout
  obtain ⟨ha, -⟩ := hstream
  constructor
  · rw [ha, hv, hl]
    exact fun h => ⟨hcodes (hs.stream h).1, (hs.stream h).2⟩
  · rw [hv, hl]; exact hs.noOut
  · rw [he, ho]; exact hs.noErr
  · rw [he]; exact hs.codes

theorem FlagsInv.recordErr {s : State} (hs : FlagsInv s) (e : Err) (opc : BitVec 8) : FlagsInv (recordErr e opc s) := by
  unfold Machine.recordErr
  split
  · exact ⟨hs.stream, hs.noOut, fun h => absurd h (errCode_ne e), errCode_le e⟩
  · exact hs

theorem FlagsInv.encodeAbort {s : State} (hs : FlagsInv s) : FlagsInv (encodeAbort s) :=
  ⟨fun h => (by cases h), fun _ => rfl, hs.noErr, hs.codes⟩

theorem FlagsInv.decodeAbort {s : State} (hs : FlagsInv s) : FlagsInv (decodeAbort s) :=
  ⟨fun h => ⟨(hs.stream h).1, rfl, rfl⟩, fun _ => rfl, hs.noErr, hs.codes⟩

/-- Starting a stream needs a table (44_bit_packer.md R192). -/
theorem FlagsInv.openStream {s : State} (hs : FlagsInv s) (hc : s.codesValid = true) : FlagsInv (openStream s) := by
  rcases openStream_cases s with ⟨-, h⟩ | ⟨-, h⟩ <;> rw [h]
  · exact hs
  · exact ⟨fun _ => ⟨hc, rfl, rfl⟩, fun _ => rfl, hs.noErr, hs.codes⟩

theorem flagsInv_resetCore (s : State) : FlagsInv (resetCore s) := by
  constructor <;> simp

theorem FlagsInv.effect {i : Instr} {s t : State} (hs : FlagsInv s) (he : Effect i s t) : FlagsInv t := by
  cases i
  case clear => cases he; exact flagsInv_resetCore s
  case errClear => cases he; exact ⟨hs.stream, hs.noOut, fun _ => rfl, by simp⟩
  case genCodes =>
    obtain ⟨-, -, tab, -, rfl⟩ := he
    exact hs.congr ⟨rfl, rfl⟩ ⟨rfl, rfl, rfl⟩ ⟨rfl, rfl, rfl⟩ fun _ => rfl
  case writeCode =>
    obtain ⟨-, -, -, rfl⟩ := he
    exact hs.congr ⟨rfl, rfl⟩ ⟨rfl, rfl, rfl⟩ ⟨rfl, rfl, rfl⟩ fun _ => rfl
  case encSym =>
    obtain ⟨hc, -, -, rfl⟩ := he
    have ho := hs.openStream hc
    exact ⟨ho.stream, ho.noOut, ho.noErr, ho.codes⟩
  case encFinish =>
    obtain ⟨hc, rfl⟩ := he
    have ho := hs.openStream hc
    exact ⟨fun h => (by cases h), fun h => (by cases h), ho.noErr, ho.codes⟩
  case decode =>
    obtain ⟨-, hidle, -, -, out, -, rfl⟩ := he
    have hidle : (storeDecoded out (readIn s 0) s).encActive = false := hidle
    exact ⟨fun h => (by rw [hidle] at h; cases h), fun h => (by cases h), hs.noErr, hs.codes⟩
  all_goals
    exact hs.congr (he.same (by simp [writes])) (he.same (by simp [writes])) (he.same (by simp [writes])) fun h =>
      (he.same (p := .table) (by simp [writes])).1.trans h

/-! ## The stream (10_state.md R31, 44_bit_packer.md R193) -/

theorem StreamInv.congr {s t : State} (hs : StreamInv s) (h : Same .stream s t) (hcfg : t.cfg = s.cfg) : StreamInv t := by
  obtain ⟨-, hstream, hbits⟩ := h
  exact ⟨by rw [hbits, hstream, hs.bits], by rw [hstream, hcfg]; exact hs.fits⟩

/-- An empty stream fits every legal OUT_MEM. -/
theorem streamInv_of_empty {s : State} (hcfg : s.cfg.wf = true) (hstream : s.encStream = []) (hbits : s.encBits = 0) :
    StreamInv s := by
  obtain ⟨-, -, hcap, -⟩ := wf_bounds hcfg
  exact ⟨by simp [hstream, hbits], by simpa [hstream, finishedBytes] using hcap⟩

theorem StreamInv.openStream {s : State} (hs : StreamInv s) (hcfg : s.cfg.wf = true) : StreamInv (openStream s) := by
  rcases openStream_cases s with ⟨-, h⟩ | ⟨-, h⟩ <;> rw [h]
  · exact hs
  · exact streamInv_of_empty hcfg rfl rfl

/-- A code that fits is appended with its length counted; OUT_CAP keeps the sum in 32 bits (44_bit_packer.md R193). -/
theorem StreamInv.appendCode {s : State} (hs : StreamInv s) (hcfg : s.cfg.wf = true) {x : Sym}
    (hfit : finishedBytes (s.encBits.toNat + (symGet s.codeLen x).toNat) ≤ s.cfg.outCap) : StreamInv (appendCode x s) := by
  obtain ⟨-, -, -, hcap⟩ := wf_bounds hcfg
  have hlen : (Machine.appendCode x s).encStream.length = s.encBits.toNat + (symGet s.codeLen x).toNat := by
    simp [hs.bits]
  constructor
  · rw [hlen, appendCode_encBits, BitVec.toNat_ofNat]
    unfold finishedBytes at hfit
    omega
  · rw [hlen]; exact hfit

theorem StreamInv.effect {i : Instr} {s t : State} (hs : StreamInv s) (hcfg : s.cfg.wf = true) (he : Effect i s t) :
    StreamInv t := by
  cases i
  case clear => cases he; exact streamInv_of_empty hcfg rfl rfl
  case encSym x =>
    obtain ⟨-, -, hfit, rfl⟩ := he
    have hopen := openStream_cfg s
    exact (hs.openStream hcfg).appendCode (by rw [hopen]; exact hcfg) (by
      rw [hopen, (openStream_same (p := .table) (by simp) s).2.1]; exact hfit)
  case encFinish =>
    obtain ⟨-, rfl⟩ := he
    have ho := hs.openStream hcfg
    exact ⟨ho.bits, ho.fits⟩
  all_goals exact hs.congr (he.same (by simp [writes])) he.cfg_eq

/-! ## The buffers (10_state.md R29, R30, R48) -/

/-- What `BuffersInv` asks of the input buffer. -/
structure InputInv (s : State) : Prop where
  wf     : Memory.wf s.inMem
  len    : s.inLen ≤ s.cfg.inCap
  listed : ∀ a, (storeGet s.inMem a).isSome = true ↔ a < s.inLen

/-- What `BuffersInv` asks of the output buffer. -/
structure OutputInv (s : State) : Prop where
  wf     : Memory.wf s.outMem
  len    : s.outLen ≤ s.cfg.outCap
  listed : ∀ a, a < s.outLen → (storeGet s.outMem a).isSome = true
  bound  : ∀ a, (storeGet s.outMem a).isSome = true → a < s.cfg.outCap

theorem buffersInv_iff {s : State} : BuffersInv s ↔ InputInv s ∧ OutputInv s ∧ Store.wf s.nodes :=
  ⟨fun h => ⟨⟨h.inWf, h.inLen, h.inListed⟩, ⟨h.outWf, h.outLen, h.outListed, h.outBound⟩, h.nodesWf⟩,
    fun ⟨hi, ho, hn⟩ => ⟨hi.wf, ho.wf, hn, hi.len, ho.len, hi.listed, ho.listed, ho.bound⟩⟩

theorem InputInv.congr {s t : State} (hs : InputInv s) (h : Same .input s t) (hcfg : t.cfg = s.cfg) : InputInv t := by
  obtain ⟨hlen, hmem⟩ := h
  constructor
  · rw [hmem]; exact hs.wf
  · rw [hlen, hcfg]; exact hs.len
  · rw [hmem, hlen]; exact hs.listed

theorem inputInv_of_empty {s : State} (hmem : s.inMem = []) (hlen : s.inLen = 0) : InputInv s := by
  constructor <;> simp [hmem, hlen]

theorem InputInv.effect {i : Instr} {s t : State} (hs : InputInv s) (he : Effect i s t) : InputInv t := by
  cases i
  case clear => cases he; exact inputInv_of_empty rfl rfl
  case inClear => cases he; exact inputInv_of_empty rfl rfl
  case inPush b =>
    obtain ⟨hroom, rfl⟩ := he
    refine ⟨storePut_wf hs.wf _ _, Nat.lt_of_le_of_ne hs.len hroom, fun a => ?_⟩
    show (storeGet (storePut s.inMem s.inLen b) a).isSome = true ↔ a < s.inLen + 1
    rw [storeGet_put]
    split
    · simp [*]
    · rw [hs.listed]; omega
  all_goals exact hs.congr (he.same (by simp [writes])) he.cfg_eq

theorem OutputInv.congr {s t : State} (hs : OutputInv s) (h : Same .output s t) (hcfg : t.cfg = s.cfg) : OutputInv t := by
  obtain ⟨-, hlen, hmem⟩ := h
  constructor
  · rw [hmem]; exact hs.wf
  · rw [hlen, hcfg]; exact hs.len
  · rw [hmem, hlen]; exact hs.listed
  · rw [hmem, hcfg]; exact hs.bound

theorem outputInv_of_empty {s : State} (hmem : s.outMem = []) (hlen : s.outLen = 0) : OutputInv s := by
  constructor <;> simp [hmem, hlen]

/-- OUT_LEN 0 asks nothing of OUT_MEM but what it keeps. -/
theorem OutputInv.close {s t : State} (hs : OutputInv s) (hlen : t.outLen = 0) (hmem : t.outMem = s.outMem)
    (hcfg : t.cfg = s.cfg) : OutputInv t := by
  constructor
  · rw [hmem]; exact hs.wf
  · rw [hlen]; exact Nat.zero_le _
  · rw [hlen]; exact fun a ha => absurd ha (Nat.not_lt_zero a)
  · rw [hmem, hcfg]; exact hs.bound

/-- Bytes that fit are written from index 0, with OUT_LEN their number. -/
theorem OutputInv.write {s t : State} (hs : OutputInv s) (vs : List Byte) (hfit : vs.length ≤ s.cfg.outCap)
    (hlen : t.outLen = vs.length) (hmem : t.outMem = storePutFrom s.outMem 0 vs) (hcfg : t.cfg = s.cfg) : OutputInv t := by
  constructor
  · rw [hmem]; exact storePutFrom_wf hs.wf 0 vs
  · rw [hlen, hcfg]; exact hfit
  · rw [hlen, hmem]; exact fun a => listed_put s.outMem vs a
  · rw [hmem, hcfg]
    exact fun a ha => (storeGet_listed s.outMem vs a ha).elim (fun h => Nat.lt_of_lt_of_le h hfit) (hs.bound a)

theorem OutputInv.openStream {s : State} (hs : OutputInv s) : OutputInv (openStream s) := by
  rcases openStream_cases s with ⟨-, h⟩ | ⟨-, h⟩ <;> rw [h]
  · exact hs
  · exact hs.close rfl rfl rfl

/-- A finished stream fits OUT_MEM (44_bit_packer.md R193, R197). -/
theorem OutputInv.finishStream {s : State} (hs : OutputInv s) (hstream : StreamInv s) : OutputInv (finishStream s) := by
  refine hs.write (bytesOfBits (paddedStream s.encStream) ((paddedStream s.encStream).length / 8)) ?_ ?_ rfl rfl
  · have hfits := hstream.fits
    unfold finishedBytes at hfits
    rw [length_bytesOfBits, length_paddedStream]
    omega
  · rw [length_bytesOfBits]; rfl

theorem OutputInv.effect {i : Instr} {s t : State} (hs : OutputInv s) (hstream : StreamInv s) (hcfg : s.cfg.wf = true)
    (he : Effect i s t) : OutputInv t := by
  cases i
  case clear => cases he; exact outputInv_of_empty rfl rfl
  case encSym x =>
    obtain ⟨-, -, -, rfl⟩ := he
    exact hs.openStream.congr ⟨rfl, rfl, rfl⟩ rfl
  case encFinish =>
    obtain ⟨-, rfl⟩ := he
    exact hs.openStream.finishStream (hstream.openStream hcfg)
  case decode =>
    obtain ⟨-, -, -, -, out, hscan, rfl⟩ := he
    exact hs.write out (scanBits_length _ _ _ _ (Nat.zero_le _) hscan) rfl rfl rfl
  all_goals exact hs.congr (he.same (by simp [writes])) he.cfg_eq

/-! ## The tree (10_state.md R46 (1), (7)) -/

theorem builderStart_wf {s : State} (hs : Store.wf s.nodes) : Store.wf (builderStart s).nodes := storePutFrom_wf hs 0 _

/-- The builder keeps the canonical form of the node store. -/
theorem buildWith_wf {choose : Nat → Nat} {s : State} (hs : Store.wf s.nodes) (hne : presentSyms s.freq ≠ []) {b : Builder}
    (h : buildWith choose s = some b) : Store.wf b.nodes := by
  have hpos : 0 < (presentSyms s.freq).length := List.length_pos_iff.2 hne
  obtain ⟨b', hb', hwf, -, -⟩ := mergeLoop_induction (tie := s.cfg.tie) (choose := choose) (k := s.draws)
    (fun b => Store.wf b.nodes)
    (fun t t' hwf _ hm => by
      obtain ⟨x, y, -, -, -, -, hnodes⟩ := mergeOnce_spec hm
      rw [hnodes]; exact storePut_wf hwf _ _)
    (leavesOf s.freq).length (builderStart s) (builderStart_wf hs) (by simpa [builderStart] using hpos) (by simp [builderStart])
  rw [buildWith, hb'] at h
  cases h
  exact hwf

theorem nodesWf_effect {i : Instr} {s t : State} (hs : Store.wf s.nodes) (hcounts : CountsInv s) (he : Effect i s t) :
    Store.wf t.nodes := by
  cases i
  case clear => cases he; exact List.Pairwise.nil
  case buildTree =>
    obtain ⟨-, -, hn, b, root, q, hb, -, rfl⟩ := he
    exact buildWith_wf hs (present_ne hcounts hn) hb
  all_goals
    rw [(he.same (p := .tree) (by simp [writes])).2.1]
    exact hs

theorem TreeInv.congr {s t : State} (hs : TreeInv s) (hcounts : Same .counts s t) (htree : Same .tree s t)
    (htable : Same .table s t) : TreeInv t := by
  obtain ⟨hfreq, -, hnsym⟩ := hcounts
  obtain ⟨hvalid, hnodes, hnn, hroot, hpq⟩ := htree
  obtain ⟨hcv, hlen, hval⟩ := htable
  constructor
  · rw [hvalid, hnn, hpq]; exact hs.absent
  · rw [hvalid]; exact fun h => (hs.present h).congr hnsym hnn hroot hpq hnodes hfreq
  · rw [hvalid, hcv, hnodes, hroot, hlen, hval]; exact hs.table

theorem treeInv_of_absent {s : State} (hvalid : s.treeValid = false) (hnn : s.nnodes = 0) (hpq : s.pq = []) : TreeInv s :=
  ⟨fun _ => ⟨hnn, hpq⟩, fun h => (by rw [hvalid] at h; cases h), fun h => (by rw [hvalid] at h; cases h)⟩

/-- Without a tree nothing but NNODES and PQ matters. -/
theorem TreeInv.stay_absent {s t : State} (hs : TreeInv s) (habsent : s.treeValid = false) (htree : Same .tree s t) :
    TreeInv t := by
  obtain ⟨hnn, hpq⟩ := hs.absent habsent
  obtain ⟨hvalid, -, hnn', -, hpq'⟩ := htree
  exact treeInv_of_absent (hvalid.trans habsent) (hnn'.trans hnn) (hpq'.trans hpq)

/-- BUILD_TREE leaves a built tree and no table (42_tree_builder.md R141, R145). -/
theorem treeInv_finishBuild {choose : Nat → Nat} {s : State} (hcounts : CountsInv s) (hn : s.nsym ≠ 0)
    (hcodes : s.codesValid = false) {b : Builder} {root : Nat} {q : List Nat} (hb : buildWith choose s = some b)
    (hq : b.pq = root :: q) : TreeInv (finishBuild b root s) := by
  have hne := present_ne hcounts hn
  obtain ⟨b', hb', hpq, -⟩ := buildWith_ends choose s hne
  rw [hb] at hb'
  cases hb'
  rw [hq] at hpq
  cases hpq
  exact ⟨fun h => (by cases h), fun _ => builtTree_of_buildWith hcounts hne hb,
    fun _ h => (by rw [finishBuild_codesValid, hcodes] at h; cases h)⟩

/-- GEN_CODES leaves the table of the tree, which no free value shows in (43_code_table.md R161). -/
theorem TreeInv.loadTable {s : State} (hs : TreeInv s) (hvalid : s.treeValid = true) {k : Nat} {tab : CodeTable}
    (htab : tableOfTree (nodeAt s.nodes k) s.root = some tab) : TreeInv (loadTable tab s) := by
  have hbuilt := hs.present hvalid
  exact ⟨hs.absent, fun _ => hbuilt.congr rfl rfl rfl rfl rfl rfl, fun _ _ k' => (table_congr hbuilt k' k).trans htab⟩

theorem TreeInv.effect {i : Instr} {s t : State} (hs : TreeInv s) (hcounts : CountsInv s) (he : Effect i s t) : TreeInv t := by
  cases i
  case clear => cases he; exact treeInv_of_absent rfl rfl rfl
  case count | writeCode =>
    have habsent := he.1
    exact hs.stay_absent habsent (he.same (by simp [writes]))
  case buildTree =>
    obtain ⟨-, hcodes, hn, b, root, q, hb, hq, rfl⟩ := he
    exact treeInv_finishBuild hcounts hn hcodes hb hq
  case genCodes =>
    obtain ⟨hvalid, -, tab, htab, rfl⟩ := he
    exact hs.loadTable hvalid htab
  all_goals exact hs.congr (he.same (by simp [writes])) (he.same (by simp [writes])) (he.same (by simp [writes]))

end Sys2Proof.Machine
end

section
/-! The invariants of 10_state.md R46 together: a reset gives them, every step keeps them where the rules apply, and so every
reachable state out of reset meets them. -/

namespace Sys2Proof.Machine

/-- CLEAR and the release of the reset input give the invariants (40_control.md R108, 70_reset_and_hazards.md R280). -/
theorem coreInv_resetCore {s : State} (hcfg : s.cfg.wf = true) : CoreInv (resetCore s) where
  cfg := hcfg
  counts := countsInv_resetCore s
  flags := flagsInv_resetCore s
  codes := codesInv_resetCore s
  stream := streamInv_of_empty hcfg rfl rfl
  buffers := buffersInv_iff.2 ⟨inputInv_of_empty rfl rfl, outputInv_of_empty rfl rfl, List.Pairwise.nil⟩
  tree := treeInv_of_absent rfl rfl rfl

/-- The reset state of a legal configuration meets the invariants, whatever schedule and host stand beside the CORE. -/
theorem coreInv_reset {c : Config} (hcfg : c.wf = true) (k : Nat) (ts : List Turn) (g : HostAgent) :
    CoreInv { State.resetAt c k with turns := ts, host := g } :=
  coreInv_resetCore (s := { State.resetAt c k with turns := ts, host := g, draws := k }) hcfg

theorem coreInv_resetAt {c : Config} (hcfg : c.wf = true) (k : Nat) : CoreInv (State.resetAt c k) :=
  coreInv_reset hcfg k [] (State.resetAt c k).host

theorem CoreInv.sysInv {s : State} (h : CoreInv s) : SysInv s := ⟨h.cfg, fun _ => h⟩

/-- Settles O51: the reset state is what `coreInv_reset` speaks of. -/
theorem resetMeetsInvariants : Obligations.ResetMeetsInvariants := by
  have hreset : CoreInv State.reset := coreInv_resetAt (c := Config.default) (by decide) 0
  exact ⟨hreset.sysInv, hreset, fun c k hc => ⟨(coreInv_resetAt hc k).sysInv, coreInv_resetAt hc k⟩⟩

/-- What error entry leaves of the invariants: it is enough to look at the flags, the stream and the output. -/
theorem CoreInv.of_errorWrites {s t : State} (hs : CoreInv s) (hcfg : t.cfg = s.cfg) (h : ∀ p, p ∉ errorWrites → Same p s t)
    (hflags : FlagsInv t) (hstream : StreamInv t) (hout : OutputInv t) : CoreInv t := by
  have hcounts := h .counts (by simp [errorWrites])
  have htree := h .tree (by simp [errorWrites])
  have htable := h .table (by simp [errorWrites])
  obtain ⟨hin, -, hnodes⟩ := buffersInv_iff.1 hs.buffers
  exact {
    cfg := hcfg ▸ hs.cfg
    counts := hs.counts.congr hcounts
    flags := hflags
    codes := hs.codes.congr htable
    stream := hstream
    buffers := buffersInv_iff.2 ⟨hin.congr (h .input (by simp [errorWrites])) hcfg, hout, htree.2.1 ▸ hnodes⟩
    tree := hs.tree.congr hcounts htree htable }

theorem CoreInv.output {s : State} (hs : CoreInv s) : OutputInv s := (buffersInv_iff.1 hs.buffers).2.1

theorem CoreInv.recordErr {s : State} (hs : CoreInv s) (e : Err) (opc : BitVec 8) : CoreInv (recordErr e opc s) := by
  have hcfg : (Machine.recordErr e opc s).cfg = s.cfg := (kept_cfg s.cfg).record s e opc rfl
  have hsame : ∀ p, p ≠ .error → Same p s (Machine.recordErr e opc s) := fun p hp => recordErr_same hp e opc s
  exact hs.of_errorWrites hcfg (fun p hp => hsame p fun h => hp (by simp [h, errorWrites])) (hs.flags.recordErr e opc)
    (hs.stream.congr (hsame .stream nofun) hcfg) (hs.output.congr (hsame .output nofun) hcfg)

theorem CoreInv.encodeAbort {s : State} (hs : CoreInv s) : CoreInv (encodeAbort s) :=
  hs.of_errorWrites rfl (fun _ hp => encodeAbort_same (fun h => hp (List.mem_cons_of_mem _ h)) s) hs.flags.encodeAbort
    (streamInv_of_empty hs.cfg rfl rfl) (hs.output.close rfl rfl rfl)

theorem CoreInv.decodeAbort {s : State} (hs : CoreInv s) : CoreInv (decodeAbort s) :=
  hs.of_errorWrites rfl (fun _ hp => decodeAbort_same (fun h => hp (by simp [h, errorWrites])) s) hs.flags.decodeAbort
    (hs.stream.congr ⟨rfl, rfl, rfl⟩ rfl) (outputInv_of_empty rfl rfl)

/-- The effect of every command keeps the invariants. -/
theorem CoreInv.effect {i : Instr} {s t : State} (hs : CoreInv s) (he : Effect i s t) : CoreInv t := by
  obtain ⟨hin, hout, hnodes⟩ := buffersInv_iff.1 hs.buffers
  exact {
    cfg := he.cfg_eq ▸ hs.cfg
    counts := kept_counts.effect i s t hs.counts he
    flags := hs.flags.effect he
    codes := kept_codes.effect i s t hs.codes he
    stream := hs.stream.effect hs.cfg he
    buffers := buffersInv_iff.2 ⟨hin.effect he, hout.effect hs.stream hs.cfg he, nodesWf_effect hnodes hs.counts he⟩
    tree := hs.tree.effect hs.counts he }

theorem kept_coreInv : Kept CoreInv where
  fields := fun s b d pe pd tu ho ph dr hs =>
    have hsame : ∀ p, Same p s _ := fun p => same_fields p s b d pe pd tu ho ph dr
    hs.of_errorWrites rfl (fun p _ => hsame p) (hs.flags.congr (hsame .error) (hsame .output) (hsame .stream) id)
      (hs.stream.congr (hsame .stream) rfl) (hs.output.congr (hsame .output) rfl)
  record := fun _ e opc hs => hs.recordErr e opc
  encodeAbort := fun _ hs => hs.encodeAbort
  decodeAbort := fun _ hs => hs.decodeAbort
  effect := fun _ _ _ hs he => hs.effect he

/-- Settles O50: `CoreInv` is kept and given by a reset, and no step changes the parameters. -/
theorem stepKeepsInvariants : Obligations.StepKeepsInvariants := fun s t hs ht =>
  ⟨parametersNeverChange s t ht ▸ hs.cfg,
    kept_coreInv.step hs.core (fun _ _ => coreInv_resetCore hs.cfg) ht⟩

theorem Reachable.sysInv {s : State} (h : Reachable s) : SysInv s := by
  induction h with
  | start c k ts g hc => exact (coreInv_reset hc k ts g).sysInv
  | next s t _ ht ih => exact stepKeepsInvariants s t ih ht

/-- The reset state with a host that writes NOP to CMD twice, before the core moves. -/
def overrunStart : State :=
  { State.reset with turns := [.host, .host], host := { prog := [.wr 32 0 0, .wr 32 0 0], pc := 0, vars := [], failed := false } }

/-- The second write is an overrun (40_control.md R101): it records BUSY_OVERRUN with the opcode of NOP, which is 0. -/
theorem overrun_reached :
    ∃ s t, step overrunStart = .next s ∧ step s = .next t ∧ t.phase = .running ∧ t.err = 11 ∧ t.errOpc = 0 :=
  ⟨_, _, rfl, rfl, rfl, rfl, rfl⟩

/-- Settles O52: the invariants by induction over the steps; a NOP that overruns a pending NOP for the converse of (4). -/
theorem reachableStatesMeetInvariants : Obligations.ReachableStatesMeetInvariants := by
  refine ⟨fun s hs => hs.sysInv.core, ?_⟩
  obtain ⟨s, t, hs, ht, hrun, herr, hopc⟩ := overrun_reached
  have hstart : Reachable overrunStart := .start Config.default 0 _ _ (by decide)
  exact ⟨t, .next s t (.next _ s hstart hs) ht, hrun, by simp [herr], hopc⟩

end Sys2Proof.Machine
end

section
/-! Host accesses that have no step (20_memory.md R62, 70_reset_and_hazards.md R280, R282): the guard of an access looks at the
phase first and at the width only in a running core, so what the access would do does not matter. -/

namespace Sys2Proof.Machine

theorem guardAccess_powerUp {s : State} (hs : s.phase = .powerUp) (width : Nat) (access : Out) :
    guardAccess width s access = .refused .accessBeforeReset := by
  simp [guardAccess, hs]

theorem guardAccess_resetAsserted {s : State} (hs : s.phase = .resetAsserted) (width : Nat) (access : Out) :
    guardAccess width s access = .refused .accessDuringReset := by
  simp [guardAccess, hs]

theorem guardAccess_width_ne {s : State} {width : Nat} (hs : s.phase = .running) (hw : width ≠ 32) (access : Out) :
    guardAccess width s access = .refused .accessWidth := by
  simp [guardAccess, hs, hw]

/-- Settles O49: a write and a read each stand behind the guard, which refuses in every one of the three cases. -/
theorem foreignAccessesAreRefused : Obligations.ForeignAccessesAreRefused := by
  intro width addr v var s _
  refine ⟨fun hrun hwidth => ?_, fun hreset => ?_, fun hpower => ?_⟩
  · exact ⟨guardAccess_width_ne hrun hwidth _, guardAccess_width_ne hrun hwidth _⟩
  · exact ⟨guardAccess_resetAsserted hreset width _, guardAccess_resetAsserted hreset width _⟩
  · exact ⟨guardAccess_powerUp hpower width _, guardAccess_powerUp hpower width _⟩

end Sys2Proof.Machine
end

section
/-! The decoder and the encoder (30_encoding.md R80 to R85): the reserved bits of a form are one run of bits below the opcode, and
the operand field of a command is what lies below that run. -/

namespace Sys2Proof.Machine

/-- A command's word has the shape of 30_encoding.md R80 to R85. -/
theorem wordShape (i : Instr) : Laws.WordShape.Statement i := by
  cases i with
  | nop => exact Laws.WordShape.nop
  | clear => exact Laws.WordShape.clear
  | errClear => exact Laws.WordShape.errClear
  | count x => exact Laws.WordShape.count x
  | readFreq x => exact Laws.WordShape.readFreq x
  | buildTree => exact Laws.WordShape.buildTree
  | genCodes => exact Laws.WordShape.genCodes
  | readCodeLen x => exact Laws.WordShape.readCodeLen x
  | readCodeWord x w => exact Laws.WordShape.readCodeWord x w
  | stageCodeWord w => exact Laws.WordShape.stageCodeWord w
  | writeCode x l => exact Laws.WordShape.writeCode x l
  | encSym x => exact Laws.WordShape.encSym x
  | encFinish => exact Laws.WordShape.encFinish
  | readOut a => exact Laws.WordShape.readOut a
  | inPush b => exact Laws.WordShape.inPush b
  | inClear => exact Laws.WordShape.inClear
  | decode => exact Laws.WordShape.decode

theorem opcField_encode (i : Instr) : opcField (encode i) = opcodeOf i := (wordShape i).1

theorem formOf_opcodeOf (i : Instr) : formOf (opcodeOf i) = some i.form := (wordShape i).2.2.1

theorem encode_and_reservedMask (i : Instr) : encode i &&& reservedMask i.form = 0 := (wordShape i).2.2.2.1

/-! ## The reserved bits -/

/-- The lowest reserved bit of a form; the bits from it to bit 23 are reserved (30_encoding.md R81). -/
def reservedLow : Form → Nat
  | .none => 0
  | .sym  => 8
  | .byte => 8
  | .symw => 11
  | .widx => 3
  | .code => 16
  | .addr => 24

theorem getLsbD_reservedMask (f : Form) {i : Nat} (hi : i < 32) :
    (reservedMask f).getLsbD i = decide (reservedLow f ≤ i ∧ i < 24) := by
  have hall : ∀ j : Fin 32, (reservedMask f).getLsbD j = decide (reservedLow f ≤ j ∧ j.val < 24) := by
    cases f <;> decide
  exact hall ⟨i, hi⟩

theorem getLsbD_eq_false_of_reserved {w : Word} {f : Form} (h : w &&& reservedMask f = 0) {i : Nat} (hlow : reservedLow f ≤ i)
    (hhigh : i < 24) : w.getLsbD i = false := by
  have hbit := congrArg (fun v : Word => v.getLsbD i) h
  simpa [getLsbD_reservedMask f (show i < 32 by omega), hlow, hhigh] using hbit

/-- The mask test of 30_encoding.md R85 looks at every reserved bit of the form. -/
theorem reservedField_eq_zero {w : Word} {f : Form} (h : w &&& reservedMask f = 0) :
    w.extractLsb' (reservedLow f) (24 - reservedLow f) = 0 := by
  apply BitVec.eq_of_getLsbD_eq
  intro i hi
  rw [BitVec.getLsbD_extractLsb', getLsbD_eq_false_of_reserved h (by omega) (by omega)]
  simp

/-- A word without a reserved bit is its opcode over the bits below the reserved ones. -/
theorem opcode_append_operand {w : Word} {f : Form} (h : w &&& reservedMask f = 0) :
    (opcField w ++ (w.extractLsb' 0 (reservedLow f)).setWidth 24 : Word) = w := by
  apply BitVec.eq_of_getLsbD_eq
  intro i hi
  rw [Laws.getLsbD_word]
  by_cases hopd : i < 24
  · by_cases hlow : i < reservedLow f
    · simp [hopd, hlow]
    · simp [hopd, hlow, getLsbD_eq_false_of_reserved h (by omega) hopd]
  · simp [opcField, hopd, show i - 24 < 8 by omega, show 24 + (i - 24) = i by omega]

/-! ## The operand fields -/

@[simp] theorem fieldLow_append (o : BitVec 8) (d : BitVec 24) : fieldLow (o ++ d) = d.extractLsb' 0 8 :=
  BitVec.extractLsb'_append_eq_of_add_le (by omega)

@[simp] theorem fieldLen_append (o : BitVec 8) (d : BitVec 24) : fieldLen (o ++ d) = d.extractLsb' 8 8 :=
  BitVec.extractLsb'_append_eq_of_add_le (by omega)

@[simp] theorem fieldSymWord_append (o : BitVec 8) (d : BitVec 24) : fieldSymWord (o ++ d) = d.extractLsb' 8 3 :=
  BitVec.extractLsb'_append_eq_of_add_le (by omega)

@[simp] theorem fieldWordIndex_append (o : BitVec 8) (d : BitVec 24) : fieldWordIndex (o ++ d) = d.extractLsb' 0 3 :=
  BitVec.extractLsb'_append_eq_of_add_le (by omega)

@[simp] theorem fieldAddr_append (o : BitVec 8) (d : BitVec 24) : fieldAddr (o ++ d) = d := Laws.operand_append o d

/-! The fields of a concatenation, at the whole width 24 as `operandField` writes it. -/

@[simp] theorem extractLsb'_lowByte (h : BitVec 16) (x : BitVec 8) : BitVec.extractLsb' (n := 24) 0 8 (h ++ x) = x :=
  BitVec.extractLsb'_append_eq_right

@[simp] theorem extractLsb'_lowWordIndex (h : BitVec 21) (v : BitVec 3) : BitVec.extractLsb' (n := 24) 0 3 (h ++ v) = v :=
  BitVec.extractLsb'_append_eq_right

@[simp] theorem extractLsb'_midWordIndex (h : BitVec 13) (v : BitVec 3) (x : BitVec 8) :
    BitVec.extractLsb' (n := 24) 8 3 (h ++ v ++ x) = v :=
  (BitVec.extractLsb'_append_eq_of_le (by omega)).trans BitVec.extractLsb'_append_eq_right

@[simp] theorem extractLsb'_midByte (h l x : BitVec 8) : BitVec.extractLsb' (n := 24) 8 8 (h ++ l ++ x) = l :=
  (BitVec.extractLsb'_append_eq_of_le (by omega)).trans BitVec.extractLsb'_append_eq_right

/-- The opcode and the fields of a command's word give the command back. -/
theorem commandOf_encode (i : Instr) : commandOf (opcodeOf i) (encode i) = some i := by
  cases i <;> simp [encode, commandOf, opcodeOf, operandField]

theorem opcodeOf_of_commandOf {o : BitVec 8} {w : Word} {i : Instr} (h : commandOf o w = some i) : opcodeOf i = o := by
  unfold commandOf at h
  split at h <;> cases h <;> exact BitVec.eq_of_toNat_eq (Eq.symm ‹o.toNat = _›)

theorem zero_append_eq_setWidth (m : Nat) {n : Nat} (x : BitVec n) : 0#m ++ x = x.setWidth (m + n) := by
  apply BitVec.eq_of_toNat_eq
  have hx : x.toNat < 2 ^ (m + n) := x.isLt.trans_le (Nat.pow_le_pow_right (by omega) (by omega))
  simp [Nat.mod_eq_of_lt hx]

theorem zero_append_append_eq_setWidth (m : Nat) {k n : Nat} (x : BitVec k) (y : BitVec n) :
    0#m ++ x ++ y = (x ++ y).setWidth (m + k + n) := by
  rw [BitVec.append_assoc, zero_append_eq_setWidth]
  simp

/-- The fields of a command that the word holds are the bits below the reserved ones of its form (30_encoding.md R81). -/
theorem operandField_of_commandOf {o : BitVec 8} {w : Word} {i : Instr} (h : commandOf o w = some i) :
    operandField i = (w.extractLsb' 0 (reservedLow i.form)).setWidth 24 := by
  obtain rfl := opcodeOf_of_commandOf h
  cases i with
  | nop | clear | errClear | buildTree | genCodes | encFinish | inClear | decode => simp [operandField, Instr.form, reservedLow]
  | count x | readFreq x | readCodeLen x | encSym x | inPush x =>
    cases h
    exact zero_append_eq_setWidth 16 (fieldLow w)
  | readCodeWord x v =>
    cases h
    have hfields : fieldSymWord w ++ fieldLow w = w.extractLsb' 0 11 :=
      BitVec.extractLsb'_append_extractLsb'_eq_extractLsb' rfl
    exact (zero_append_append_eq_setWidth 13 (fieldSymWord w) (fieldLow w)).trans (congrArg (BitVec.setWidth 24) hfields)
  | stageCodeWord v =>
    cases h
    exact zero_append_eq_setWidth 21 (fieldWordIndex w)
  | writeCode x l =>
    cases h
    have hfields : fieldLen w ++ fieldLow w = w.extractLsb' 0 16 := BitVec.extractLsb'_append_extractLsb'_eq_extractLsb' rfl
    exact (zero_append_append_eq_setWidth 8 (fieldLen w) (fieldLow w)).trans (congrArg (BitVec.setWidth 24) hfields)
  | readOut a =>
    cases h
    exact (BitVec.setWidth_eq (fieldAddr w)).symm

/-! ## Decoding -/

theorem decodeWord_eq_ok {w : Word} {i : Instr} :
    decodeWord w = .ok i ↔ commandOf (opcField w) w = some i ∧ w &&& reservedMask i.form = 0 := by
  constructor
  · intro h
    unfold decodeWord at h
    split at h
    next f j hf hj =>
      have hform := formOf_opcodeOf j
      rw [opcodeOf_of_commandOf hj, hf] at hform
      cases hform
      split at h
      next hmask => cases h; exact ⟨hj, hmask⟩
      next => cases h
    next => cases h
  · rintro ⟨hi, hmask⟩
    have hform := formOf_opcodeOf i
    rw [opcodeOf_of_commandOf hi] at hform
    simp [decodeWord, hi, hform, hmask]

theorem decodeWord_encode (i : Instr) : decodeWord (encode i) = .ok i :=
  decodeWord_eq_ok.2 ⟨by rw [opcField_encode]; exact commandOf_encode i, encode_and_reservedMask i⟩

theorem encode_of_decodeWord {w : Word} {i : Instr} (h : decodeWord w = .ok i) : encode i = w := by
  obtain ⟨hi, hmask⟩ := decodeWord_eq_ok.1 h
  rw [encode, opcodeOf_of_commandOf hi, operandField_of_commandOf hi, opcode_append_operand hmask]

/-- Settles O1: a command's fields stand in its word, and a word without reserved bits holds nothing but opcode and fields. -/
theorem decodeEncodeAgree : Obligations.DecodeEncodeAgree :=
  ⟨decodeWord_encode, fun _ _ => encode_of_decodeWord⟩

/-- Settles O2: the ten words are decoded by evaluation. -/
theorem specWordsDecode : Obligations.SpecWordsDecode := by
  unfold Obligations.SpecWordsDecode
  decide

end Sys2Proof.Machine
end

section
/-! Illegal words (30_encoding.md R84): no command has an unassigned opcode, and none has a reserved bit of its opcode's form. -/

namespace Sys2Proof.Machine

theorem executeWord_of_not_encode {w : Word} (h : ∀ i, encode i ≠ w) (s : State) :
    executeWord w s = .next (errState 1 (opcField w) s) := by
  cases hd : decodeWord w with
  | error r => simp only [executeWord, hd, enterErr, recordErr_eq]; rfl
  | ok i => exact absurd (encode_of_decodeWord hd) (h i)

/-- A word with a reserved bit of its opcode's form is no command's. -/
theorem encode_ne_of_reserved {w : Word} {f : Form} (hf : formOf (opcField w) = some f)
    (hw : w.extractLsb' (reservedLow f) (24 - reservedLow f) ≠ 0) (i : Instr) : encode i ≠ w := by
  rintro rfl
  rw [opcField_encode, formOf_opcodeOf] at hf
  cases hf
  exact hw (reservedField_eq_zero (encode_and_reservedMask i))

theorem formOf_eq_none_form : ∀ o ∈ [(0x00 : BitVec 8), 0x01, 0x02, 0x20, 0x21, 0x31, 0x41, 0x50], formOf o = some .none := by
  decide

theorem formOf_eq_sym_or_byte :
    ∀ o ∈ [(0x10 : BitVec 8), 0x11, 0x22, 0x30, 0x40], formOf o = some .sym ∨ formOf o = some .byte := by
  decide

/-- Settles O3: the error clause by the round trip, the others by the form of each opcode and its reserved bits. -/
theorem illegalWordRaisesIllegalCmd : Obligations.IllegalWordRaisesIllegalCmd := by
  refine ⟨fun w s h => executeWord_of_not_encode h s, ?_, ?_, ?_, ?_, ?_, ?_⟩
  · rintro w hw i rfl
    rw [opcField_encode] at hw
    cases i <;> simp [opcodeOf] at hw
  · exact fun w ho => encode_ne_of_reserved (formOf_eq_none_form _ ho)
  · intro w ho
    obtain hf | hf := formOf_eq_sym_or_byte _ ho
    · exact encode_ne_of_reserved hf
    · exact encode_ne_of_reserved hf
  · exact fun w ho => encode_ne_of_reserved (f := .symw) (by rw [ho]; rfl)
  · exact fun w ho => encode_ne_of_reserved (f := .widx) (by rw [ho]; rfl)
  · exact fun w ho => encode_ne_of_reserved (f := .code) (by rw [ho]; rfl)

end Sys2Proof.Machine
end

section
/-! The assembler (30_encoding.md R89): the form's layout of a command's operands, as a sum of numbers, is its operand field. -/

namespace Sys2Proof.Machine

theorem ofNat_eq_zero_append_append (m : Nat) {k n : Nat} (x : BitVec k) (y : BitVec n) :
    BitVec.ofNat (m + k + n) (x.toNat * 2 ^ n + y.toNat) = 0#m ++ x ++ y := by
  rw [← toNat_append_eq_add, BitVec.ofNat_toNat, zero_append_append_eq_setWidth]

/-- The operands of a command, laid out by its form, are its operand field. -/
theorem operandWord_operands (i : Instr) : BitVec.ofNat 24 (operandWord i.form i.operands) = operandField i := by
  cases i with
  | nop | clear | errClear | buildTree | genCodes | encFinish | inClear | decode => rfl
  | count x | readFreq x | readCodeLen x | encSym x | inPush x =>
    exact (BitVec.ofNat_toNat 24 x).trans (zero_append_eq_setWidth 16 x).symm
  | readCodeWord x w => exact ofNat_eq_zero_append_append 13 w x
  | stageCodeWord w => exact (BitVec.ofNat_toNat 24 w).trans (zero_append_eq_setWidth 21 w).symm
  | writeCode x l => exact ofNat_eq_zero_append_append 8 l x
  | readOut a => exact (BitVec.ofNat_toNat 24 a).trans (BitVec.setWidth_eq a)

theorem assembleWord_opcodeOf (i : Instr) (ops : List Nat) :
    assembleWord (opcodeOf i) ops =
      if operandsFit i.form ops then some (opcodeOf i ++ BitVec.ofNat 24 (operandWord i.form ops)) else none := by
  rw [assembleWord, formOf_opcodeOf, Option.bind_some]

/-- Settles O4: the assembler looks at the opcode's form alone, and a command's own operands fit it. -/
theorem assemblerGivesTheWord : Obligations.AssemblerGivesTheWord := by
  refine ⟨fun i => ?_, fun i ops hops => ?_⟩
  · have hfit : operandsFit i.form i.operands = true := Laws.wellFormed_all i
    rw [assembleWord_opcodeOf, if_pos hfit, operandWord_operands, encode]
  · rw [assembleWord_opcodeOf, hops]
    rfl

end Sys2Proof.Machine
end

section
/-! Sequencing and the control commands (40_control.md R104 to R109): every command is its body behind the sequencing step, and
SEQUENCE is raised by that step alone. -/

namespace Sys2Proof.Machine

/-- The sequencing check is the table of 40_control.md R106. -/
theorem seqOk_iff {i : Instr} {s : State} : seqOk i s = true ↔ SeqCond i s := by
  cases i <;> simp [seqOk, SeqCond]

/-- Every command begins with the sequencing step (40_control.md R104). -/
theorem exec_eq_sequenced (i : Instr) (s : State) : ∃ body, exec i s = sequenced i s body := by
  cases i <;> exact ⟨_, rfl⟩

/-- An outcome that leaves no SEQUENCE in STATUS.ERR. -/
def NoSequence (o : Out) : Prop := ∀ t, o = .next t → t.err ≠ 2

theorem NoSequence.next {t : State} (h : t.err = 0) : NoSequence (.next t) := by
  rintro _ ⟨⟩
  simp [h]

theorem NoSequence.fault (r : Fault) : NoSequence (.fault r) := by
  rintro _ ⟨⟩

theorem errCode_ne_sequence {e : Err} (h : e ≠ .sequence) : errCode e ≠ 2 := by
  cases e <;> simp [errCode] at h ⊢

/-- Only the error SEQUENCE has its code (60_exceptions.md R250). -/
theorem NoSequence.raise {e : Err} {i : Instr} {s : State} (he : e ≠ .sequence) (hs : s.err = 0) :
    NoSequence (raiseErr e i s) := by
  rintro _ ⟨⟩
  obtain ⟨-, -, -, -, herr, -⟩ := enterErr_fields e (opcodeOf i) (some i) s
  rw [herr, if_pos hs]
  exact errCode_ne_sequence he

theorem NoSequence.ite {c : Prop} [Decidable c] {a b : Out} (ha : NoSequence a) (hb : NoSequence b) :
    NoSequence (if c then a else b) := by
  split
  · exact ha
  · exact hb

theorem NoSequence.sequenced {i : Instr} {s : State} {body : Out} (hseq : seqOk i s = true) (h : NoSequence body) :
    NoSequence (sequenced i s body) := by
  rwa [sequenced_of_ok hseq]

@[simp] theorem openStream_err (s : State) : (openStream s).err = s.err := by
  rcases openStream_cases s with ⟨-, h⟩ | ⟨-, h⟩ <;> simp [h]

theorem noSequence_buildTreeBody (choose : Nat → Nat) {s : State} (hs : s.err = 0) :
    NoSequence (buildTreeBody choose s) := by
  refine .ite (.raise (by decide) hs) ?_
  split
  · exact .fault _
  · split
    · exact .next hs
    · exact .fault _

/-- The scan raises CAPACITY or CORRUPT_LEFTOVER (45_bit_unpacker.md R225). -/
theorem scanBits_error {look : BitString → Option Sym} {cap : Nat} {p c : BitString} {out : List Sym} {e : Err}
    (h : scanBits look cap p c out = .error e) : e = .capacity ∨ e = .corruptLeftover := by
  induction p generalizing c out with
  | nil =>
    rw [scanBits] at h
    split at h
    · cases h
    · cases h; exact .inr rfl
  | cons b p ih =>
    rw [scanBits] at h
    split at h
    · split at h
      · cases h; exact .inl rfl
      · exact ih h
    · exact ih h

/-- No body of a command raises SEQUENCE: inside its condition a command does not record it (40_control.md R106). -/
theorem noSequence_exec {i : Instr} {s : State} (hseq : seqOk i s = true) (hs : s.err = 0) : NoSequence (exec i s) := by
  unfold exec
  cases i with
  | nop | readFreq | readCodeLen | readCodeWord | stageCodeWord | inClear => exact .sequenced hseq (.next hs)
  | clear | errClear => exact .sequenced hseq (.next rfl)
  | encFinish => exact .sequenced hseq (.next (by simpa using hs))
  | count | writeCode | readOut | inPush => exact .sequenced hseq (.ite (.raise (by decide) hs) (.next hs))
  | buildTree => exact .sequenced hseq (noSequence_buildTreeBody _ hs)
  | genCodes =>
    refine .sequenced hseq ?_
    split
    · exact .next hs
    · exact .fault _
  | encSym =>
    exact .sequenced hseq (.ite (.raise (by decide) hs) (.ite (.raise (by decide) hs) (.next (by simpa using hs))))
  | decode =>
    refine .sequenced hseq (.ite (.raise (by decide) hs) (.ite (.raise (by decide) hs) ?_))
    split
    next e he =>
      have hne : e ≠ .sequence := by
        rcases scanBits_error he with rfl | rfl <;> decide
      exact .raise hne hs
    next => exact .next hs

/-- Settles O7: outside the condition by the sequencing step, inside it because no body raises SEQUENCE. -/
theorem sequenceErrorOutsideCondition : Obligations.SequenceErrorOutsideCondition := by
  intro i s
  refine ⟨fun hcond => ?_, fun hcond t ht hs => noSequence_exec (seqOk_iff.2 hcond) hs t ht⟩
  obtain ⟨body, hbody⟩ := exec_eq_sequenced i s
  have hseq : seqOk i s = false := Bool.eq_false_iff.2 fun h => hcond (seqOk_iff.1 h)
  rw [hbody, sequenced_of_not hseq, recordErr_eq]
  rfl

/-- Settles O8: NOP has no condition, and its body is the same state. -/
theorem nopChangesNothing : Obligations.NopChangesNothing := fun s => sequenced_of_ok (i := .nop) (s := s) rfl

/-- CLEAR and the release of the reset input give the values of 10_state.md R47. -/
theorem atReset_resetCore (s : State) : AtReset (resetCore s) where
  data := rfl
  resp := rfl
  flags := ⟨rfl, rfl, rfl, rfl, rfl, rfl⟩
  error := ⟨rfl, rfl⟩
  counters := ⟨rfl, rfl, rfl, rfl, rfl, rfl⟩
  freq := symGet_replicate 0
  tree := ⟨rfl, rfl, Nat.le_of_lt_succ (Nat.mod_lt _ (by decide))⟩
  table := fun x => ⟨symGet_replicate 0 x, symGet_replicate 0 x⟩
  staging := fun w => Vector.getElem_replicate w.isLt
  stream := rfl
  constants := ⟨rfl, rfl, rfl⟩

/-- Settles O9: CLEAR has no condition, and its body is the reset of the CORE. -/
theorem clearGivesResetValues : Obligations.ClearGivesResetValues := fun s =>
  ⟨resetCore s, sequenced_of_ok (i := .clear) (s := s) rfl, atReset_resetCore s, rfl, rfl, rfl⟩

/-- Settles O10: ERR_CLEAR has no condition, and its body is the return from the error. -/
theorem errClearKeepsUnitState : Obligations.ErrClearKeepsUnitState := fun s =>
  sequenced_of_ok (i := .errClear) (s := s) rfl

end Sys2Proof.Machine
end

section
/-! The step on the core's and on the host's turn (40_control.md R103, R104, 30_encoding.md R89), from the turn that
`step_of_listed` and its companions say is taken. -/

namespace Sys2Proof.Machine

theorem coreEnabled_iff {s : State} : coreEnabled s = true ↔ s.phase = .running ∧ s.busy = true := by
  simp [coreEnabled, and_comm]

theorem executeWord_of_decodeWord {w : Word} {i : Instr} (h : decodeWord w = .ok i) (s : State) :
    executeWord w s = exec i s := by
  simp [executeWord, h]

/-- The core's listed turn executes the pending command (40_control.md R103, R104). -/
theorem step_core_of_pending {s : State} {ts : List Turn} {i : Instr} (hturn : s.turns = .core :: ts)
    (hrun : s.phase = .running) (hbusy : s.busy = true) (hi : decodeWord s.pending = .ok i) :
    step s = complete (exec i { s with turns := ts }) := by
  have henabled : coreEnabled { s with turns := ts } = true := coreEnabled_iff.2 ⟨hrun, hbusy⟩
  rw [step_of_listed hturn, turnOf, coreTurn, if_pos henabled, executeWord_of_decodeWord hi]

/-- With BUSY = 0 the core is idle on its turn (40_control.md R103). -/
theorem step_core_of_idle {s : State} {ts : List Turn} (hturn : s.turns = .core :: ts) (hidle : s.busy = false) :
    step s = .next { s with turns := ts } := by
  rw [step_of_listed hturn]
  simp [turnOf, coreTurn, coreEnabled, hidle]

/-- The host's turn is its next operation (30_encoding.md R89). -/
theorem hostTurn_of_op {s : State} {op : HostOp} (hok : s.host.failed = false) (hop : s.host.prog[s.host.pc]? = some op) :
    hostTurn s = hostOp op s := by
  simp [hostTurn, hostPending, hok, hop]

/-- A host that has failed or finished does not move (40_control.md R110). -/
theorem hostTurn_of_done {s : State} (h : s.host.failed = true ∨ s.host.prog[s.host.pc]? = none) : hostTurn s = .next s := by
  have hnone : hostPending s = none := by
    rcases h with h | h <;> simp [hostPending, h]
  rw [hostTurn, hnone]

/-- A placed command is accepted with DATA, and the core's turn is listed (40_control.md R101). -/
theorem withFetchWord_encode (s : State) (i : Instr) :
    s.withFetchWord 32 (encode i).toNat =
      { s with pending := encode i, pendingData := s.data, busy := true, phase := .running, turns := .core :: s.turns } := by
  have hword : BitVec.ofNat 32 ((encode i).toNat % 2 ^ 32) = encode i := by
    rw [Nat.mod_eq_of_lt (encode i).isLt, BitVec.ofNat_toNat, BitVec.setWidth_eq]
  rw [State.withFetchWord, placeWord, hword]
  rfl

/-- Settles O5: the step takes the turn that is scheduled, and that turn is the core's command or the host's operation. -/
theorem stepRunsTheDecodedCommand : Obligations.StepRunsTheDecodedCommand := by
  refine ⟨fun s hnil hrun hbusy => ?_, fun s ts i => step_core_of_pending, fun s ts => step_core_of_idle, ?_,
    fun s ts op hturn hok hop => ?_, fun s op hnil hoff hok hop => ?_, fun s ts hturn hdone => ?_, fun s i => ?_⟩
  · exact step_of_enabled hnil (coreEnabled_iff.2 ⟨hrun, hbusy⟩)
  · rintro _ t rfl
    rfl
  · exact (step_of_listed hturn).trans (hostTurn_of_op hok hop)
  · have hidle : coreEnabled s = false := Bool.eq_false_iff.2 fun h => hoff (coreEnabled_iff.1 h)
    exact (step_of_idle hnil hidle).trans (hostTurn_of_op hok hop)
  · exact (step_of_listed hturn).trans (hostTurn_of_done hdone)
  · rw [withFetchWord_encode]
    exact step_core_of_pending rfl rfl rfl (decodeWord_encode i)

end Sys2Proof.Machine
end

section
/-! Host writes (40_control.md R101, R102): to CMD one of overrun, gate and acceptance, to DATA the register alone, to the other
slots nothing. -/

namespace Sys2Proof.Machine

/-- A 32-bit write after reset is the write of its slot (20_memory.md R61, R62). -/
theorem hostOp_wr {s : State} (hrun : s.phase = .running) (addr v : Word) :
    hostOp (.wr 32 addr v) s = .next (hostNext (writeSlot (slotOfAddr s.cfg addr) v s)) := by
  simp [hostOp, guardAccess, hrun]

theorem slotOfAddr_of_index {c : Config} {addr : Word} {n : BitVec 4} (h : (addr - c.base).extractLsb' 2 4 = n) :
    slotOfAddr c addr = slotOfIndex n := by
  rw [slotOfAddr, h]

/-! ## CMD -/

theorem passesGate_iff {w : Word} : passesGate w = true ↔ w.extractLsb' 24 8 ∈ [(0x00 : BitVec 8), 0x01, 0x02] := by
  change _ ↔ opcField w ∈ _
  simp [passesGate, or_assoc]

/-- A command word while BUSY = 1 is an overrun. -/
theorem writeCmd_of_busy {s : State} (h : s.busy = true) (w : Word) : writeCmd w s = errState 11 (w.extractLsb' 24 8) s := by
  rw [writeCmd, if_pos h, enterErr, recordErr_eq]
  rfl

/-- While an error is recorded, a word with another opcode than the gate's three is dropped. -/
theorem writeCmd_of_gated {s : State} {w : Word} (hidle : s.busy = false) (herr : s.err ≠ 0) (hw : passesGate w = false) :
    writeCmd w s = s := by
  rw [writeCmd, if_neg (by simp [hidle]), if_pos (by simp [hw]; exact herr)]

theorem writeCmd_of_accepted {s : State} {w : Word} (hidle : s.busy = false) (h : s.err = 0 ∨ passesGate w = true) :
    writeCmd w s = acceptWord w s := by
  rcases h with h | h <;> simp [writeCmd, hidle, h]

/-- An error state does not change when another error is raised (60_exceptions.md R252). -/
theorem errState_of_err {s : State} (h : s.err ≠ 0) (code : BitVec 4) (opc : BitVec 8) : errState code opc s = s := by
  simp only [errState, if_neg h]

/-- Settles O45: a write to slot 0 is `writeCmd`, which does one of three things; an illegal word enters an error only where none
is recorded. -/
theorem cmdWriteOutcomes : Obligations.CmdWriteOutcomes := by
  intro w addr s hrun _ hslot
  have hwr : hostOp (.wr 32 addr w) s = .next (hostNext (writeCmd w s)) := by
    rw [hostOp_wr hrun, slotOfAddr_of_index hslot]
    rfl
  refine ⟨fun hbusy => ?_, fun hidle herr hopc => ?_, fun hidle hopen => ?_, fun herr hw => ?_⟩
  · rw [hwr, writeCmd_of_busy hbusy]
  · rw [hwr, writeCmd_of_gated hidle herr (Bool.eq_false_iff.2 fun h => hopc (passesGate_iff.1 h))]
  · rw [hwr, writeCmd_of_accepted hidle (hopen.imp_right passesGate_iff.2), acceptWord]
  · rw [executeWord_of_not_encode hw, errState_of_err herr]

/-! ## The other slots -/

/-- A slot above DATA ignores writes (20_memory.md R64). -/
theorem writeSlot_of_one_lt {n : BitVec 4} (h : 1 < n.toNat) (v : Word) (s : State) :
    writeSlot (slotOfIndex n) v s = s := by
  unfold slotOfIndex
  split
  · omega
  · omega
  all_goals rfl

/-! ## No command but CLEAR touches DATA -/

/-- The state with another DATA. -/
abbrev withData (v : Word) (s : State) : State := { s with data := v }

/-- An outcome with its next state changed. -/
def mapNext (f : State → State) (o : Out) : Out :=
  match o with
  | .next t => .next (f t)
  | .fault r => .fault r
  | .refused r => .refused r

theorem recordErr_withData (e : Err) (opc : BitVec 8) (v : Word) (s : State) :
    recordErr e opc (withData v s) = withData v (recordErr e opc s) := by
  rw [recordErr_eq, recordErr_eq]

theorem abortEffect_withData (e : Err) (i : Instr) (v : Word) (s : State) :
    abortEffect e i (withData v s) = withData v (abortEffect e i s) := by
  unfold abortEffect
  split <;> rfl

theorem raiseErr_withData (e : Err) (i : Instr) (v : Word) (s : State) :
    raiseErr e i (withData v s) = mapNext (withData v) (raiseErr e i s) := by
  simp only [raiseErr, enterErr, recordErr_withData, abortEffect_withData, mapNext]

theorem openStream_withData (v : Word) (s : State) : openStream (withData v s) = withData v (openStream s) :=
  (apply_ite (withData v) (s.encActive = true) s (startStream s)).symm

/-- Two branchings on one condition, branch by branch. -/
theorem ite_eq_mapNext {c : Prop} [Decidable c] {f : State → State} {a a' b b' : Out} (ha : a' = mapNext f a)
    (hb : b' = mapNext f b) : (if c then a' else b') = mapNext f (if c then a else b) := by
  rw [ha, hb, apply_ite (mapNext f)]

/-- The sequencing step does not look at DATA (40_control.md R106). -/
theorem sequenced_withData {i : Instr} {v : Word} {s : State} {body body' : Out} (h : body' = mapNext (withData v) body) :
    sequenced i (withData v s) body' = mapNext (withData v) (sequenced i s body) :=
  ite_eq_mapNext (c := seqOk i s = true) h (raiseErr_withData .sequence i v s)

theorem buildWith_withData (choose : Nat → Nat) (v : Word) (s : State) : buildWith choose (withData v s) = buildWith choose s :=
  rfl

theorem payloadBits_withData (v : Word) (s : State) : payloadBits (withData v s) = payloadBits s := rfl

theorem buildTreeBody_withData (choose : Nat → Nat) (v : Word) (s : State) :
    buildTreeBody choose (withData v s) = mapNext (withData v) (buildTreeBody choose s) := by
  refine ite_eq_mapNext (c := s.nsym = 0) (raiseErr_withData ..) ?_
  rw [buildWith_withData]
  cases buildWith choose s with
  | none => rfl
  | some t =>
    dsimp only
    cases t.pq <;> rfl

/-- A command but CLEAR leaves DATA and does not depend on it (40_control.md R102). -/
theorem exec_withData {i : Instr} (hi : i ≠ .clear) (v : Word) (s : State) :
    exec i (withData v s) = mapNext (withData v) (exec i s) := by
  unfold exec
  cases i with
  | clear => exact absurd rfl hi
  | nop | errClear | readFreq | readCodeLen | readCodeWord | stageCodeWord | inClear => exact sequenced_withData rfl
  | count | writeCode | readOut | inPush => exact sequenced_withData (ite_eq_mapNext (raiseErr_withData ..) rfl)
  | buildTree => exact sequenced_withData (buildTreeBody_withData _ v s)
  | genCodes =>
    refine sequenced_withData ?_
    cases tableOfTree (nodeAt s.nodes s.draws) s.root <;> rfl
  | encSym x =>
    refine sequenced_withData (ite_eq_mapNext (raiseErr_withData ..) ?_)
    rw [openStream_withData]
    exact ite_eq_mapNext (raiseErr_withData ..) rfl
  | encFinish => exact sequenced_withData (by rw [openStream_withData]; rfl)
  | decode =>
    refine sequenced_withData (ite_eq_mapNext (raiseErr_withData ..) (ite_eq_mapNext (raiseErr_withData ..) ?_))
    rw [payloadBits_withData]
    cases scanBits (matchCode s.codeLen s.codeVal) s.cfg.outCap (payloadBits s) [] [] with
    | error e => exact raiseErr_withData e .decode v s
    | ok out => rfl

/-- Settles O46: the slot of the address decides the write; a command commutes with a change of DATA, CLEAR overwrites it. -/
theorem otherWritesSetDataOrNothing : Obligations.OtherWritesSetDataOrNothing := by
  intro v addr s hrun _
  refine ⟨fun hslot => ?_, fun hslot => ?_, fun i t ht => ?_⟩
  · rw [hostOp_wr hrun, slotOfAddr_of_index hslot]
    rfl
  · rw [hostOp_wr hrun, slotOfAddr, writeSlot_of_one_lt hslot]
  · by_cases hi : i = .clear
    · subst hi
      cases ht
      rfl
    · rw [exec_withData hi v s, ht, if_neg hi]
      rfl

end Sys2Proof.Machine
end

section
/-! The frequency counter (41_frequency_counter.md): a COUNT is `countSym` or the error COUNT_OVERFLOW, and the `countSym` of two
symbols commute, so that a counting pass is a fold which no reordering changes. -/

namespace Sys2Proof.Machine

/-! ## One COUNT -/

theorem exec_count {s : State} (htree : s.treeValid = false) (hcodes : s.codesValid = false) (x : Sym) :
    exec (.count x) s =
      if s.total = 0xFFFFFFFF then raiseErr .countOverflow (.count x) s else .next (countSym x s) :=
  sequenced_of_ok (seqOk_iff.2 ⟨htree, hcodes⟩)

theorem exec_count_of_total_ne {s : State} (htree : s.treeValid = false) (hcodes : s.codesValid = false)
    (hbound : s.total ≠ 0xFFFFFFFF) (x : Sym) : exec (.count x) s = .next (countSym x s) := by
  rw [exec_count htree hcodes, if_neg hbound]

theorem countSym_total_toNat {s : State} (hbound : s.total ≠ 0xFFFFFFFF) (x : Sym) :
    (countSym x s).total.toNat = s.total.toNat + 1 := by
  rw [countSym_total]
  bv_omega

theorem symGet_countSym_freq (x y : Sym) (s : State) :
    symGet (countSym x s).freq y = if y = x then symGet s.freq x + 1 else symGet s.freq y := by
  rw [countSym_freq, symGet_symSet]

/-- An error that only records itself leaves the state of 60_exceptions.md R252. -/
theorem raiseErr_eq_errState {i : Instr} (henc : ∀ x, i ≠ .encSym x) (hdec : i ≠ .decode) (e : Err) (s : State) :
    raiseErr e i s = .next (errState (errCode e) (opcodeOf i) s) := by
  rw [raiseErr, enterErr, abortEffect_eq _ _ _ henc hdec, recordErr_eq]
  rfl

/-- Settles O11: inside its condition and below its bound, COUNT is `countSym`. -/
theorem countCountsOneOccurrence : Obligations.CountCountsOneOccurrence := by
  intro x s htree hcodes hbound
  refine ⟨countSym x s, exec_count_of_total_ne htree hcodes hbound x, ?_, fun y hy => ?_, countSym_total_toNat hbound x,
    countSym_nsym x s, rfl⟩
  · rw [symGet_countSym_freq, if_pos rfl]
  · rw [symGet_countSym_freq, if_neg hy]

/-- Settles O12: at the bound COUNT raises an error that has no abort effect. -/
theorem countOverflowChangesNoCount : Obligations.CountOverflowChangesNoCount := by
  intro x s htree hcodes hbound
  rw [exec_count htree hcodes, if_pos hbound]
  exact raiseErr_eq_errState (i := .count x) (fun _ => nofun) nofun .countOverflow s

/-! ## A counting pass -/

theorem symSet_comm {α : Type} (t : Vector α 256) {x y : Sym} (v w : α) (h : x ≠ y) :
    symSet (symSet t x v) y w = symSet (symSet t y w) x v :=
  Vector.set_comm v w fun hxy => h (BitVec.eq_of_toNat_eq hxy)

/-- The order of two counted symbols does not matter: two different symbols have entries of their own. -/
theorem countSym_comm (x y : Sym) (s : State) : countSym y (countSym x s) = countSym x (countSym y s) := by
  by_cases h : x = y
  · rw [h]
  · have hx : symGet (countSym y s).freq x = symGet s.freq x := by rw [symGet_countSym_freq, if_neg h]
    have hy : symGet (countSym x s).freq y = symGet s.freq y := by rw [symGet_countSym_freq, if_neg (Ne.symm h)]
    have hfreq : (countSym y (countSym x s)).freq = (countSym x (countSym y s)).freq := by
      rw [countSym_freq, countSym_freq x (countSym y s), hx, hy]
      exact symSet_comm _ _ _ h
    have hnsym : (countSym y (countSym x s)).nsym = (countSym x (countSym y s)).nsym := by
      rw [countSym_nsym, countSym_nsym x (countSym y s), hx, hy, countSym_nsym, countSym_nsym]
      split <;> split <;> rfl
    calc countSym y (countSym x s)
        = { countSym x (countSym y s) with
            freq := (countSym y (countSym x s)).freq, nsym := (countSym y (countSym x s)).nsym } := rfl
      _ = countSym x (countSym y s) := by rw [hfreq, hnsym]

/-- The state after the symbols of a list have been counted, in order. -/
def countAll (t : List Sym) (s : State) : State := t.foldl (fun s x => countSym x s) s

@[simp] theorem countAll_nil (s : State) : countAll [] s = s := rfl

@[simp] theorem countAll_cons (x : Sym) (t : List Sym) (s : State) : countAll (x :: t) s = countAll t (countSym x s) := rfl

theorem countAll_perm {t u : List Sym} (h : t.Perm u) (s : State) : countAll t s = countAll u s :=
  h.foldl_eq' (fun x _ y _ s => countSym_comm x y s) s

theorem symGet_countAll_freq (t : List Sym) (s : State) (x : Sym) :
    symGet (countAll t s).freq x = symGet s.freq x + BitVec.ofNat 32 (t.count x) := by
  induction t generalizing s with
  | nil => simp
  | cons y t ih =>
    rw [countAll_cons, ih, symGet_countSym_freq, List.count_cons]
    by_cases h : x = y
    · subst h
      rw [if_pos rfl, if_pos BEq.rfl, BitVec.ofNat_add, add_right_comm, add_assoc]
      rfl
    · simp [h, Ne.symm h]

/-- A run of COUNTs that TOTAL has room for counts its symbols. -/
theorem runCommands_map_count {t : List Sym} {s : State} (htree : s.treeValid = false) (hcodes : s.codesValid = false)
    (hroom : s.total.toNat + t.length ≤ 2 ^ 32 - 1) : runCommands (t.map .count) s = .next (countAll t s) := by
  induction t generalizing s with
  | nil => rfl
  | cons x t ih =>
    rw [List.length_cons] at hroom
    have hbound : s.total ≠ 0xFFFFFFFF := by bv_omega
    have htotal := countSym_total_toNat hbound x
    rw [List.map_cons, runCommands, exec_count_of_total_ne htree hcodes hbound, countAll_cons]
    exact ih htree hcodes (by omega)

/-- Settles O13: either run is the fold of `countSym`, which a permutation leaves. -/
theorem countingIsOrderIndependent : Obligations.CountingIsOrderIndependent := by
  intro s t u htree hcodes hroom hperm
  refine ⟨countAll t s, runCommands_map_count htree hcodes hroom, ?_, symGet_countAll_freq t s⟩
  rw [hperm.length_eq] at hroom
  rw [runCommands_map_count htree hcodes hroom, countAll_perm hperm]

/-! ## The reads of the tables -/

/-- A word of a code value as a quotient (20_memory.md R69). -/
theorem codeWord_eq_ofNat_div (v : BitVec 256) (w : BitVec 3) :
    codeWord v w = BitVec.ofNat 32 (v.toNat / 2 ^ (32 * w.toNat)) := by
  rw [← Nat.shiftRight_eq_div_pow]
  rfl

/-- Settles O14: the reads have no condition, and their bodies write RESP alone. -/
theorem tableReadsAnswerInResp : Obligations.TableReadsAnswerInResp := by
  refine fun s => ⟨fun x => sequenced_of_ok (i := .readFreq x) (s := s) rfl, fun x => ?_, fun x w => ?_⟩
  · rw [BitVec.ofNat_toNat]
    exact sequenced_of_ok (i := .readCodeLen x) (s := s) rfl
  · rw [← codeWord_eq_ofNat_div]
    exact sequenced_of_ok (i := .readCodeWord x w) (s := s) rfl

end Sys2Proof.Machine
end

section
/-! The tree builder (42_tree_builder.md): what popmin chooses, what a round leaves, where the rounds start and end, and
BUILD_TREE as the state that the last round's builder gives. -/

namespace Sys2Proof.Machine

/-! ## popmin -/

/-- The order of SEQ as the statement of 42_tree_builder.md R142 writes it. -/
theorem keyLe_iff {key : Nat → Nat} {i j : Nat} : keyLe key i j = true ↔ key i < key j ∨ (key i = key j ∧ i ≤ j) := by
  simp [keyLe]

/-- Settles O18: the popped index is at or below every other in the order of SEQ, and two indices are never level in it. -/
theorem popMinSeqTakesTheSmallestKey : Obligations.PopMinSeqTakesTheSmallestKey := by
  intro choice key pq hne _
  obtain ⟨i, q, hpop⟩ := popMin_isSome .seq choice key pq hne
  obtain ⟨hmem, rfl, -, hmin⟩ := popMin_spec hpop
  refine ⟨i, hpop, hmem, fun j hj hji => ?_⟩
  have hle := keyLe_iff.1 (hmin rfl j hj)
  omega

/-- ANY can choose each of its candidates: the candidate's place among them is such a choice (42_tree_builder.md R143). -/
theorem popMin_any_of_mem {key : Nat → Nat} {pq : List Nat} {i : Nat} (h : i ∈ anyMinima key pq) :
    ∃ choice, popMin .any choice key pq = some (i, pq.erase i) := by
  obtain ⟨place, hlt, hget⟩ := List.mem_iff_getElem.1 h
  exact ⟨place, by rw [popMin, Nat.mod_eq_of_lt hlt, List.getElem?_eq_getElem hlt, hget, Option.map_some]⟩

/-- Settles O19: what popmin pops is a minimum, and every minimum is a candidate that some choice picks. -/
theorem popMinAnyTakesAnyMinimum : Obligations.PopMinAnyTakesAnyMinimum := by
  refine fun key pq hne => ⟨fun choice => ?_, fun i hi hmin => popMin_any_of_mem (mem_anyMinima.2 ⟨hi, hmin⟩)⟩
  obtain ⟨i, q, hpop⟩ := popMin_isSome .any choice key pq hne
  obtain ⟨hmem, rfl, hmin, -⟩ := popMin_spec hpop
  exact ⟨i, hpop, hmem, hmin⟩

/-! ## The start of the builder -/

@[simp] theorem builderStart_pq (s : State) : (builderStart s).pq = List.range (presentSyms s.freq).length := by
  rw [builderStart, length_leavesOf]

@[simp] theorem builderStart_next (s : State) : (builderStart s).next = (presentSyms s.freq).length :=
  length_leavesOf s.freq

/-- The builder starts with the leaf of the i-th counted symbol at NODE[i] (42_tree_builder.md R141). -/
theorem storeGet_builderStart_of_present {s : State} {i : Nat} {x : Sym} (h : (presentSyms s.freq)[i]? = some x) :
    storeGet (builderStart s).nodes i = some (.leaf x (symGet s.freq x)) := by
  obtain ⟨hlt, -⟩ := List.getElem?_eq_some_iff.1 h
  rw [builderStart, storeGet_putFrom, length_leavesOf, if_pos (by omega), leavesOf_eq_map, Nat.sub_zero, List.getElem?_map, h,
    Option.map_some]

/-- The start writes no entry behind the leaves. -/
theorem storeGet_builderStart_above {s : State} {i : Nat} (h : (presentSyms s.freq).length ≤ i) :
    storeGet (builderStart s).nodes i = storeGet s.nodes i := by
  rw [builderStart, storeGet_putFrom, length_leavesOf, if_neg (by omega)]

/-! ## The body of BUILD_TREE -/

theorem exec_buildTree {s : State} (htree : s.treeValid = false) (hcodes : s.codesValid = false) :
    exec .buildTree s = buildTreeBody Config.freeChoice s :=
  sequenced_of_ok (seqOk_iff.2 ⟨htree, hcodes⟩)

theorem buildTreeBody_of_nsym_zero {s : State} (h : s.nsym = 0) (choose : Nat → Nat) :
    buildTreeBody choose s = raiseErr .emptyInput .buildTree s :=
  if_pos h

theorem buildTreeBody_of_buildWith {choose : Nat → Nat} {s : State} {t : Builder} {root : Nat} (hn : s.nsym ≠ 0)
    (ht : buildWith choose s = some t) (hpq : t.pq = [root]) : buildTreeBody choose s = .next (finishBuild t root s) := by
  simp only [buildTreeBody, if_neg hn, ht, hpq]

/-- The loop of BUILD_TREE runs its rounds to the end, whatever the source of choices: the builder that is left holds the last of
2N - 1 nodes alone, and BUILD_TREE answers its state (42_tree_builder.md R141). -/
theorem buildTreeBody_ends (choose : Nat → Nat) {s : State} (hn : s.nsym ≠ 0) (hne : presentSyms s.freq ≠ []) :
    ∃ t, buildWith choose s = some t ∧ t.pq = [2 * (presentSyms s.freq).length - 2] ∧
      t.next = 2 * (presentSyms s.freq).length - 1 ∧
      buildTreeBody choose s = .next (finishBuild t (2 * (presentSyms s.freq).length - 2) s) := by
  obtain ⟨t, ht, hpq, hnext⟩ := buildWith_ends choose s hne
  exact ⟨t, ht, hpq, hnext, buildTreeBody_of_buildWith hn ht hpq⟩

/-- Settles O16: inside its condition BUILD_TREE without a symbol raises an error that has no abort effect. -/
theorem buildTreeOfNothingRaisesEmptyInput : Obligations.BuildTreeOfNothingRaisesEmptyInput := by
  intro s htree hcodes hn
  rw [exec_buildTree htree hcodes, buildTreeBody_of_nsym_zero hn]
  exact raiseErr_eq_errState (i := .buildTree) (fun _ => nofun) nofun .emptyInput s

/-- Settles O15: the last builder's queue and `next` give ROOT and NNODES, and the builder writes below `next` alone. -/
theorem buildTreeCompletes : Obligations.BuildTreeCompletes := by
  intro s htree hcodes hn hne
  obtain ⟨t, ht, hpq, hnext, hbody⟩ := buildTreeBody_ends Config.freeChoice hn hne
  exact ⟨finishBuild t _ s, (exec_buildTree htree hcodes).trans hbody, rfl, hnext, rfl, hpq,
    buildWith_above Config.freeChoice s hne t ht, rfl⟩

/-- Settles O60: a round by `mergeOnce_round`, the start by the reads of its store, the rounds from the start to the end by
`mergeLoop_rounds`. -/
theorem buildTreeMergesTheTwoLowest : Obligations.BuildTreeMergesTheTwoLowest := by
  refine ⟨fun tie choose k t hlen => ?_, fun s => ?_, fun choose s hn hne => ?_, fun s => exec_buildTree⟩
  · obtain ⟨a, b, ha, hb, hround⟩ := mergeOnce_round tie choose k t hlen
    exact ⟨a, b, _, ha, hb, hround, storeGet_put_self .., fun i hi => storeGet_put_ne _ _ hi, rfl, rfl, rfl⟩
  · exact ⟨builderStart_pq s, builderStart_next s, rfl, fun i x => storeGet_builderStart_of_present,
      fun i => storeGet_builderStart_above⟩
  · obtain ⟨t, ht, hpq, -, hbody⟩ := buildTreeBody_ends choose hn hne
    have hend : t.pq.length ≤ 1 := by rw [hpq, List.length_singleton]
    refine ⟨t, _, mergeLoop_rounds _ ht hend, hpq, ?_⟩
    rw [hbody, finishBuild, hpq]

/-! ## The depth of a leaf -/

/-- A path of one edge more went on from an internal node. -/
theorem walkFrom_append_singleton {node : Nat → Node} {n : Nat} {p : BitString} {b : Bool} {m : Node}
    (h : walkFrom node n (p ++ [b]) = some m) : ∃ f l r, walkFrom node n p = some (.branch f l r) := by
  induction p generalizing n with
  | nil =>
    cases hnode : node n with
    | leaf x f => exact absurd (walkFrom_leaf hnode h).1 (by simp)
    | branch f l r => exact ⟨f, l, r, by rw [walkFrom, hnode]⟩
  | cons c p ih =>
    cases hnode : node n with
    | leaf x f => exact absurd (walkFrom_leaf hnode h).1 (by simp)
    | branch f l r =>
      simp only [List.cons_append, walkFrom, hnode] at h ⊢
      exact ih h

/-- A path in a built tree has fewer edges than the tree has leaves (42_tree_builder.md R145 (d)). -/
theorem BuiltTree.length_lt_nsym {s : State} (h : BuiltTree s) {k : Nat} {p : BitString} {m : Node}
    (hw : walkFrom (nodeAt s.nodes k) s.root p = some m) : p.length < s.nsym := by
  rcases List.eq_nil_or_concat p with rfl | ⟨q, b, rfl⟩
  · exact h.nonempty
  · rw [List.concat_eq_append] at hw ⊢
    obtain ⟨f, l, r, hq⟩ := walkFrom_append_singleton hw
    have hdepth := h.depth k q hq
    rw [List.length_append, List.length_singleton]
    omega

/-- Settles O17: the builder's loop keeps `LoopInv`, which at its end is the built tree; a path into that tree is shorter than its
number of leaves, of which there are at most 256. -/
theorem buildTreeLeavesAFullTree : Obligations.BuildTreeLeavesAFullTree := by
  intro choose s hcounts hn
  have hne := present_ne hcounts hn
  obtain ⟨t, ht, -, -, hbody⟩ := buildTreeBody_ends choose hn hne
  have htree := builtTree_of_buildWith hcounts hne ht
  refine ⟨_, hbody, htree, fun k p x f hw => ?_⟩
  have hlen : p.length < s.nsym := htree.length_lt_nsym hw
  have hsyms : s.nsym ≤ 256 := hcounts.nsym ▸ length_presentSyms_le s.freq
  rw [finishBuild_nsym]
  omega

end Sys2Proof.Machine
end

section
/-! The code table's commands (43_code_table.md): what STAGE_CODE_WORD, WRITE_CODE and GEN_CODES answer inside their conditions, and
which steps change the table. -/

namespace Sys2Proof.Machine

/-! ## STAGE_CODE_WORD -/

/-- Settles O23: STAGE_CODE_WORD has no condition, and its body writes one staging word. -/
theorem stageCodeWordTakesLatchedData : Obligations.StageCodeWordTakesLatchedData := fun w s =>
  ⟨{ s with codeStage := stageSet s.codeStage w s.pendingData }, sequenced_of_ok (i := .stageCodeWord w) (s := s) rfl,
    stageGet_stageSet_self .., fun _ hu => stageGet_stageSet_ne _ _ hu, rfl⟩

/-! ## WRITE_CODE -/

theorem exec_writeCode {s : State} (htree : s.treeValid = false) (henc : s.encActive = false) (x : Sym) (l : BitVec 8) :
    exec (.writeCode x l) s =
      if 0 < l.toNat && duplicateCode s x l (stagedCode s l) then raiseErr .duplicateCode (.writeCode x l) s
      else .next (putCode x l (stagedCode s l) s) :=
  sequenced_of_ok (seqOk_iff.2 ⟨htree, henc⟩)

/-- The staged code is a duplicate where another symbol has its length and its value as a number (43_code_table.md R169). -/
theorem duplicateCode_stagedCode_iff {s : State} {x : Sym} {l : BitVec 8} :
    duplicateCode s x l (stagedCode s l) = true ↔
      ∃ y, y ≠ x ∧ symGet s.codeLen y = l ∧ (symGet s.codeVal y).toNat = stagedSum s % 2 ^ l.toNat := by
  simp only [duplicateCode, List.any_eq_true, mem_allSyms, true_and, Bool.and_eq_true, decide_eq_true_eq, and_assoc,
    ← stagedCode_toNat, BitVec.toNat_inj]

/-- Settles O24: a code of length 0 or without a duplicate is put into the table. -/
theorem writeCodeSetsTheCode : Obligations.WriteCodeSetsTheCode := by
  intro x l s htree henc hfree
  have hnodup : ¬ ((0 < l.toNat && duplicateCode s x l (stagedCode s l)) = true) := by
    rw [Bool.and_eq_true, duplicateCode_stagedCode_iff, decide_eq_true_eq]
    rintro ⟨hpos, y, hy, hcode⟩
    rcases hfree with rfl | hfree
    · exact absurd hpos (by decide)
    · exact hfree y hy hcode
  refine ⟨putCode x l (stagedCode s l) s, ?_, ?_, ?_, rfl, fun y hy => ?_, rfl⟩
  · rw [exec_writeCode htree henc, if_neg hnodup]
  · rw [putCode_codeLen, symGet_symSet_self]
  · rw [putCode_codeVal, symGet_symSet_self, stagedCode_toNat]
  · rw [putCode_codeLen, putCode_codeVal]
    exact ⟨symGet_symSet_ne _ _ hy, symGet_symSet_ne _ _ hy⟩

/-- Settles O25: a duplicate raises an error that has no abort effect. -/
theorem writeCodeRefusesDuplicates : Obligations.WriteCodeRefusesDuplicates := by
  intro x y l s htree henc hl hy hlen hval
  have hpos : 0 < l.toNat := Nat.pos_of_ne_zero fun h => hl (BitVec.eq_of_toNat_eq h)
  have hdup : duplicateCode s x l (stagedCode s l) = true := duplicateCode_stagedCode_iff.2 ⟨y, hy, hlen, hval⟩
  rw [exec_writeCode htree henc, if_pos (by simp [hpos, hdup])]
  exact raiseErr_eq_errState (i := .writeCode x l) (fun _ => nofun) nofun .duplicateCode s

/-! ## Who changes the table -/

/-- Settles O57: of the commands that write the table, GEN_CODES and WRITE_CODE do so inside their conditions. -/
theorem tableChangesOnlyByItsCommands : Obligations.TableChangesOnlyByItsCommands := by
  intro s t h hrun hne
  rcases step_same (p := .table) (by simp [errorWrites]) h hrun with
    ⟨-, htable⟩ | ⟨hr, -⟩ | ⟨hc, i, ts, n, v, hi, hw, he, -⟩
  · exact absurd htable hne
  · exact .inl hr
  · rcases table_mem_writes.1 hw with rfl | rfl | ⟨x, l, rfl⟩
    · exact .inr ⟨hc, .inl hi⟩
    · obtain ⟨htree, hcodes, -⟩ := he
      exact .inr ⟨hc, .inr (.inl ⟨hi, htree, hcodes⟩)⟩
    · obtain ⟨htree, henc, -⟩ := he
      exact .inr ⟨hc, .inr (.inr ⟨x, l, hi, htree, henc⟩)⟩

/-! ## GEN_CODES -/

/-- Inside its condition GEN_CODES answers the state that holds the table of its tree, and no other state. -/
theorem exec_genCodes_next_iff {s t : State} (htree : s.treeValid = true) (hcodes : s.codesValid = false) :
    exec .genCodes s = .next t ↔ ∃ tab, tableOfTree (nodeAt s.nodes s.draws) s.root = some tab ∧ t = loadTable tab s := by
  have hbody : exec .genCodes s = _ := sequenced_of_ok (seqOk_iff.2 ⟨htree, hcodes⟩)
  rw [hbody]
  cases tableOfTree (nodeAt s.nodes s.draws) s.root with
  | none => simp
  | some tab => simp [eq_comm]

/-- Settles O21: what GEN_CODES loads is the table of a tree. -/
theorem builtTableIsPrefixFree : Obligations.BuiltTableIsPrefixFree := by
  intro s t htree hcodes h
  obtain ⟨tab, htab, rfl⟩ := (exec_genCodes_next_iff htree hcodes).1 h
  exact prefixFree_tableOfTree htab

end Sys2Proof.Machine
end

section
/-! The table of a built tree (43_code_table.md R161 to R165): GEN_CODES ends on it, and exactly the counted symbols have a code,
the path to their leaf. -/

namespace Sys2Proof.Machine

/-! ## The walk ends -/

/-- A path to an internal node of a built tree has fewer than MAX_CODE_LEN edges (43_code_table.md R164). -/
theorem BuiltTree.length_lt_maxCodeLen {s : State} (h : BuiltTree s) (hcounts : CountsInv s) {k : Nat} {p : BitString} {f : Word}
    {l r : BitVec 9} (hw : walkFrom (nodeAt s.nodes k) s.root p = some (.branch f l r)) : p.length < Config.maxCodeLen := by
  have hdepth := h.depth k p hw
  have hsyms : s.nsym ≤ 256 := hcounts.nsym ▸ length_presentSyms_le s.freq
  rw [Config.maxCodeLen]
  omega

/-- GEN_CODES ends on a built tree (43_code_table.md R164). -/
theorem BuiltTree.exists_table {s : State} (h : BuiltTree s) (hcounts : CountsInv s) (k : Nat) :
    ∃ t, tableOfTree (nodeAt s.nodes k) s.root = some t := by
  unfold tableOfTree
  split
  · exact ⟨_, rfl⟩
  · exact visit_isSome _ _ _ _ fun q f l r hq => h.length_lt_maxCodeLen hcounts hq

/-! ## Who has a code -/

/-- The symbol of a leaf that a path reaches has a code. -/
theorem len_ne_zero_of_walk {node : Nat → Node} {root : Nat} {t : CodeTable} (h : tableOfTree node root = some t) {x : Sym}
    {q : BitString} {f : Word} (hw : walkFrom node root q = some (.leaf x f)) : symGet t.len x ≠ 0 := by
  unfold tableOfTree at h
  split at h
  next y g hroot =>
    cases h
    obtain ⟨-, hm⟩ := walkFrom_leaf hroot hw
    cases hm
    rw [(recordCode_self emptyTable x [false]).1]
    decide
  next g l r hroot =>
    obtain ⟨p, f', hp, hle, hpath⟩ := visit_reaches _ _ _ _ _ h x q f hw
    have hne : p ≠ [] := by
      rintro rfl
      rw [walkFrom, hroot] at hp
      cases hp
    have hpos : 0 < p.length := List.length_pos_iff.2 hne
    rw [hpath.1, List.nil_append]
    intro h0
    have hmod := congrArg BitVec.toNat h0
    rw [BitVec.toNat_ofNat, Nat.mod_eq_of_lt (Nat.lt_of_le_of_lt hle (by decide))] at hmod
    exact absurd hmod hpos.ne'

/-- Every counted symbol has a leaf that a path from ROOT reaches. -/
theorem BuiltTree.exists_walk {s : State} (h : BuiltTree s) (hcounts : CountsInv s) (k : Nat) {x : Sym}
    (hx : symGet s.freq x ≠ 0) : ∃ q, walkFrom (nodeAt s.nodes k) s.root q = some (.leaf x (symGet s.freq x)) := by
  obtain ⟨i, hi, hget⟩ := leaf_index hcounts h x hx
  have hlt : i < s.nnodes := by
    have hcount := h.count
    omega
  obtain ⟨q, hq⟩ := h.reach k _ i hlt rfl
  exact ⟨q, by rw [hq, nodeAt, hget, Option.getD_some]⟩

/-- A symbol that the table of a tree gives a code to has a leaf that a path reaches. -/
theorem exists_walk_of_len_ne_zero {node : Nat → Node} {root : Nat} {t : CodeTable} (h : tableOfTree node root = some t)
    {x : Sym} (hx : symGet t.len x ≠ 0) : ∃ q f, walkFrom node root q = some (.leaf x f) := by
  rcases codeOf_tableOfTree h hx with ⟨f, hroot, -⟩ | ⟨f, hw⟩
  · exact ⟨[], f, by rw [walkFrom, hroot]⟩
  · exact ⟨_, f, hw⟩

/-- Exactly the counted symbols have a code in the table of a built tree (43_code_table.md R161). -/
theorem BuiltTree.len_ne_zero_iff {s : State} (h : BuiltTree s) (hcounts : CountsInv s) {k : Nat} {t : CodeTable}
    (ht : tableOfTree (nodeAt s.nodes k) s.root = some t) {x : Sym} : symGet t.len x ≠ 0 ↔ symGet s.freq x ≠ 0 := by
  constructor
  · intro hx
    obtain ⟨q, f, hw⟩ := exists_walk_of_len_ne_zero ht hx
    obtain ⟨rfl, hf⟩ := leaf_sym h k q x f hw
    exact hf
  · intro hx
    obtain ⟨q, hw⟩ := h.exists_walk hcounts k hx
    exact len_ne_zero_of_walk ht hw

/-- A built tree whose root is a leaf has that leaf alone. -/
theorem BuiltTree.nsym_eq_one {s : State} (h : BuiltTree s) {k : Nat} {x : Sym} {f : Word}
    (hroot : nodeAt s.nodes k s.root = .leaf x f) : s.nsym = 1 := by
  have hcount := h.count
  have hlast := h.root
  have hpos := h.nonempty
  rcases h.node (i := s.root) (by omega) with ⟨hlt, -⟩ | ⟨-, g, l, r, hget, -⟩
  · omega
  · rw [nodeAt, hget] at hroot
    cases hroot

/-- The code of a symbol in the table of a built tree: "0" in a tree of one leaf, else the path to the symbol's leaf
(43_code_table.md R162, R163). -/
theorem BuiltTree.codeOf_table {s : State} (h : BuiltTree s) {k : Nat} {t : CodeTable}
    (ht : tableOfTree (nodeAt s.nodes k) s.root = some t) {x : Sym} (hx : symGet t.len x ≠ 0) :
    (s.nsym = 1 ∧ codeOf t.len t.val x = [false]) ∨
      walkFrom (nodeAt s.nodes k) s.root (codeOf t.len t.val x) = some (.leaf x (symGet s.freq x)) := by
  rcases codeOf_tableOfTree ht hx with ⟨f, hroot, hcode⟩ | ⟨f, hw⟩
  · exact .inl ⟨h.nsym_eq_one hroot, hcode⟩
  · exact .inr ((leaf_sym h k _ x f hw).1 ▸ hw)

/-- A code of length 0 has value 0 (10_state.md R39). -/
theorem CodesInv.val_eq_zero {s : State} (h : CodesInv s) {x : Sym} (hx : symGet s.codeLen x = 0) : symGet s.codeVal x = 0 := by
  have hsmall := h.small x
  rw [hx] at hsmall
  exact BitVec.eq_of_toNat_eq (Nat.lt_one_iff.1 hsmall)

/-- Settles O20: the walk ends on a built tree, and what it records for a symbol is the path to the symbol's leaf. -/
theorem genCodesGivesTreePaths : Obligations.GenCodesGivesTreePaths := by
  intro s htree hcodes hcounts hbuilt
  obtain ⟨tab, htab⟩ := hbuilt.exists_table hcounts s.draws
  have hlen : ∀ {x}, symGet tab.len x ≠ 0 ↔ symGet s.freq x ≠ 0 := hbuilt.len_ne_zero_iff hcounts htab
  refine ⟨loadTable tab s, (exec_genCodes_next_iff htree hcodes).2 ⟨tab, htab, rfl⟩, rfl, fun x hx => ?_, fun x hx => ?_,
    rfl⟩
  · have hzero : symGet tab.len x = 0 := by_contra fun h => hlen.1 h hx
    exact ⟨hzero, (codesInv_loadTable htab s).val_eq_zero hzero⟩
  · have hne := hlen.2 hx
    have hpos : (symGet tab.len x).toNat ≠ 0 := fun h => hne (BitVec.eq_of_toNat_eq h)
    rw [loadTable_codeLen, loadTable_codeVal, length_codeOf]
    exact ⟨Nat.pos_of_ne_zero hpos, Nat.le_of_lt_succ (symGet tab.len x).isLt, hbuilt.codeOf_table htab hne⟩

/-! ## The paths to the leaves -/

/-- The paths from a node to the leaves at most `fuel` edges below it, from left to right. -/
def leafPaths (node : Nat → Node) : Nat → Nat → List BitString
  | fuel, n =>
    match node n with
    | .leaf _ _ => [[]]
    | .branch _ l r =>
      match fuel with
      | 0 => []
      | fuel + 1 => (leafPaths node fuel l.toNat).map (false :: ·) ++ (leafPaths node fuel r.toNat).map (true :: ·)

/-- What is listed are the paths of at most `fuel` edges that end in a leaf. -/
theorem mem_leafPaths {node : Nat → Node} {fuel n : Nat} {p : BitString} :
    p ∈ leafPaths node fuel n ↔ p.length ≤ fuel ∧ ∃ x f, walkFrom node n p = some (.leaf x f) := by
  fun_induction leafPaths node fuel n generalizing p with
  | case1 fuel n x f hn => cases p <;> simp [walkFrom, hn]
  | case2 n f l r hn => cases p <;> simp [walkFrom, hn]
  | case3 n f l r hn fuel ihl ihr => rcases p with - | ⟨_ | _, p⟩ <;> simp [walkFrom, hn, ihl, ihr]

theorem nodup_leafPaths (node : Nat → Node) (fuel n : Nat) : (leafPaths node fuel n).Nodup := by
  fun_induction leafPaths node fuel n with
  | case1 => exact List.nodup_singleton _
  | case2 => exact List.nodup_nil
  | case3 n f l r hn fuel ihl ihr =>
    exact (ihl.map List.cons_injective).append (ihr.map List.cons_injective) (by simp [List.Disjoint])

/-- The Kraft sum of the paths from a node to the leaves is 1 where no path goes deeper than `fuel`, here times 2^fuel: each child
has half of its node's (43_code_table.md R165 (b)). -/
theorem kraft_leafPaths {node : Nat → Node} (fuel n : Nat)
    (h : ∀ q f l r, walkFrom node n q = some (.branch f l r) → q.length < fuel) :
    ((leafPaths node fuel n).map fun p => 2 ^ (fuel - p.length)).sum = 2 ^ fuel := by
  fun_induction leafPaths node fuel n with
  | case1 => simp
  | case2 n f l r hn => exact absurd (h [] f l r (by rw [walkFrom, hn])) (Nat.not_lt_zero _)
  | case3 n f l r hn fuel ihl ihr =>
    have hleft := ihl fun q f' l' r' hq =>
      Nat.lt_of_succ_lt_succ (h (false :: q) f' l' r' (by simpa [walkFrom, hn] using hq))
    have hright := ihr fun q f' l' r' hq =>
      Nat.lt_of_succ_lt_succ (h (true :: q) f' l' r' (by simpa [walkFrom, hn] using hq))
    rw [List.map_append, List.map_map, List.map_map, List.sum_append]
    simp only [Function.comp_def, List.length_cons, Nat.succ_eq_add_one, Nat.add_sub_add_right]
    rw [hleft, hright, Nat.pow_succ, Nat.mul_two]

/-! ## One path to every leaf -/

/-- The index of the node a path leads to; a leaf on the way is where it stops. -/
def indexFrom (node : Nat → Node) : Nat → BitString → Nat
  | n, [] => n
  | n, b :: p =>
    match node n with
    | .leaf _ _ => n
    | .branch _ l r => indexFrom node (if b then r.toNat else l.toNat) p

/-- The node at that index is the one the path leads to. -/
theorem node_indexFrom {node : Nat → Node} {n : Nat} {p : BitString} {m : Node} (h : walkFrom node n p = some m) :
    node (indexFrom node n p) = m := by
  induction p generalizing n with
  | nil => exact Option.some.inj h
  | cons b p ih =>
    cases hn : node n with
    | leaf x f => simp [walkFrom, hn] at h
    | branch f l r =>
      simp only [walkFrom, indexFrom, hn] at h ⊢
      exact ih h

/-- A path that goes on from an internal node leads to one of its children. -/
theorem indexFrom_append_singleton {node : Nat → Node} {n : Nat} {p : BitString} {f : Word} {l r : BitVec 9}
    (h : walkFrom node n p = some (.branch f l r)) (b : Bool) :
    indexFrom node n (p ++ [b]) = if b then r.toNat else l.toNat := by
  induction p generalizing n with
  | nil =>
    have hn : node n = .branch f l r := Option.some.inj h
    simp only [List.nil_append, indexFrom, hn]
  | cons c p ih =>
    cases hn : node n with
    | leaf x g => simp [walkFrom, hn] at h
    | branch g l' r' =>
      simp only [walkFrom, List.cons_append, indexFrom, hn] at h ⊢
      exact ih h

/-- In a built tree the index falls with every edge (42_tree_builder.md R145). -/
theorem BuiltTree.indexFrom_add_length_le {s : State} (h : BuiltTree s) {k n : Nat} (hn : n < s.nnodes) {p : BitString} {m : Node}
    (hw : walkFrom (nodeAt s.nodes k) n p = some m) : indexFrom (nodeAt s.nodes k) n p + p.length ≤ n := by
  induction p generalizing n with
  | nil => exact Nat.le_refl n
  | cons b p ih =>
    rcases h.node hn with ⟨-, x, f, hget, -⟩ | ⟨-, f, l, r, hget, hl, hr⟩
    · simp [walkFrom, nodeAt, hget] at hw
    · have hnode : nodeAt s.nodes k n = .branch f l r := by rw [nodeAt, hget, Option.getD_some]
      have hchild : (if b then r.toNat else l.toNat) < n := by
        split
        · exact hr
        · exact hl
      simp only [walkFrom, indexFrom, hnode] at hw ⊢
      have hle := ih (Nat.lt_trans hchild hn) hw
      rw [List.length_cons]
      omega

/-- A path from ROOT leads to an entry of the node store that is listed. -/
theorem BuiltTree.storeGet_indexFrom {s : State} (h : BuiltTree s) {k : Nat} {p : BitString} {m : Node}
    (hw : walkFrom (nodeAt s.nodes k) s.root p = some m) :
    indexFrom (nodeAt s.nodes k) s.root p < s.nnodes ∧
      storeGet s.nodes (indexFrom (nodeAt s.nodes k) s.root p) = some m := by
  have hroot := h.root
  have hle := h.indexFrom_add_length_le (k := k) (by omega) hw
  have hlt : indexFrom (nodeAt s.nodes k) s.root p < s.nnodes := by omega
  have hnode := node_indexFrom hw
  refine ⟨hlt, ?_⟩
  rcases h.node hlt with ⟨-, x, f, hget, -⟩ | ⟨-, f, l, r, hget, -⟩ <;>
    rw [hget, ← hnode, nodeAt, hget, Option.getD_some]

/-- A path of one edge more leads from an internal node to its child on that side. -/
theorem BuiltTree.parent_of_append_singleton {s : State} (h : BuiltTree s) {k : Nat} {p : BitString} {b : Bool} {m : Node}
    (hw : walkFrom (nodeAt s.nodes k) s.root (p ++ [b]) = some m) :
    ∃ f l r, walkFrom (nodeAt s.nodes k) s.root p = some (.branch f l r) ∧
      indexFrom (nodeAt s.nodes k) s.root p < s.nnodes ∧
      storeGet s.nodes (indexFrom (nodeAt s.nodes k) s.root p) = some (.branch f l r) ∧
      indexFrom (nodeAt s.nodes k) s.root (p ++ [b]) = if b then r.toNat else l.toNat := by
  obtain ⟨f, l, r, hp⟩ := walkFrom_append_singleton hw
  obtain ⟨hlt, hget⟩ := h.storeGet_indexFrom hp
  exact ⟨f, l, r, hp, hlt, hget, indexFrom_append_singleton hp b⟩

theorem isParent_child {nodes : Store Node} {j : Nat} {f : Word} {l r : BitVec 9}
    (hget : storeGet nodes j = some (.branch f l r)) (b : Bool) : IsParent nodes j (if b then r.toNat else l.toNat) := by
  refine ⟨f, l, r, hget, ?_⟩
  cases b
  · exact .inl rfl
  · exact .inr rfl

/-- The two children of an internal node are different nodes (42_tree_builder.md R145). -/
theorem BuiltTree.side_unique {s : State} (h : BuiltTree s) {j : Nat} {f : Word} {l r : BitVec 9} (hj : j < s.nnodes)
    (hget : storeGet s.nodes j = some (.branch f l r)) {b c : Bool}
    (hbc : (if b then r.toNat else l.toNat) = if c then r.toNat else l.toNat) : b = c := by
  have hne : l.toNat ≠ r.toNat := by
    rcases h.node hj with ⟨-, x, g, hget', -⟩ | ⟨hge, -⟩
    · rw [hget] at hget'; cases hget'
    · obtain ⟨f', l', r', hget', -, -, hlr, -⟩ := h.inner j hge hj
      rw [hget] at hget'
      cases hget'
      exact fun e => hlr (BitVec.eq_of_toNat_eq e)
  cases b <;> cases c
  · rfl
  · exact absurd hbc hne
  · exact absurd hbc.symm hne
  · rfl

/-- One path leads to each node of a built tree, since every node but ROOT has one parent (42_tree_builder.md R145). -/
theorem BuiltTree.path_unique {s : State} (h : BuiltTree s) {k : Nat} {p q : BitString} {m m' : Node}
    (hp : walkFrom (nodeAt s.nodes k) s.root p = some m) (hq : walkFrom (nodeAt s.nodes k) s.root q = some m')
    (hindex : indexFrom (nodeAt s.nodes k) s.root p = indexFrom (nodeAt s.nodes k) s.root q) : p = q := by
  have hroot : s.root < s.nnodes := by
    have hlast := h.root
    omega
  have hple := h.indexFrom_add_length_le hroot hp
  have hqle := h.indexFrom_add_length_le hroot hq
  induction p using List.reverseRecOn generalizing q m m' with
  | nil =>
    rw [← hindex, indexFrom] at hqle
    exact (List.length_eq_zero_iff.1 (by omega)).symm
  | append_singleton p b ih =>
    rcases List.eq_nil_or_concat' q with rfl | ⟨q, c, rfl⟩
    · rw [hindex, indexFrom, List.length_append, List.length_singleton] at hple
      omega
    · obtain ⟨hlt, -⟩ := h.storeGet_indexFrom hp
      obtain ⟨f, l, r, hwp, hplt, hpget, hpchild⟩ := h.parent_of_append_singleton hp
      obtain ⟨g, l', r', hwq, hqlt, hqget, hqchild⟩ := h.parent_of_append_singleton hq
      have hne : indexFrom (nodeAt s.nodes k) s.root (p ++ [b]) ≠ s.root := by
        rw [List.length_append, List.length_singleton] at hple
        omega
      have hsame := (h.parent _ hlt hne).unique ⟨hplt, hpchild ▸ isParent_child hpget b⟩
        ⟨hqlt, hindex ▸ hqchild ▸ isParent_child hqget c⟩
      have hpq : p = q := ih hwp hwq hsame (h.indexFrom_add_length_le hroot hwp) (h.indexFrom_add_length_le hroot hwq)
      subst hpq
      rw [hpget] at hqget
      cases hqget
      rw [h.side_unique hplt hpget (hpchild.symm.trans (hindex.trans hqchild))]

/-- The builder's leaves are all different. -/
theorem nodup_leavesOf (f : Vector Word 256) : (leavesOf f).Nodup := by
  rw [leavesOf_eq_map]
  exact (nodup_allSyms.filter _).map fun x y hxy => by cases hxy; rfl

/-- A leaf that a path reaches stands among the builder's leaves at its own index (42_tree_builder.md R141). -/
theorem BuiltTree.leavesOf_indexFrom {s : State} (h : BuiltTree s) {k : Nat} {p : BitString} {x : Sym} {f : Word}
    (hw : walkFrom (nodeAt s.nodes k) s.root p = some (.leaf x f)) :
    (leavesOf s.freq)[indexFrom (nodeAt s.nodes k) s.root p]? = some (.leaf x (symGet s.freq x)) := by
  obtain ⟨hlt, hget⟩ := h.storeGet_indexFrom hw
  rcases h.node hlt with ⟨-, y, g, hget', hleaf⟩ | ⟨-, g, l, r, hget', -⟩
  · rw [hget] at hget'
    cases hget'
    rw [hleaf, (leaf_sym h k p x f hw).1]
  · rw [hget] at hget'
    cases hget'

/-- One path leads to the leaf of each symbol of a built tree. -/
theorem BuiltTree.leaf_path_unique {s : State} (h : BuiltTree s) {k : Nat} {p q : BitString} {x : Sym} {f g : Word}
    (hp : walkFrom (nodeAt s.nodes k) s.root p = some (.leaf x f))
    (hq : walkFrom (nodeAt s.nodes k) s.root q = some (.leaf x g)) : p = q := by
  have hpleaf := h.leavesOf_indexFrom hp
  have hlt := (List.getElem?_eq_some_iff.1 hpleaf).1
  have hindex := (List.getElem?_inj hlt (nodup_leavesOf s.freq)).1 (hpleaf.trans (h.leavesOf_indexFrom hq).symm)
  exact h.path_unique hp hq hindex

/-! ## The Kraft sum -/

/-- Of a tree with at least two leaves, the codes of the counted symbols are the paths to the leaves, each once. -/
theorem BuiltTree.codes_perm_leafPaths {s : State} (h : BuiltTree s) (hcounts : CountsInv s) (hn : 2 ≤ s.nsym) {k : Nat}
    {t : CodeTable} (ht : tableOfTree (nodeAt s.nodes k) s.root = some t) :
    ((presentSyms s.freq).map (codeOf t.len t.val)).Perm (leafPaths (nodeAt s.nodes k) Config.maxCodeLen s.root) := by
  have hcode : ∀ {x}, symGet s.freq x ≠ 0 →
      walkFrom (nodeAt s.nodes k) s.root (codeOf t.len t.val x) = some (.leaf x (symGet s.freq x)) := fun hx =>
    (h.codeOf_table ht ((h.len_ne_zero_iff hcounts ht).2 hx)).resolve_left fun hone => by omega
  have hnodup : ((presentSyms s.freq).map (codeOf t.len t.val)).Nodup := by
    refine List.Nodup.map_on (fun x hx y hy hxy => ?_) (nodup_allSyms.filter _)
    have hwx := hcode (mem_present.1 hx)
    rw [hxy, hcode (mem_present.1 hy)] at hwx
    cases hwx
    rfl
  refine (List.perm_ext_iff_of_nodup hnodup (nodup_leafPaths ..)).2 fun p => ?_
  rw [List.mem_map, mem_leafPaths]
  constructor
  · rintro ⟨x, hx, rfl⟩
    refine ⟨?_, x, _, hcode (mem_present.1 hx)⟩
    rw [length_codeOf]
    exact Nat.le_of_lt_succ (symGet t.len x).isLt
  · rintro ⟨-, x, f, hw⟩
    obtain ⟨rfl, hx⟩ := leaf_sym h k p x f hw
    exact ⟨x, mem_present.2 hx, h.leaf_path_unique (hcode hx) hw⟩

/-- Settles O22: the codes are the paths to the leaves, and the Kraft sum of these is 1. -/
theorem builtTableIsComplete : Obligations.BuiltTableIsComplete := by
  intro s t htree hcodes hcounts hbuilt hn hexec
  obtain ⟨tab, htab, rfl⟩ := (exec_genCodes_next_iff htree hcodes).1 hexec
  calc ((presentSyms s.freq).map fun x => 2 ^ (Config.maxCodeLen - (symGet tab.len x).toNat)).sum
      = (((presentSyms s.freq).map (codeOf tab.len tab.val)).map fun p => 2 ^ (Config.maxCodeLen - p.length)).sum := by
        simp only [List.map_map, Function.comp_def, length_codeOf]
    _ = ((leafPaths (nodeAt s.nodes s.draws) Config.maxCodeLen s.root).map fun p => 2 ^ (Config.maxCodeLen - p.length)).sum :=
        ((hbuilt.codes_perm_leafPaths hcounts hn htab).map _).sum_eq
    _ = 2 ^ Config.maxCodeLen := kraft_leafPaths _ _ fun q f l r hq => hbuilt.length_lt_maxCodeLen hcounts hq

end Sys2Proof.Machine
end

section
/-! The scan of DECODE (45_bit_unpacker.md R225): its outcome is read off the greedy parse, and every bit string has one. -/

namespace Sys2Proof.Machine

/-- A candidate that nothing matches yet, with any bits after it, has a greedy parse. -/
theorem exists_greedyParse_append {look : BitString → Option Sym} (y c : BitString)
    (hc : ∀ q, q ≠ [] → q <+: c → look q = none) : ∃ xs rest, GreedyParse look (c ++ y) xs rest := by
  induction y generalizing c with
  | nil => exact ⟨[], c, by rw [List.append_nil]; exact .leftover c hc⟩
  | cons b y ih =>
    rw [List.append_cons]
    cases hlook : look (c ++ [b]) with
    | some x =>
      obtain ⟨xs, rest, hparse⟩ := ih [] fun q hq hpre => absurd (List.prefix_nil.1 hpre) hq
      refine ⟨x :: xs, rest, .emit (c ++ [b]) y rest x xs (by simp) hlook (fun q hq hpre hne => ?_) hparse⟩
      exact hc q hq ((List.prefix_concat_iff.1 hpre).resolve_left hne)
    | none =>
      refine ih (c ++ [b]) fun q hq hpre => ?_
      rcases List.prefix_concat_iff.1 hpre with rfl | hpre
      · exact hlook
      · exact hc q hq hpre

theorem exists_greedyParse (look : BitString → Option Sym) (y : BitString) : ∃ xs rest, GreedyParse look y xs rest :=
  exists_greedyParse_append y [] fun _ hq hpre => absurd (List.prefix_nil.1 hpre) hq

/-- The scan from an empty candidate gives the greedy parse after the symbols that are emitted already: CAPACITY where they are
too many together, else CORRUPT_LEFTOVER where bits are left over. -/
theorem GreedyParse.scanBits {look : BitString → Option Sym} {cap : Nat} {y rest : BitString} {xs : List Sym}
    (h : GreedyParse look y xs rest) (out : List Sym) (hout : out.length ≤ cap) :
    scanBits look cap y [] out =
      if cap < out.length + xs.length then .error .capacity
      else if rest = [] then .ok (out ++ xs) else .error .corruptLeftover := by
  induction h generalizing out with
  | leftover rest hrest =>
    have hcollect := scanBits_collect (cap := cap) rest [] [] out hrest
    rw [List.append_nil, List.nil_append] at hcollect
    have hroom : ¬ cap < out.length + ([] : List Sym).length := Nat.not_lt.2 hout
    rw [hcollect, Machine.scanBits, if_neg hroom, List.append_nil]
  | emit p y rest x xs hp hx hshort _ ih =>
    rw [scanBits_code p y x out hp hx hshort, List.length_cons]
    by_cases hfull : out.length = cap
    · rw [if_pos hfull, if_pos (by omega)]
    · have hroom : (out ++ [x]).length ≤ cap := by rw [List.length_append, List.length_singleton]; omega
      rw [if_neg hfull, ih _ hroom, List.length_append, List.length_singleton, List.append_assoc, List.singleton_append,
        Nat.add_right_comm, Nat.add_assoc]

/-- Settles O35: the lookup by the table's invariants, the scan by its greedy parse from nothing emitted. -/
theorem scanIsTheGreedyParse : Obligations.ScanIsTheGreedyParse := by
  refine ⟨fun s c x hs => matchCode_iff hs, fun look cap y => ⟨exists_greedyParse look y, fun xs rest hparse => ?_⟩⟩
  rw [hparse.scanBits [] (Nat.zero_le cap), List.length_nil, Nat.zero_add, List.nil_append]

end Sys2Proof.Machine
end

section
/-! Safe steps (60_exceptions.md): where the invariants hold every command answers a next state, and what else stops a step is the
guard of a host access. -/

namespace Sys2Proof.Machine

/-! ## Every command answers -/

/-- An outcome that is a next state. -/
def Answers (o : Out) : Prop := ∃ t, o = .next t

theorem Answers.next (t : State) : Answers (.next t) := ⟨t, rfl⟩

theorem Answers.raise {e : Err} {i : Instr} {s : State} : Answers (raiseErr e i s) := .next _

theorem Answers.ite {c : Prop} [Decidable c] {a b : Out} (ha : Answers a) (hb : Answers b) : Answers (if c then a else b) := by
  split
  · exact ha
  · exact hb

theorem Answers.sequenced {body : Out} {i : Instr} {s : State} (h : Answers body) : Answers (sequenced i s body) :=
  .ite h .raise

/-- BUILD_TREE answers where the counts agree: a symbol counted is a node to be ROOT (42_tree_builder.md R141). -/
theorem answers_buildTreeBody (choose : Nat → Nat) {s : State} (hs : CountsInv s) : Answers (buildTreeBody choose s) := by
  by_cases hn : s.nsym = 0
  · rw [buildTreeBody_of_nsym_zero hn]; exact .raise
  · obtain ⟨t, -, -, -, hbody⟩ := buildTreeBody_ends choose hn (present_ne hs hn)
    exact ⟨_, hbody⟩

/-- GEN_CODES answers where it finds the table of a tree; outside its condition it answers SEQUENCE. -/
theorem answers_genCodes {s : State} (h : s.treeValid = true → ∃ t, tableOfTree (nodeAt s.nodes s.draws) s.root = some t) :
    Answers (exec .genCodes s) := by
  by_cases hcond : s.treeValid = true ∧ s.codesValid = false
  · obtain ⟨t, ht⟩ := h hcond.1
    exact ⟨_, (exec_genCodes_next_iff hcond.1 hcond.2).2 ⟨t, ht, rfl⟩⟩
  · exact ⟨_, (sequenceErrorOutsideCondition .genCodes s).1 hcond⟩

/-- Where the invariants hold every command answers a next state: BUILD_TREE finds a root, and the tree that GEN_CODES walks is a
built tree (43_code_table.md R164, 42_tree_builder.md R141). -/
theorem CoreInv.answers_exec {s : State} (hs : CoreInv s) (i : Instr) : Answers (exec i s) := by
  unfold exec
  cases i with
  | nop | clear | errClear | readFreq | readCodeLen | readCodeWord | stageCodeWord | encFinish | inClear =>
    exact .sequenced (.next _)
  | count | writeCode | readOut | inPush => exact .sequenced (.ite .raise (.next _))
  | buildTree => exact .sequenced (answers_buildTreeBody _ hs.counts)
  | genCodes => exact answers_genCodes fun htree => (hs.tree.present htree).exists_table hs.counts s.draws
  | encSym => exact .sequenced (.ite .raise (.ite .raise (.next _)))
  | decode =>
    refine .sequenced (.ite .raise (.ite .raise ?_))
    split
    · exact .raise
    · exact .next _

theorem CoreInv.answers_executeWord {s : State} (hs : CoreInv s) (w : Word) : Answers (executeWord w s) := by
  unfold executeWord
  split
  · exact .next _
  · exact hs.answers_exec _

/-- The core's turn answers where the invariants hold (40_control.md R103). -/
theorem SysInv.answers_coreTurn {s : State} (hs : SysInv s) : Answers (coreTurn s) := by
  unfold coreTurn
  split
  next henabled =>
    obtain ⟨t, ht⟩ := (hs.core (coreEnabled_iff.1 henabled).1).answers_executeWord s.pending
    exact ⟨_, by rw [ht, complete]⟩
  next => exact .next s

/-! ## Every turn is safe -/

/-- An outcome that is a next state, or the refusal of a host access that the spec gives no step. -/
def Safe (o : Out) : Prop :=
  (∀ r, o ≠ .fault r) ∧ ∀ r, o = .refused r → r = .accessWidth ∨ r = .accessDuringReset ∨ r = .accessBeforeReset

theorem Answers.safe {o : Out} (h : Answers o) : Safe o := by
  obtain ⟨t, rfl⟩ := h
  exact ⟨nofun, nofun⟩

/-- A guarded access is safe (20_memory.md R62, 70_reset_and_hazards.md R280, R282). -/
theorem safe_guardAccess (width : Nat) (s t : State) : Safe (guardAccess width s (.next t)) := by
  cases hphase : s.phase with
  | powerUp => rw [guardAccess_powerUp hphase]; exact ⟨nofun, by rintro _ ⟨⟩; simp⟩
  | resetAsserted => rw [guardAccess_resetAsserted hphase]; exact ⟨nofun, by rintro _ ⟨⟩; simp⟩
  | running =>
    by_cases hwidth : width = 32
    · exact Answers.safe ⟨t, by simp [guardAccess, hphase, hwidth]⟩
    · rw [guardAccess_width_ne hphase hwidth]; exact ⟨nofun, by rintro _ ⟨⟩; simp⟩

theorem safe_hostOp (op : HostOp) (s : State) : Safe (hostOp op s) := by
  cases op with
  | wr | rd => exact safe_guardAccess _ _ _
  | bnz | bz => exact (Answers.next _).safe
  | requireNoErr => exact (Answers.ite (.next _) (.next _)).safe

theorem safe_hostTurn (s : State) : Safe (hostTurn s) := by
  unfold hostTurn
  split
  · exact (Answers.next s).safe
  · exact safe_hostOp _ s

/-- The turn of each agent is safe where the invariants hold. -/
theorem SysInv.safe_turnOf {s : State} (hs : SysInv s) (a : Turn) : Safe (turnOf a s) := by
  cases a with
  | core => exact hs.answers_coreTurn.safe
  | host => exact safe_hostTurn s
  | assertReset | releaseReset | powerRestored => exact (Answers.next _).safe

/-- The invariants do not look at the schedule. -/
theorem SysInv.scheduled {s u : State} {a : Turn} (hs : SysInv s) (h : Scheduled s a u) : SysInv u := by
  obtain ⟨ts, n, rfl⟩ := h.frame
  refine ⟨hs.cfg, fun hrun => ?_⟩
  exact kept_coreInv.fields s s.busy s.data s.pending s.pendingData ts s.host s.phase n (hs.core hrun)

/-- Settles O55: a step is the turn of one agent, from the same CORE. -/
theorem stepsAreSafe : Obligations.StepsAreSafe := by
  intro s hs
  obtain ⟨a, u, hstep, hu⟩ := step_eq s
  rw [SafeStep, hstep]
  exact (hs.scheduled hu).safe_turnOf a

end Sys2Proof.Machine
end

section
/-! The bit packer's commands (44_bit_packer.md): the stream that ENC_SYM and ENC_FINISH go on from, and what ENC_SYM, ENC_FINISH
and READ_OUT answer inside their conditions. -/

namespace Sys2Proof.Machine

/-! ## The open stream -/

/-- The open stream as the state it is: OUT_VALID and OUT_LEN are cleared where it is new (44_bit_packer.md R191, R192). -/
theorem openStream_eq (s : State) :
    openStream s =
      { s with
        encActive := true
        encStream := streamOf s
        encBits := streamBits s
        outValid := if s.encActive then s.outValid else false
        outLen := if s.encActive then s.outLen else 0 } := by
  unfold streamOf streamBits
  rcases openStream_cases s with ⟨hactive, ho⟩ | ⟨hactive, ho⟩ <;> rw [ho]
  · have hset : ∀ b, s.encActive = b → s = { s with encActive := b } := by rintro _ rfl; rfl
    simp only [hactive, if_true]
    exact hset true hactive
  · simp only [hactive]
    rfl

@[simp] theorem openStream_encStream (s : State) : (openStream s).encStream = streamOf s := (openStream_eqs s).1

@[simp] theorem openStream_encBits (s : State) : (openStream s).encBits = streamBits s := (openStream_eqs s).2.1

/-! ## ENC_SYM -/

theorem exec_encSym {s : State} (hcodes : s.codesValid = true) (x : Sym) :
    exec (.encSym x) s =
      if symGet s.codeLen x = 0 then raiseErr .unknownSymbol (.encSym x) s
      else if s.cfg.outCap < finishedBytes ((streamBits s).toNat + (symGet s.codeLen x).toNat) then
        raiseErr .capacity (.encSym x) s
      else .next (appendCode x (openStream s)) := by
  rw [← openStream_encBits]
  exact sequenced_of_ok (seqOk_iff.2 hcodes)

theorem exec_encSym_of_fits {s : State} (hcodes : s.codesValid = true) {x : Sym} (hx : symGet s.codeLen x ≠ 0)
    (hfit : finishedBytes ((streamBits s).toNat + (symGet s.codeLen x).toNat) ≤ s.cfg.outCap) :
    exec (.encSym x) s = .next (appendCode x (openStream s)) := by
  rw [exec_encSym hcodes, if_neg hx, if_neg (Nat.not_lt.2 hfit)]

/-- The open stream with a code appended, as the state it is (44_bit_packer.md R191). -/
theorem appendCode_openStream (x : Sym) (s : State) :
    appendCode x (openStream s) =
      { openStream s with
        encStream := streamOf s ++ codeOf s.codeLen s.codeVal x
        encBits := BitVec.ofNat 32 ((streamBits s).toNat + (symGet s.codeLen x).toNat) } := by
  rw [openStream_eq]
  rfl

/-- Settles O26: a code that fits is appended to the open stream, and OUT_CAP keeps its length in 32 bits. -/
theorem encSymAppendsTheCode : Obligations.EncSymAppendsTheCode := by
  intro x s hcodes hx hcfg hfit
  obtain ⟨-, -, -, hcap⟩ := wf_bounds hcfg
  refine ⟨_, exec_encSym_of_fits hcodes hx hfit, ?_⟩
  rw [appendCode_openStream, openStream_eq]
  refine ⟨rfl, rfl, ?_, rfl, rfl, rfl⟩
  rw [BitVec.toNat_ofNat]
  exact Nat.mod_eq_of_lt (by omega)

/-- An error of ENC_SYM's body is recorded and the stream is aborted (44_bit_packer.md R194, 60_exceptions.md R252). -/
theorem raiseErr_encSym {e : Err} (he : e = .unknownSymbol ∨ e = .capacity) (x : Sym) (s : State) :
    raiseErr e (.encSym x) s = .next (encodeAbort (errState (errCode e) 0x30 s)) := by
  rcases he with rfl | rfl <;> rw [raiseErr, enterErr, recordErr_eq] <;> rfl

/-- Settles O27: the symbol is looked up first, then the capacity is checked, and either error aborts the stream. -/
theorem encSymErrorsAbortTheStream : Obligations.EncSymErrorsAbortTheStream := by
  intro x s hcodes
  refine ⟨fun hx => ?_, fun hx hfull => ?_⟩
  · rw [exec_encSym hcodes, if_pos hx]
    exact raiseErr_encSym (.inl rfl) x s
  · have hfull : s.cfg.outCap < finishedBytes ((streamBits s).toNat + (symGet s.codeLen x).toNat) := hfull
    rw [exec_encSym hcodes, if_neg hx, if_pos hfull]
    exact raiseErr_encSym (.inr rfl) x s

/-! ## ENC_FINISH -/

theorem exec_encFinish {s : State} (hcodes : s.codesValid = true) :
    exec .encFinish s = .next (finishStream (openStream s)) :=
  sequenced_of_ok (seqOk_iff.2 hcodes)

/-- The ByteBuffer of an EncodedStream: header, codes and padding grouped into bytes (44_bit_packer.md R196, 30_encoding.md
R86). -/
def paddedBytes (e : BitString) : List Byte := bytesOfBits (paddedStream e) (finishedBytes e.length)

@[simp] theorem length_paddedBytes (e : BitString) : (paddedBytes e).length = finishedBytes e.length := length_bytesOfBits _ _

/-- What ENC_FINISH leaves, as the state it is (44_bit_packer.md R195, R196). -/
theorem finishStream_openStream (s : State) :
    finishStream (openStream s) =
      { writeOutBytes s (paddedBytes (streamOf s)) with
        outLen := finishedBytes (streamOf s).length
        pad := BitVec.ofNat 8 (padAmount (streamOf s).length)
        outValid := true
        outKind := false
        encActive := false
        encStream := streamOf s
        encBits := streamBits s } := by
  have hlen : (paddedStream (streamOf s)).length / 8 = finishedBytes (streamOf s).length := by
    rw [length_paddedStream, Nat.mul_div_cancel_left _ (by decide), finishedBytes]
  rw [paddedBytes, ← hlen, openStream_eq]
  rfl

theorem finishStream_openStream_outLen (s : State) :
    (finishStream (openStream s)).outLen = finishedBytes (streamOf s).length := by
  rw [finishStream_openStream]

/-- OUT_MEM after ENC_FINISH: the bytes written below OUT_LEN, the old ones from there up. -/
theorem readOutByte_finishStream (s : State) (k : Nat) :
    readOutByte (finishStream (openStream s)) k =
      if k < finishedBytes (streamOf s).length then byteOfBits (paddedStream (streamOf s)) k else readOutByte s k := by
  have hwrite : readOutByte (finishStream (openStream s)) k = readOutByte (writeOutBytes s (paddedBytes (streamOf s))) k := by
    rw [finishStream_openStream]; rfl
  rw [hwrite, readOutByte_writeOutBytes, length_paddedBytes]
  split
  next hk => simp [paddedBytes, bytesOfBits, hk]
  next => rfl

/-- Settles O28: the fields by what ENC_FINISH leaves, the bytes by what OUT_MEM then holds. -/
theorem encFinishWritesTheByteBuffer : Obligations.EncFinishWritesTheByteBuffer := by
  intro s hcodes
  refine ⟨_, exec_encFinish hcodes, ?_⟩
  have hbyte := readOutByte_finishStream s
  rw [finishStream_openStream] at hbyte ⊢
  refine ⟨rfl, rfl, rfl, rfl, rfl, rfl, rfl, fun k hk => ?_, fun k hk => ?_, rfl⟩
  · rw [hbyte, if_pos hk]; rfl
  · rw [hbyte, if_neg (Nat.not_lt.2 hk)]

/-! ## READ_OUT -/

theorem exec_readOut {s : State} (hvalid : s.outValid = true) (a : BitVec 24) :
    exec (.readOut a) s =
      if s.outLen ≤ a.toNat then raiseErr .badOperand (.readOut a) s
      else .next { s with resp := (readOutByte s a.toNat).setWidth 32 } :=
  sequenced_of_ok (seqOk_iff.2 hvalid)

/-- Settles O30: below OUT_LEN READ_OUT answers the byte, zero-extended. -/
theorem readOutAnswersTheByte : Obligations.ReadOutAnswersTheByte := by
  intro a s hvalid ha
  rw [exec_readOut hvalid, if_neg (Nat.not_le.2 ha), BitVec.ofNat_toNat]

/-- Settles O31: from OUT_LEN up READ_OUT raises an error that has no abort effect. -/
theorem readOutBeyondRaisesBadOperand : Obligations.ReadOutBeyondRaisesBadOperand := by
  intro a s hvalid ha
  rw [exec_readOut hvalid, if_pos ha]
  exact raiseErr_eq_errState (i := .readOut a) (fun _ => nofun) nofun .badOperand s

end Sys2Proof.Machine
end

section
/-! The bytes of a finished stream (44_bit_packer.md R197, 30_encoding.md R86): which bits of the padded stream are the header,
the codes and the padding. -/

namespace Sys2Proof.Machine

/-! ## The padded stream -/

theorem toNat_padHeader (n : Nat) : (BitVec.ofNat 8 (padAmount n)).toNat = padAmount n := by
  obtain ⟨-, hle⟩ := padAmount_bounds n
  rw [BitVec.toNat_ofNat]
  exact Nat.mod_eq_of_lt (by omega)

/-- The first byte of the padded stream is the padding header. -/
theorem byteOfBits_paddedStream_zero (e : BitString) :
    byteOfBits (paddedStream e) 0 = BitVec.ofNat 8 (padAmount e.length) := by
  have hheader : bitSlice (paddedStream e) (8 * 0) (8 * 0 + 8) = bitsOf 8 (padAmount e.length) := by
    rw [paddedStream, List.append_assoc]
    exact List.take_left' (length_bitsOf 8 _)
  obtain ⟨-, hle⟩ := padAmount_bounds e.length
  rw [byteOfBits, hheader, bitsVal_bitsOf, Nat.mod_eq_of_lt (by omega)]

/-- The bits behind the header are the codes. -/
theorem paddedStream_getElem?_code {e : BitString} {i : Nat} (h : i < e.length) :
    (paddedStream e)[8 + i]? = e[i]? := by
  rw [paddedStream, List.append_assoc, List.getElem?_append_right (by simp), length_bitsOf, Nat.add_sub_cancel_left,
    List.getElem?_append_left h]

/-- The bits behind the codes are zeros. -/
theorem paddedStream_getElem?_padding {e : BitString} {i : Nat} (h : 8 + e.length ≤ i) (hi : i < (paddedStream e).length) :
    (paddedStream e)[i]? = some false := by
  have hfront : (bitsOf 8 (padAmount e.length) ++ e).length = 8 + e.length := by rw [List.length_append, length_bitsOf]
  rw [paddedStream, List.length_append, hfront, length_zeros] at hi
  rw [paddedStream, List.getElem?_append_right (hfront ▸ h), hfront, zeros, List.getElem?_replicate, if_pos (by omega)]

/-! ## The facts (a) to (d) -/

/-- Bit `j` of the padded stream is read back from the byte that holds it. -/
theorem finishStream_bit {s : State} {j : Nat} (h : j < 8 * finishedBytes (streamOf s).length) :
    some ((readOutByte (finishStream (openStream s)) (j / 8)).getLsbD (7 - j % 8)) = (paddedStream (streamOf s))[j]? := by
  have hbyte : j / 8 < finishedBytes (streamOf s).length := Nat.div_lt_of_lt_mul h
  have hpadded : (paddedStream (streamOf s)).length = 8 * finishedBytes (streamOf s).length := length_paddedStream _
  rw [readOutByte_finishStream, if_pos hbyte]
  exact byte_bit _ _ (by omega)

/-- Settles O29: the bits of the bytes are those of the padded stream, and ENC_BITS is the length of its codes. -/
theorem finishedStreamFacts : Obligations.FinishedStreamFacts := by
  intro s t hs hcodes ht
  have hbits : t.encBits.toNat = t.encStream.length := (kept_coreInv.exec hs ht).stream.bits
  rw [exec_encFinish hcodes] at ht
  cases ht
  have hpadded : (paddedStream (streamOf s)).length = 8 * finishedBytes (streamOf s).length := length_paddedStream _
  have hbytes : finishedBytes (streamOf s).length = 2 + (streamOf s).length / 8 := rfl
  rw [hbits, finishStream_openStream_outLen, finishStream_pad, finishStream_encStream, openStream_encStream, toNat_padHeader]
  refine ⟨hbytes, ?_, rfl, fun i hlow hhigh => ?_, fun i hi => ?_⟩
  · rw [readOutByte_finishStream, if_pos (by omega), byteOfBits_paddedStream_zero]
  · unfold padAmount at hlow
    have hzero := finishStream_bit hhigh
    rw [paddedStream_getElem?_padding (by omega) (hpadded.symm ▸ hhigh)] at hzero
    exact Option.some.inj hzero
  · have hcode := finishStream_bit (s := s) (j := 8 + i) (by omega)
    rw [paddedStream_getElem?_code hi, Nat.add_mod_left, Nat.add_div_left i (by decide), Nat.add_comm (i / 8)] at hcode
    exact hcode.symm

end Sys2Proof.Machine
end

section
/-! A compression from reset (44_bit_packer.md R190, R198): the counting pass, BUILD_TREE and GEN_CODES leave a table with a code
for every symbol of the sequence, and the ENC_SYMs, where none raises an error, append these codes in order. -/

namespace Sys2Proof.Machine

/-! ## Runs -/

theorem run_cons {i : Instr} {is : List Instr} {s u : State} :
    runCommands (i :: is) s = .next u ↔ ∃ v, exec i s = .next v ∧ runCommands is v = .next u := by
  rw [runCommands]
  cases exec i s <;> simp

theorem run_singleton {i : Instr} {s u : State} : runCommands [i] s = .next u ↔ exec i s = .next u := by
  rw [run_cons]
  simp [runCommands]

/-- An entered error stands in STATUS.ERR (60_exceptions.md R252). -/
theorem enterErr_err_ne_zero (e : Err) (opc : BitVec 8) (cmd : Option Instr) (s : State) : (enterErr e opc cmd s).err ≠ 0 := by
  obtain ⟨-, -, -, -, herr, -⟩ := enterErr_fields e opc cmd s
  rw [herr]
  split
  · exact errCode_ne e
  · assumption

/-- A command that leaves no error recorded has its own effect. -/
theorem effect_of_err_eq_zero {i : Instr} {s t : State} (h : exec i s = .next t) (ht : t.err = 0) : Effect i s t := by
  rcases exec_next h with ⟨e, rfl⟩ | he
  · exact absurd ht (enterErr_err_ne_zero e _ _ s)
  · exact he

/-! ## From reset to the table -/

theorem countAll_frame (t : List Sym) (s : State) :
    { countAll t s with freq := s.freq, total := s.total, nsym := s.nsym } = s := by
  induction t generalizing s with
  | nil => rfl
  | cons x t ih =>
    exact congrArg (fun u : State => { u with freq := s.freq, total := s.total, nsym := s.nsym }) (ih (countSym x s))

/-- A symbol of the counting pass has a count, which the length of the pass keeps in 32 bits. -/
theorem countAll_freq_ne_zero {t : List Sym} {s : State} {x : Sym} (hs : symGet s.freq x = 0) (hx : x ∈ t)
    (hlen : t.length ≤ 2 ^ 32 - 1) : symGet (countAll t s).freq x ≠ 0 := by
  have hpos : 0 < t.count x := List.count_pos_iff.2 hx
  have hle : t.count x ≤ t.length := List.count_le_length
  rw [symGet_countAll_freq, hs]
  intro h
  have hzero := congrArg BitVec.toNat h
  rw [zero_add, BitVec.toNat_ofNat, Nat.mod_eq_of_lt (by omega)] at hzero
  exact absurd hzero hpos.ne'

/-- What a compression has not touched before its first ENC_SYM. -/
def Untouched (c : Config) (s : State) : Prop := s.cfg = c ∧ s.err = 0 ∧ s.encActive = false ∧ s.inLen = 0

/-- A state in which the sequence `t` can be encoded: the invariants hold and every symbol of `t` has a code, and no code
begins another. -/
structure TableReady (t : List Sym) (s : State) : Prop where
  inv        : CoreInv s
  codes      : s.codesValid = true
  coded      : ∀ x ∈ t, symGet s.codeLen x ≠ 0
  prefixFree : PrefixFree s.codeLen s.codeVal

/-- Where a symbol is counted, BUILD_TREE and GEN_CODES give every counted symbol a code (42_tree_builder.md R141,
43_code_table.md R161, R165). -/
theorem exists_tableReady_of_counted {c : Config} {t : List Sym} {s : State} (hs : CoreInv s) (hc : Untouched c s)
    (htree : s.treeValid = false) (hcodes : s.codesValid = false) (hne : t ≠ []) (ht : ∀ x ∈ t, symGet s.freq x ≠ 0) :
    ∃ u, runCommands [.buildTree, .genCodes] s = .next u ∧ TableReady t u ∧ Untouched c u := by
  obtain ⟨x, hx⟩ := List.exists_mem_of_ne_nil t hne
  have hpresent : presentSyms s.freq ≠ [] := List.ne_nil_of_mem (mem_present.2 (ht x hx))
  have hnsym : s.nsym ≠ 0 := hs.counts.nsym ▸ (List.length_pos_iff.2 hpresent).ne'
  obtain ⟨v, hbuild, hvalid, -, -, -, -, hframe⟩ := buildTreeCompletes s htree hcodes hnsym hpresent
  have hv : CoreInv v := kept_coreInv.exec hs hbuild
  have hvcodes : v.codesValid = false := (congrArg State.codesValid hframe).trans hcodes
  have hvfreq : v.freq = s.freq := by rw [← hframe]
  obtain ⟨u, hgen, hucodes, -, hcoded, hframe'⟩ :=
    genCodesGivesTreePaths v hvalid hvcodes hv.counts (hv.tree.present hvalid)
  refine ⟨u, run_cons.2 ⟨v, hbuild, run_singleton.2 hgen⟩, ?_, ?_⟩
  · refine ⟨kept_coreInv.exec hv hgen, hucodes, fun y hy hzero => ?_, builtTableIsPrefixFree v u hvalid hvcodes hgen⟩
    obtain ⟨hpos, -⟩ := hcoded y (hvfreq ▸ ht y hy)
    rw [length_codeOf, hzero] at hpos
    exact absurd hpos (by decide)
  · have hcv : Untouched c v := (congrArg (Untouched c) hframe).mpr hc
    exact (congrArg (Untouched c) hframe').mpr hcv

/-- The counting pass, BUILD_TREE and GEN_CODES from reset, for every sequence that TOTAL has room for. -/
theorem exists_tableReady {c : Config} (hc : c.wf = true) (k : Nat) {t : List Sym} (hne : t ≠ [])
    (hlen : t.length ≤ 2 ^ 32 - 1) :
    ∃ s, runCommands (t.map .count ++ [.buildTree, .genCodes]) (State.resetAt c k) = .next s ∧ TableReady t s ∧
      Untouched c s := by
  have hroom : (State.resetAt c k).total.toNat + t.length ≤ 2 ^ 32 - 1 := by
    show 0 + t.length ≤ 2 ^ 32 - 1
    rwa [Nat.zero_add]
  have hcount := runCommands_map_count (s := State.resetAt c k) rfl rfl hroom
  have hframe := countAll_frame t (State.resetAt c k)
  have hfresh : Untouched c (State.resetAt c k) := ⟨rfl, rfl, rfl, rfl⟩
  obtain ⟨s, hrun, hs⟩ := exists_tableReady_of_counted (kept_coreInv.run (coreInv_resetAt hc k) hcount)
    ((congrArg (Untouched c) hframe).mpr hfresh) (congrArg State.treeValid hframe) (congrArg State.codesValid hframe) hne
    fun x hx => countAll_freq_ne_zero (symGet_replicate 0 x) hx hlen
  exact ⟨s, (run_append _ _ _ _).2 ⟨_, hcount, hrun⟩, hs⟩

/-! ## The encoding pass -/

/-- The state after the codes of a list of symbols have been appended, in order. -/
def encodeSyms (t : List Sym) (s : State) : State := t.foldl (fun s x => appendCode x (openStream s)) s

@[simp] theorem encodeSyms_nil (s : State) : encodeSyms [] s = s := rfl

@[simp] theorem encodeSyms_cons (x : Sym) (t : List Sym) (s : State) :
    encodeSyms (x :: t) s = encodeSyms t (appendCode x (openStream s)) := rfl

theorem appendCode_openStream_same {p : Part} (hp : p ∉ [Part.stream, .output]) (x : Sym) (s : State) :
    Same p s (appendCode x (openStream s)) :=
  (openStream_same hp s).trans (appendCode_same hp x _)

theorem encodeSyms_same {p : Part} (hp : p ∉ [Part.stream, .output]) (t : List Sym) (s : State) :
    Same p s (encodeSyms t s) := by
  induction t generalizing s with
  | nil => exact .refl p s
  | cons x t ih => exact (appendCode_openStream_same hp x s).trans (ih _)

@[simp] theorem encodeSyms_cfg (t : List Sym) (s : State) : (encodeSyms t s).cfg = s.cfg := by
  induction t generalizing s with
  | nil => rfl
  | cons x t ih => rw [encodeSyms_cons, ih, appendCode_cfg, openStream_cfg]

theorem streamOf_appendCode (x : Sym) (s : State) :
    streamOf (appendCode x (openStream s)) = streamOf s ++ codeOf s.codeLen s.codeVal x := by
  rw [appendCode_openStream, openStream_eq]
  rfl

/-- The encoding pass appends the concatenated codes to the stream (44_bit_packer.md R190 (a)). -/
theorem streamOf_encodeSyms (t : List Sym) (s : State) :
    streamOf (encodeSyms t s) = streamOf s ++ encodeAll s.codeLen s.codeVal t := by
  induction t generalizing s with
  | nil => simp [encodeAll]
  | cons x t ih =>
    obtain ⟨-, hlen, hval⟩ := appendCode_openStream_same (p := .table) (by simp) x s
    rw [encodeSyms_cons, ih, streamOf_appendCode, hlen, hval, List.append_assoc]
    rfl

/-- ENC_BITS of the open stream is its length (10_state.md R31). -/
theorem CoreInv.streamBits_toNat {s : State} (hs : CoreInv s) : (streamBits s).toNat = (streamOf s).length := by
  rw [← openStream_encBits, ← openStream_encStream]
  exact (hs.stream.openStream hs.cfg).bits

theorem finishedBytes_mono {m n : Nat} (h : m ≤ n) : finishedBytes m ≤ finishedBytes n :=
  Nat.add_le_add_left (Nat.div_le_div_right h) 2

/-- A run of ENC_SYMs of symbols with a code, whose finished stream fits OUT_MEM, appends the codes (44_bit_packer.md R190,
R193). -/
theorem runCommands_map_encSym {t : List Sym} {s : State} (hs : CoreInv s) (hcodes : s.codesValid = true)
    (hcoded : ∀ x ∈ t, symGet s.codeLen x ≠ 0)
    (hfit : finishedBytes (streamOf s ++ encodeAll s.codeLen s.codeVal t).length ≤ s.cfg.outCap) :
    runCommands (t.map .encSym) s = .next (encodeSyms t s) := by
  induction t generalizing s with
  | nil => rfl
  | cons x t ih =>
    have hconcat : streamOf s ++ encodeAll s.codeLen s.codeVal (x :: t) =
        streamOf s ++ codeOf s.codeLen s.codeVal x ++ encodeAll s.codeLen s.codeVal t := by
      rw [List.append_assoc]; rfl
    rw [hconcat] at hfit
    have hhead : finishedBytes ((streamBits s).toNat + (symGet s.codeLen x).toNat) ≤ s.cfg.outCap := by
      refine (finishedBytes_mono ?_).trans hfit
      rw [hs.streamBits_toNat, List.length_append, List.length_append, length_codeOf]
      exact Nat.le_add_right _ _
    have hexec := exec_encSym_of_fits hcodes (hcoded x List.mem_cons_self) hhead
    obtain ⟨hvalid, hlen, hval⟩ := appendCode_openStream_same (p := .table) (by simp) x s
    refine run_cons.2 ⟨_, hexec, ih (kept_coreInv.exec hs hexec) (hvalid.trans hcodes) (fun y hy => ?_) ?_⟩
    · rw [hlen]
      exact hcoded y (List.mem_cons_of_mem x hy)
    · rw [streamOf_appendCode, hlen, hval, appendCode_cfg, openStream_cfg]
      exact hfit

/-- A run of ENC_SYMs that leaves no error recorded has appended the codes. -/
theorem encodeSyms_of_runCommands {t : List Sym} {s u : State} (h : runCommands (t.map .encSym) s = .next u) (hu : u.err = 0) :
    u = encodeSyms t s := by
  induction t generalizing s with
  | nil => cases h; rfl
  | cons x t ih =>
    obtain ⟨v, hexec, hrun⟩ := run_cons.1 h
    have hv : u = encodeSyms t v := ih hrun
    have herr : u.err = v.err := by
      rw [hv]
      exact (encodeSyms_same (p := .error) (by simp) t v).1
    obtain ⟨-, -, -, rfl⟩ := effect_of_err_eq_zero hexec (herr ▸ hu)
    exact hv

/-! ## The whole compression -/

/-- The state after the codes of a sequence have been appended and the stream has been finished. -/
def compressed (t : List Sym) (s : State) : State := finishStream (openStream (encodeSyms t s))

theorem compressed_same {p : Part} (hp : p ∉ [Part.stream, .output]) (t : List Sym) (s : State) : Same p s (compressed t s) :=
  (encodeSyms_same hp t s).trans ((openStream_same hp _).trans (finishStream_same hp _))

@[simp] theorem compressed_cfg (t : List Sym) (s : State) : (compressed t s).cfg = s.cfg := by
  rw [compressed, finishStream_cfg, openStream_cfg, encodeSyms_cfg]

/-- With no stream open the codes of the sequence are the whole stream. -/
theorem streamOf_encodeSyms_of_idle {s : State} (hidle : s.encActive = false) (t : List Sym) :
    streamOf (encodeSyms t s) = encodeAll s.codeLen s.codeVal t := by
  rw [streamOf_encodeSyms, streamOf, hidle]
  rfl

theorem compressed_encStream {s : State} (hidle : s.encActive = false) (t : List Sym) :
    (compressed t s).encStream = encodeAll s.codeLen s.codeVal t := by
  rw [compressed, finishStream_encStream, openStream_encStream, streamOf_encodeSyms_of_idle hidle]

/-- A compression that leaves no error recorded has appended the codes of its sequence and finished the stream. -/
theorem compressed_of_compressCommands {c : Config} (hc : c.wf = true) {k : Nat} {t : List Sym} (hne : t ≠ [])
    (hlen : t.length ≤ 2 ^ 32 - 1) {u : State} (h : runCommands (compressCommands t) (State.resetAt c k) = .next u)
    (hu : u.err = 0) : ∃ s, TableReady t s ∧ Untouched c s ∧ u = compressed t s := by
  obtain ⟨s, hrun, hs, huntouched⟩ := exists_tableReady hc k hne hlen
  obtain ⟨v, hv, hfinish⟩ := (run_append _ _ _ _).1 h
  obtain ⟨r, hr, henc⟩ := (run_append _ _ _ _).1 hv
  rw [hrun] at hr
  cases hr
  obtain ⟨-, rfl⟩ := effect_of_err_eq_zero (run_singleton.1 hfinish) hu
  rw [finishStream_err, openStream_err] at hu
  exact ⟨s, hs, huntouched, by rw [compressed, encodeSyms_of_runCommands henc hu]⟩

/-- Codes have at most 255 bits (10_state.md R39). -/
theorem length_encodeAll_le (len : Vector (BitVec 8) 256) (val : Vector (BitVec 256) 256) (t : List Sym) :
    (encodeAll len val t).length ≤ 255 * t.length := by
  induction t with
  | nil => exact Nat.zero_le _
  | cons x t ih =>
    have hx := (symGet len x).isLt
    have hcons : encodeAll len val (x :: t) = codeOf len val x ++ encodeAll len val t := rfl
    rw [hcons, List.length_append, length_codeOf, List.length_cons]
    omega

/-- Settles O41: the bound leaves room for the counts in TOTAL and for codes of 255 bits in OUT_MEM. -/
theorem compressionCompletes : Obligations.CompressionCompletes := by
  intro c k t hc hne hbound
  obtain ⟨-, -, -, hcap⟩ := wf_bounds hc
  obtain ⟨s, hrun, hs, hcfg, herr, hidle, -⟩ := exists_tableReady hc k hne (by omega)
  have hfit : finishedBytes (streamOf s ++ encodeAll s.codeLen s.codeVal t).length ≤ s.cfg.outCap := by
    rw [← streamOf_encodeSyms, streamOf_encodeSyms_of_idle hidle, hcfg]
    exact (finishedBytes_mono (length_encodeAll_le _ _ t)).trans hbound
  have henc := runCommands_map_encSym hs.inv hs.codes hs.coded hfit
  have hvalid : (encodeSyms t s).codesValid = s.codesValid := (encodeSyms_same (p := .table) (by simp) t s).1
  have hfinish : runCommands [.encFinish] (encodeSyms t s) = .next (compressed t s) :=
    run_singleton.2 (exec_encFinish (hvalid.trans hs.codes))
  obtain ⟨-, hlen, hval⟩ := compressed_same (p := .table) (by simp) t s
  obtain ⟨herr', -⟩ := compressed_same (p := .error) (by simp) t s
  have hencoded := (run_append _ _ _ _).2 ⟨s, hrun, henc⟩
  refine ⟨compressed t s, (run_append _ _ _ _).2 ⟨_, hencoded, hfinish⟩, herr'.trans herr, rfl, ?_⟩
  rw [compressed_encStream hidle, hlen, hval]

end Sys2Proof.Machine
end

section
/-! The round trip (44_bit_packer.md R198): the bytes of a finished stream, pushed into IN_MEM, are the codes behind their header,
and the scan of DECODE emits their symbols. -/

namespace Sys2Proof.Machine

/-! ## Pushing bytes -/

/-- What IN_PUSH leaves where there is room (45_bit_unpacker.md R221). -/
def pushByte (b : Byte) (s : State) : State := { writeIn s s.inLen b with inLen := s.inLen + 1 }

theorem exec_inPush_of_room {s : State} (hroom : s.inLen ≠ s.cfg.inCap) (b : Byte) :
    exec (.inPush b) s = .next (pushByte b s) := by
  calc exec (.inPush b) s
      = if s.inLen = s.cfg.inCap then raiseErr .capacity (.inPush b) s else .next (pushByte b s) :=
        sequenced_of_ok (i := .inPush b) (s := s) rfl
    _ = .next (pushByte b s) := if_neg hroom

/-- The state after the bytes of a list have been pushed, in order. -/
def pushAll (bs : List Byte) (s : State) : State := bs.foldl (fun s b => pushByte b s) s

@[simp] theorem pushAll_nil (s : State) : pushAll [] s = s := rfl

@[simp] theorem pushAll_cons (b : Byte) (bs : List Byte) (s : State) : pushAll (b :: bs) s = pushAll bs (pushByte b s) := rfl

theorem pushByte_same {p : Part} (hp : p ≠ .input) (b : Byte) (s : State) : Same p s (pushByte b s) := by
  cases p <;> simp [Same, pushByte, writeIn] at hp ⊢

theorem pushAll_same {p : Part} (hp : p ≠ .input) (bs : List Byte) (s : State) : Same p s (pushAll bs s) := by
  induction bs generalizing s with
  | nil => exact .refl p s
  | cons b bs ih => exact (pushByte_same hp b s).trans (ih _)

@[simp] theorem pushAll_cfg (bs : List Byte) (s : State) : (pushAll bs s).cfg = s.cfg := by
  induction bs generalizing s with
  | nil => rfl
  | cons b bs ih => exact ih (pushByte b s)

/-- A run of IN_PUSHes that IN_MEM has room for pushes its bytes. -/
theorem runCommands_map_inPush {bs : List Byte} {s : State} (hroom : s.inLen + bs.length ≤ s.cfg.inCap) :
    runCommands (bs.map .inPush) s = .next (pushAll bs s) := by
  induction bs generalizing s with
  | nil => rfl
  | cons b bs ih =>
    rw [List.length_cons] at hroom
    have hnext : (pushByte b s).inLen + bs.length ≤ (pushByte b s).cfg.inCap := by
      show s.inLen + 1 + bs.length ≤ s.cfg.inCap
      omega
    exact run_cons.2 ⟨_, exec_inPush_of_room (by omega) b, ih hnext⟩

theorem inputBytes_pushByte (b : Byte) (s : State) : inputBytes (pushByte b s) = inputBytes s ++ [b] := by
  have hbelow : ∀ a ∈ List.range s.inLen, readIn (pushByte b s) a = readIn s a := fun a ha =>
    readIn_writeIn_ne s b (List.mem_range.1 ha).ne
  have hlast : readIn (pushByte b s) s.inLen = b := readIn_writeIn s s.inLen b
  have hrange : inputBytes (pushByte b s) = (List.range (s.inLen + 1)).map (readIn (pushByte b s)) := rfl
  rw [hrange, List.range_succ, List.map_append, List.map_congr_left hbelow, List.map_singleton, hlast]
  rfl

theorem inputBytes_pushAll (bs : List Byte) (s : State) : inputBytes (pushAll bs s) = inputBytes s ++ bs := by
  induction bs generalizing s with
  | nil => rw [pushAll_nil, List.append_nil]
  | cons b bs ih => rw [pushAll_cons, ih, inputBytes_pushByte, List.append_assoc, List.singleton_append]

@[simp] theorem length_inputBytes (s : State) : (inputBytes s).length = s.inLen := by simp [inputBytes]

/-! ## Output bytes -/

/-- Bytes written from index 0, with OUT_LEN their number, are OUT_MEM[0..OUT_LEN). -/
theorem outputBytes_of_write {s t : State} (vs : List Byte) (hlen : t.outLen = vs.length)
    (hread : ∀ a, readOutByte t a = readOutByte (writeOutBytes s vs) a) : outputBytes t = vs := by
  refine List.ext_getElem (by simp [outputBytes, hlen]) fun a _ ha => ?_
  simp [outputBytes, hread, readOutByte_writeOutBytes, ha]

theorem outputBytes_finishStream (s : State) : outputBytes (finishStream (openStream s)) = paddedBytes (streamOf s) := by
  rw [finishStream_openStream]
  exact outputBytes_of_write (s := s) _ (length_paddedBytes _).symm fun _ => rfl

theorem outputBytes_storeDecoded (out : List Sym) (header : Byte) (s : State) : outputBytes (storeDecoded out header s) = out :=
  outputBytes_of_write (s := s) out rfl fun _ => rfl

/-! ## Decoding a ByteBuffer -/

/-- Without header and padding the padded stream is the codes. -/
theorem bitSlice_paddedStream (e : BitString) :
    bitSlice (paddedStream e) 8 ((paddedStream e).length - padAmount e.length) = e := by
  have hdrop : (paddedStream e).drop 8 = e ++ zeros (padAmount e.length) := by
    rw [paddedStream, List.append_assoc]
    exact List.drop_left' (length_bitsOf 8 _)
  have hlen : (paddedStream e).length - padAmount e.length - 8 = e.length := by
    rw [paddedStream, List.length_append, List.length_append, length_bitsOf, length_zeros]
    omega
  rw [bitSlice, hdrop, hlen, List.take_left]

section
variable {s : State} {e : BitString} (h : inputBytes s = paddedBytes e)
include h

theorem inLen_of_paddedBytes : s.inLen = finishedBytes e.length := by
  rw [← length_inputBytes, h, length_paddedBytes]

/-- The header that DECODE reads is the padding amount. -/
theorem readIn_zero_of_paddedBytes : (readIn s 0).toNat = padAmount e.length := by
  have hpos : 0 < finishedBytes e.length := Nat.add_pos_left (by decide) _
  have hfirst := congrArg (fun bs : List Byte => bs[0]?) h
  simp only [inputBytes, paddedBytes, bytesOfBits, inLen_of_paddedBytes h, List.getElem?_map, List.getElem?_range hpos,
    Option.map_some, Option.some.injEq] at hfirst
  rw [hfirst, byteOfBits_paddedStream_zero, toNat_padHeader]

/-- The payload that DECODE scans is the codes (45_bit_unpacker.md R224). -/
theorem payloadBits_of_paddedBytes : payloadBits s = e := by
  have hlen : (paddedStream e).length = 8 * finishedBytes e.length := length_paddedStream e
  have hbits : inputBits s = paddedStream e := by
    rw [inputBits, h, paddedBytes, bitsOfBytes_bytesOfBits _ _ hlen.ge, ← hlen, List.take_length]
  rw [payloadBits, hbits, inLen_of_paddedBytes h, readIn_zero_of_paddedBytes h, ← hlen, bitSlice_paddedStream]

end

theorem exec_decode_of_scanBits {s : State} {out : List Sym} (hcodes : s.codesValid = true) (hidle : s.encActive = false)
    (hne : s.inLen ≠ 0) (hpad : (readIn s 0).toNat ≤ 8 * s.inLen - 8)
    (hscan : scanBits (matchCode s.codeLen s.codeVal) s.cfg.outCap (payloadBits s) [] [] = .ok out) :
    exec .decode s = .next (storeDecoded out (readIn s 0) s) := by
  have hbody : exec .decode s = _ := sequenced_of_ok (seqOk_iff.2 ⟨hcodes, hidle⟩)
  rw [hbody, if_neg hne, if_neg (Nat.not_lt.2 hpad), hscan]

/-- DECODE of the ByteBuffer of a sequence's codes emits the sequence, where it fits OUT_MEM (45_bit_unpacker.md R225). -/
theorem exec_decode_paddedBytes {s : State} {t : List Sym} (hs : TableReady t s) (hidle : s.encActive = false)
    (hcap : t.length ≤ s.cfg.outCap) (h : inputBytes s = paddedBytes (encodeAll s.codeLen s.codeVal t)) :
    exec .decode s = .next (storeDecoded t (readIn s 0) s) := by
  have hlen := inLen_of_paddedBytes h
  rw [finishedBytes] at hlen
  obtain ⟨-, hpad⟩ := padAmount_bounds (encodeAll s.codeLen s.codeVal t).length
  refine exec_decode_of_scanBits hs.codes hidle (by omega) ?_ ?_
  · rw [readIn_zero_of_paddedBytes h]
    omega
  · have hscan := scanBits_encodeAll hs.inv.codes hs.prefixFree s.cfg.outCap t hs.coded [] [] (by simpa using hcap)
    rw [payloadBits_of_paddedBytes h, ← List.append_nil (encodeAll _ _ t), hscan]
    rfl

/-! ## The round trip -/

/-- A ready table stays ready where the invariants hold and the table is the same. -/
theorem TableReady.congr {t : List Sym} {s u : State} (hs : TableReady t s) (hu : CoreInv u) (h : Same .table s u) :
    TableReady t u := by
  obtain ⟨hvalid, hlen, hval⟩ := h
  refine ⟨hu, hvalid.trans hs.codes, ?_, ?_⟩
  · rw [hlen]; exact hs.coded
  · rw [hlen, hval]; exact hs.prefixFree

/-- The ByteBuffer of a sequence's codes, pushed into an empty IN_MEM and decoded with the table that is ready, gives the sequence
(44_bit_packer.md R198). -/
theorem exists_decompressed {s : State} {t : List Sym} (hs : TableReady t s) (hidle : s.encActive = false) (hempty : s.inLen = 0)
    (hcap : t.length ≤ s.cfg.outCap) (hroom : (paddedBytes (encodeAll s.codeLen s.codeVal t)).length ≤ s.cfg.inCap) :
    ∃ u, runCommands (decompressCommands (paddedBytes (encodeAll s.codeLen s.codeVal t))) s = .next u ∧ u.err = s.err ∧
      u.outValid = true ∧ outputBytes u = t := by
  generalize hbs : paddedBytes (encodeAll s.codeLen s.codeVal t) = bs at hroom ⊢
  have hpush : runCommands (bs.map .inPush) s = .next (pushAll bs s) :=
    runCommands_map_inPush (by rwa [hempty, Nat.zero_add])
  obtain ⟨herr, -⟩ := pushAll_same (p := .error) (by simp) bs s
  obtain ⟨hactive, -⟩ := pushAll_same (p := .stream) (by simp) bs s
  have htable : Same .table s (pushAll bs s) := pushAll_same (by simp) bs s
  have ⟨_, hlen, hval⟩ := htable
  have hinput : inputBytes (pushAll bs s) = bs := by
    rw [inputBytes_pushAll, inputBytes, hempty]
    rfl
  have hdecode : exec .decode (pushAll bs s) = .next (storeDecoded t (readIn (pushAll bs s) 0) (pushAll bs s)) := by
    refine exec_decode_paddedBytes (hs.congr (kept_coreInv.run hs.inv hpush) htable) (hactive.trans hidle) ?_ ?_
    · rwa [pushAll_cfg]
    · rw [hinput, hlen, hval, hbs]
  exact ⟨_, (run_append _ _ _ _).2 ⟨_, hpush, run_singleton.2 hdecode⟩, herr, rfl,
    outputBytes_storeDecoded t _ _⟩

/-- Settles O40: what the compression leaves is the ByteBuffer of the concatenated codes and the table that decodes it. -/
theorem roundTripRestoresTheSymbols : Obligations.RoundTripRestoresTheSymbols := by
  intro c k t u hc hne hcap hrun herr hfit
  have hinv : CoreInv u := kept_coreInv.run (coreInv_resetAt hc k) hrun
  obtain ⟨-, -, -, hbound⟩ := wf_bounds hc
  obtain ⟨s, hs, ⟨hcfg, -, hidle, hempty⟩, rfl⟩ := compressed_of_compressCommands hc hne (by omega) hrun herr
  have htable : Same .table s (compressed t s) := compressed_same (by simp) t s
  obtain ⟨hinLen, -⟩ := compressed_same (p := .input) (by simp) t s
  have hcfg' : (compressed t s).cfg = c := (compressed_cfg t s).trans hcfg
  have hout : outputBytes (compressed t s) =
      paddedBytes (encodeAll (compressed t s).codeLen (compressed t s).codeVal t) := by
    obtain ⟨-, hlen, hval⟩ := htable
    rw [hlen, hval, ← streamOf_encodeSyms_of_idle hidle]
    exact outputBytes_finishStream _
  obtain ⟨u, hdecode, hu, hvalid, hsyms⟩ := exists_decompressed (hs.congr hinv htable) rfl (hinLen.trans hempty)
    (by rwa [hcfg']) (by rwa [hcfg', ← hout, outputBytes, List.length_map, List.length_range])
  exact ⟨u, hout ▸ hdecode, hu.trans herr, hvalid, hsyms⟩

end Sys2Proof.Machine
end

section
/-! The bit unpacker's commands (45_bit_unpacker.md): what IN_PUSH and IN_CLEAR leave of the input buffer, the early stop of the
scan, and what DECODE answers for each outcome of its header and its scan. -/

namespace Sys2Proof.Machine

/-! ## The input buffer -/

theorem exec_inPush_of_full {s : State} (hfull : s.inLen = s.cfg.inCap) (b : Byte) :
    exec (.inPush b) s = raiseErr .capacity (.inPush b) s :=
  (sequenced_of_ok (i := .inPush b) (s := s) rfl).trans (if_pos hfull)

theorem exec_inClear (s : State) : exec .inClear s = .next { s with inLen := 0, inMem := [] } :=
  sequenced_of_ok (i := .inClear) (s := s) rfl

/-- Settles O32: with room IN_PUSH is one write to IN_MEM, at IN_LEN. -/
theorem inPushAppendsTheByte : Obligations.InPushAppendsTheByte := fun b s hroom =>
  ⟨pushByte b s, exec_inPush_of_room hroom b, rfl, readIn_writeIn s s.inLen b, fun _ ha => readIn_writeIn_ne s b ha, rfl⟩

/-- Settles O33: at IN_CAP IN_PUSH raises an error that has no abort effect. -/
theorem inPushFullRaisesCapacity : Obligations.InPushFullRaisesCapacity := by
  intro b s hfull
  rw [exec_inPush_of_full hfull]
  exact raiseErr_eq_errState (i := .inPush b) (fun _ => nofun) nofun .capacity s

/-- Settles O34: IN_CLEAR has no condition, and its body writes the input buffer alone. -/
theorem inClearEmptiesTheBuffer : Obligations.InClearEmptiesTheBuffer := fun s => ⟨_, exec_inClear s, rfl, rfl⟩

/-! ## The early stop -/

section
variable {look : BitString → Option Sym} {longest : Nat} (hlong : ∀ c, longest < c.length → look c = none)
include hlong

/-- A candidate longer than every code is never completed: it is left over (45_bit_unpacker.md R227). -/
theorem scanBits_of_long {c : BitString} (hc : longest < c.length) (cap : Nat) (y : BitString) (out : List Sym) :
    scanBits look cap y c out = .error .corruptLeftover := by
  have hnone : ∀ q, q ≠ [] → q <+: y → look (c ++ q) = none := fun q _ _ =>
    hlong _ (by rw [List.length_append]; omega)
  have hne : c ++ y ≠ [] := fun h => by simp [(List.append_eq_nil_iff.1 h).1] at hc
  calc scanBits look cap y c out
      = scanBits look cap (y ++ []) c out := by rw [List.append_nil]
    _ = scanBits look cap [] (c ++ y) out := scanBits_collect y [] c out hnone
    _ = .error .corruptLeftover := if_neg hne

/-- Where no candidate longer than `longest` matches, giving up on such a candidate changes no outcome. -/
theorem scanEarly_eq_scanBits (cap : Nat) (y c : BitString) (out : List Sym) :
    scanEarly look cap longest y c out = scanBits look cap y c out := by
  induction y generalizing c out with
  | nil => rfl
  | cons b y ih =>
    rw [scanEarly, scanBits]
    cases look (c ++ [b]) with
    | some x => simp only [ih]
    | none =>
      have hlen : (c ++ [b]).length = c.length + 1 := by simp
      by_cases hstop : longest < c.length + 1
      · simp only [if_pos hstop, scanBits_of_long hlong (hlen ▸ hstop)]
      · simp only [if_neg hstop, ih]

end

/-- Settles O36: no candidate longer than the longest code matches. -/
theorem earlyStopIsAllowed : Obligations.EarlyStopIsAllowed := fun _ cap y =>
  scanEarly_eq_scanBits (fun _ hc => match_long hc) cap y [] []

/-! ## DECODE -/

theorem exec_decode_of_bad_header {s : State} (hcodes : s.codesValid = true) (hidle : s.encActive = false)
    (hbad : s.inLen = 0 ∨ 8 * s.inLen - 8 < (readIn s 0).toNat) :
    exec .decode s = raiseErr .corruptPadding .decode s := by
  have hbody : exec .decode s = _ := sequenced_of_ok (seqOk_iff.2 ⟨hcodes, hidle⟩)
  rw [hbody]
  rcases hbad with hempty | hpad
  · rw [if_pos hempty]
  · rw [if_pos hpad]; exact ite_self _

theorem exec_decode_of_scanBits_error {s : State} {e : Err} (hcodes : s.codesValid = true) (hidle : s.encActive = false)
    (hne : s.inLen ≠ 0) (hpad : (readIn s 0).toNat ≤ 8 * s.inLen - 8)
    (hscan : scanBits (matchCode s.codeLen s.codeVal) s.cfg.outCap (payloadBits s) [] [] = .error e) :
    exec .decode s = raiseErr e .decode s := by
  have hbody : exec .decode s = _ := sequenced_of_ok (seqOk_iff.2 ⟨hcodes, hidle⟩)
  rw [hbody, if_neg hne, if_neg (Nat.not_lt.2 hpad), hscan]

/-- An error of DECODE's body is recorded and the output is closed, its bytes forgotten (45_bit_unpacker.md R226, 60_exceptions.md
R252). -/
theorem raiseErr_decode {e : Err} (he : e = .capacity ∨ e = .corruptPadding ∨ e = .corruptLeftover) (s : State) :
    raiseErr e .decode s = .next (decodeAbort (errState (errCode e) 0x50 s)) := by
  rcases he with rfl | rfl | rfl <;> rw [raiseErr, enterErr, recordErr_eq] <;> rfl

/-- The scan's outcome for a payload, read off its greedy parse (45_bit_unpacker.md R225). -/
theorem GreedyParse.scanBits_nil {look : BitString → Option Sym} {y rest : BitString} {xs : List Sym}
    (h : GreedyParse look y xs rest) (cap : Nat) :
    Machine.scanBits look cap y [] [] =
      if cap < xs.length then .error .capacity else if rest = [] then .ok xs else .error .corruptLeftover := by
  obtain ⟨-, hscan⟩ := scanIsTheGreedyParse
  exact (hscan look cap y).2 xs rest h

/-- OUT_MEM after a successful DECODE: the symbols below OUT_LEN, the old bytes from there up. -/
theorem readOutByte_storeDecoded (out : List Sym) (header : Byte) (s : State) (k : Nat) :
    readOutByte (storeDecoded out header s) k = if k < out.length then out.getD k 0 else readOutByte s k :=
  readOutByte_writeOutBytes s out k

/-- Settles O37: the scan answers the symbols of the parse, and DECODE writes them from index 0. -/
theorem decodeWritesTheSymbols : Obligations.DecodeWritesTheSymbols := by
  intro s xs hcodes hidle hne hpad hparse hcap
  have hscan : scanBits (matchCode s.codeLen s.codeVal) s.cfg.outCap (payloadBits s) [] [] = .ok xs := by
    rw [payloadBits, inputBits, inputBytes, hparse.scanBits_nil, if_neg (Nat.not_lt.2 hcap), if_pos rfl]
  refine ⟨storeDecoded xs (readIn s 0) s, exec_decode_of_scanBits hcodes hidle hne hpad hscan, rfl, rfl, rfl, rfl,
    fun k hk => ?_, fun k hk => ?_, rfl⟩
  · rw [readOutByte_storeDecoded, if_pos hk, List.getD_eq_getElem _ _ hk, List.getElem?_eq_getElem hk]
  · rw [readOutByte_storeDecoded, if_neg (Nat.not_lt.2 hk)]

/-- Settles O38: both bad headers raise CORRUPT_PADDING, which closes the output. -/
theorem decodePaddingErrorAborts : Obligations.DecodePaddingErrorAborts := by
  intro s hcodes hidle hbad
  rw [exec_decode_of_bad_header hcodes hidle hbad, raiseErr_decode (.inr (.inl rfl))]
  exact ⟨_, rfl, rfl⟩

/-- Settles O39: the scan raises CAPACITY where the parse has too many symbols, and else CORRUPT_LEFTOVER for its leftover bits;
either closes the output. -/
theorem decodeScanErrorAborts : Obligations.DecodeScanErrorAborts := by
  intro s xs rest hcodes hidle hne hpad hparse hbad
  have hscan : scanBits (matchCode s.codeLen s.codeVal) s.cfg.outCap (payloadBits s) [] [] = _ :=
    hparse.scanBits_nil s.cfg.outCap
  by_cases hfull : s.cfg.outCap < xs.length
  · rw [if_pos hfull] at hscan ⊢
    rw [exec_decode_of_scanBits_error hcodes hidle hne hpad hscan, raiseErr_decode (.inl rfl)]
    exact ⟨_, rfl, rfl⟩
  · rw [if_neg hfull, if_neg (hbad.resolve_left hfull)] at hscan
    rw [if_neg hfull, exec_decode_of_scanBits_error hcodes hidle hne hpad hscan, raiseErr_decode (.inr (.inr rfl))]
    exact ⟨_, rfl, rfl⟩

end Sys2Proof.Machine
end

section
/-! The error state (60_exceptions.md): what a failing command changes, and what becomes of a recorded error. -/

namespace Sys2Proof.Machine

/-! ## A failing command -/

/-- Where no error is recorded, entering one replaces the two STATUS fields (60_exceptions.md R251, R252). -/
theorem errState_of_noErr {s : State} (h : s.err = 0) (code : BitVec 4) (opc : BitVec 8) :
    errState code opc s = { s with err := code, errOpc := opc } := by
  simp only [errState, if_pos h]

/-- CLEAR and ERR_CLEAR write STATUS.ERR (60_exceptions.md R255). -/
theorem error_mem_writes {i : Instr} : Part.error ∈ writes i ↔ i = .clear ∨ i = .errClear := by
  cases i <;> simp [writes]

/-- A command that writes STATUS.ERR clears it (60_exceptions.md R255). -/
theorem Effect.clears_error {i : Instr} {s t : State} (h : Effect i s t) (hi : Part.error ∈ writes i) :
    t.err = 0 ∧ t.errOpc = 0 := by
  rcases error_mem_writes.1 hi with rfl | rfl
  · have ht : t = resetCore s := h
    rw [ht]; exact ⟨rfl, rfl⟩
  · have ht : t = leaveErr s := h
    rw [ht]; exact ⟨rfl, rfl⟩

/-- A command's own effect records no error. -/
theorem Effect.err_eq_zero {i : Instr} {s t : State} (h : Effect i s t) (hs : s.err = 0) : t.err = 0 := by
  by_cases hi : Part.error ∈ writes i
  · exact (h.clears_error hi).1
  · obtain ⟨herr, -⟩ : Same .error s t := h.same hi
    rw [herr, hs]

/-- A command that records an error has entered it. -/
theorem enterErr_of_err_ne_zero {i : Instr} {s t : State} (h : exec i s = .next t) (hs : s.err = 0) (ht : t.err ≠ 0) :
    ∃ e, t = enterErr e (opcodeOf i) (some i) s :=
  (exec_next h).resolve_right fun he => ht (he.err_eq_zero hs)

/-- The errors of ENC_SYM's body are UNKNOWN_SYMBOL and CAPACITY, and both abort the stream (44_bit_packer.md R194). -/
theorem encSym_failure {x : Sym} {s t : State} (hcodes : s.codesValid = true) (h : exec (.encSym x) s = .next t)
    (hs : s.err = 0) (ht : t.err ≠ 0) : ∃ code, (code = 6 ∨ code = 7) ∧ t = encodeAbort (errState code 0x30 s) := by
  rw [exec_encSym hcodes] at h
  split at h
  · rw [raiseErr_encSym (.inl rfl)] at h; cases h
    exact ⟨6, .inl rfl, rfl⟩
  · split at h
    · rw [raiseErr_encSym (.inr rfl)] at h; cases h
      exact ⟨7, .inr rfl, rfl⟩
    · cases h
      exact absurd ((openStream_err s).trans hs) ht

/-- The errors of DECODE's body are CAPACITY, CORRUPT_PADDING and CORRUPT_LEFTOVER, and each closes the output
(45_bit_unpacker.md R226). -/
theorem decode_failure {s t : State} (hcond : SeqCond .decode s) (h : exec .decode s = .next t)
    (hs : s.err = 0) (ht : t.err ≠ 0) :
    ∃ code, (code = 7 ∨ code = 9 ∨ code = 10) ∧ t = decodeAbort (errState code 0x50 s) := by
  obtain ⟨hcodes, hidle⟩ := hcond
  by_cases hbad : s.inLen = 0 ∨ 8 * s.inLen - 8 < (readIn s 0).toNat
  · rw [exec_decode_of_bad_header hcodes hidle hbad, raiseErr_decode (.inr (.inl rfl))] at h; cases h
    exact ⟨9, .inr (.inl rfl), rfl⟩
  · obtain ⟨hne, hpad⟩ := not_or.1 hbad
    have hpad := Nat.le_of_not_lt hpad
    cases hscan : scanBits (matchCode s.codeLen s.codeVal) s.cfg.outCap (payloadBits s) [] [] with
    | ok out =>
      rw [exec_decode_of_scanBits hcodes hidle hne hpad hscan] at h; cases h
      exact absurd hs ht
    | error e =>
      rw [exec_decode_of_scanBits_error hcodes hidle hne hpad hscan] at h
      rcases scanBits_error hscan with rfl | rfl
      · rw [raiseErr_decode (.inl rfl)] at h; cases h
        exact ⟨7, .inl rfl, rfl⟩
      · rw [raiseErr_decode (.inr (.inr rfl))] at h; cases h
        exact ⟨10, .inr (.inr rfl), rfl⟩

/-- Every other command's error leaves all but the two STATUS fields (60_exceptions.md R253). -/
theorem failure_of_no_abort {i : Instr} {s t : State} (henc : ∀ x, i ≠ .encSym x) (hdec : i ≠ .decode)
    (h : exec i s = .next t) (hs : s.err = 0) (ht : t.err ≠ 0) : ∃ code, t = errState code (opcodeOf i) s := by
  obtain ⟨e, rfl⟩ := enterErr_of_err_ne_zero h hs ht
  exact ⟨errCode e, Host.Outcome.next.inj (raiseErr_eq_errState henc hdec e s)⟩

/-- Settles O42: SEQUENCE has no abort effect; inside the condition the errors are those of the command's body. -/
theorem failingCommandIsPrecise : Obligations.FailingCommandIsPrecise := by
  intro s hs
  refine ⟨fun i t h ht => ⟨?_, ?_⟩, fun w hw => ?_⟩
  · obtain ⟨e, rfl⟩ := enterErr_of_err_ne_zero h hs ht
    exact enterErr_same (p := .resp) (by simp [errorWrites]) _ _ _ s
  · by_cases hcond : SeqCond i s
    case neg =>
      rw [(sequenceErrorOutsideCondition i s).1 hcond, errState_of_noErr hs] at h
      cases h
      exact .inr (.inr ⟨fun _ => rfl, rfl⟩)
    by_cases henc : ∃ x, i = .encSym x
    · obtain ⟨x, rfl⟩ := henc
      obtain ⟨code, hcode, rfl⟩ := encSym_failure hcond h hs ht
      rw [errState_of_noErr hs]
      exact .inl ⟨⟨x, rfl⟩, hcode, rfl⟩
    by_cases hdec : i = .decode
    · subst hdec
      obtain ⟨code, hcode, rfl⟩ := decode_failure hcond h hs ht
      rw [errState_of_noErr hs]
      exact .inr (.inl ⟨rfl, hcode, rfl⟩)
    · obtain ⟨code, rfl⟩ := failure_of_no_abort (not_exists.1 henc) hdec h hs ht
      rw [errState_of_noErr hs]
      exact .inr (.inr ⟨fun habort => absurd habort (not_or.2 ⟨henc, hdec⟩), rfl⟩)
  · rw [executeWord_of_not_encode hw, errState_of_noErr hs]

/-! ## The first error is kept -/

/-- Another error leaves the recorded one (60_exceptions.md R252). -/
theorem enterErr_keeps_error {s : State} (hs : s.err ≠ 0) (e : Err) (opc : BitVec 8) (cmd : Option Instr) :
    Same .error s (enterErr e opc cmd s) := by
  obtain ⟨-, -, -, -, herr, hopc⟩ := enterErr_fields e opc cmd s
  rw [if_neg hs] at herr hopc
  exact ⟨herr, hopc⟩

/-- No host write leaves the error state (60_exceptions.md R252, R254). -/
theorem writeSlot_keeps_error {s : State} (hs : s.err ≠ 0) (slot : Slot) (v : Word) : Same .error s (writeSlot slot v s) := by
  rcases writeSlot_cases slot v s with h | h | ⟨-, h⟩ | ⟨-, h⟩ <;> rw [h]
  · exact .refl .error s
  · exact ⟨rfl, rfl⟩
  · exact ⟨rfl, rfl⟩
  · exact enterErr_keeps_error hs .busyOverrun (opcField v) none

theorem hostOp_keeps_error {op : HostOp} {s t : State} (h : hostOp op s = .next t) (hs : s.err ≠ 0) : Same .error s t := by
  rcases hostOp_next h with ⟨g, rfl⟩ | ⟨addr, v, g, rfl⟩ | ⟨n, g, rfl⟩
  · exact ⟨rfl, rfl⟩
  · exact writeSlot_keeps_error hs (slotOfAddr s.cfg addr) v
  · exact ⟨rfl, rfl⟩

/-- A word executed in the error state keeps the error, or it is CLEAR or ERR_CLEAR (60_exceptions.md R252, R255). -/
theorem executeWord_error {w : Word} {s t : State} (h : executeWord w s = .next t) (hs : s.err ≠ 0) :
    Same .error s t ∨ (t.err = 0 ∧ t.errOpc = 0 ∧ (decodeWord w = .ok .errClear ∨ decodeWord w = .ok .clear)) := by
  cases hw : decodeWord w with
  | error r =>
    simp only [executeWord, hw] at h; cases h
    exact .inl (enterErr_keeps_error hs _ _ _)
  | ok i =>
    simp only [executeWord, hw] at h
    rcases exec_next h with ⟨e, rfl⟩ | he
    · exact .inl (enterErr_keeps_error hs _ _ _)
    · by_cases hi : Part.error ∈ writes i
      · obtain ⟨herr, hopc⟩ := he.clears_error hi
        rcases error_mem_writes.1 hi with rfl | rfl
        · exact .inr ⟨herr, hopc, .inr rfl⟩
        · exact .inr ⟨herr, hopc, .inl rfl⟩
      · exact .inl (he.same hi)

/-- Settles O43: of the turns of the core, the host and the platform, only a command that clears STATUS.ERR and the release of
the reset input do not keep the error. -/
theorem firstErrorIsKept : Obligations.FirstErrorIsKept := by
  intro s t h hrun hs
  obtain ⟨u, ⟨ts, n, rfl⟩, hcase⟩ := step_next h
  rcases hcase with rfl | ⟨hc, v, hv, rfl⟩ | ⟨op, -, hop⟩ | rfl | rfl | ⟨hr, rfl⟩
  · exact .inl ⟨rfl, rfl⟩
  · rcases executeWord_error hv hs with hsame | ⟨herr, hopc, hclear⟩
    · exact .inl hsame
    · exact .inr ⟨herr, hopc, .inr ⟨hc, hclear⟩⟩
  · have hkept := hostOp_keeps_error hop hs
    exact .inl hkept
  · cases hrun
  · cases hrun
  · exact .inr ⟨rfl, rfl, .inl hr⟩

end Sys2Proof.Machine
end

section
/-! The core while a command is pending: host reads of the result slots (70_reset_and_hazards.md R284), the reset input (R280),
and the command's completion under every weakly fair schedule (R291). -/

namespace Sys2Proof.Machine

/-! ## Host reads while BUSY = 1 -/

/-- A 32-bit read after reset stores what the slot reads (20_memory.md R62, R64). -/
theorem hostOp_rd {s : State} (hrun : s.phase = .running) (addr : Word) (var : Nat) :
    hostOp (.rd 32 addr var) s = .next (hostNext (hostStore var (readSlot (slotOfAddr s.cfg addr) s)
      (afterRead (slotOfAddr s.cfg addr) s))) := by
  simp [hostOp, guardAccess, hrun]

/-- A read of a result slot while BUSY = 1 draws a free value (70_reset_and_hazards.md R284). -/
theorem hostOp_rd_free {s : State} (hrun : s.phase = .running) (hbusy : s.busy = true) {addr : Word}
    (hslot : (slotOfAddr s.cfg addr).isResult = true) (var : Nat) :
    hostOp (.rd 32 addr var) s =
      .next (hostNext (hostStore var (Config.freeWord s.draws) { s with draws := s.draws + 1 })) := by
  simp [hostOp_rd hrun, readSlot, afterRead, readIsFree, hbusy, hslot]

/-- A read of any other slot answers its value, whatever BUSY is, and leaves the CORE (70_reset_and_hazards.md R284). -/
theorem hostOp_rd_value {s : State} (hrun : s.phase = .running) {addr : Word}
    (hslot : (slotOfAddr s.cfg addr).isResult = false) (var : Nat) :
    hostOp (.rd 32 addr var) s = .next (hostNext (hostStore var (slotValue (slotOfAddr s.cfg addr) s) s)) := by
  simp [hostOp_rd hrun, readSlot, afterRead, readIsFree, hslot]

/-- The offsets of the result slots (10_state.md R23). -/
theorem isResult_of_offset :
    ∀ off ∈ [(0x0C : Word), 0x10, 0x14, 0x18, 0x1C, 0x20, 0x24], (slotOfIndex (off.extractLsb' 2 4)).isResult = true := by
  simp [slotOfIndex, Slot.isResult]

/-- Settles O48: the slots of the first clause are the result slots, those of the second are not. -/
theorem busyReadsOfResultsAreFree : Obligations.BusyReadsOfResultsAreFree := by
  rintro off addr var s hrun hbusy rfl
  refine ⟨fun hoff => hostOp_rd_free hrun hbusy ?_ var, fun p hp hoff => ?_⟩
  · rw [slotOfAddr_base_add]
    exact isResult_of_offset off hoff
  · have hslot : (slotOfIndex (off.extractLsb' 2 4)).isResult = false ∧
        slotValue (slotOfIndex (off.extractLsb' 2 4)) s = p.2 := by
      simp only [List.mem_cons, List.not_mem_nil, or_false] at hp
      rcases hp with rfl | rfl | rfl | rfl | rfl | rfl | rfl | rfl | rfl <;>
        subst hoff <;> simp [slotOfIndex, Slot.isResult, slotValue, Config.ident, statusWord_eq_statusSum]
    obtain ⟨hresult, hval⟩ := hslot
    rw [← slotOfAddr_base_add s.cfg] at hresult hval
    rw [hostOp_rd_value hrun hresult, hval]

/-! ## The reset input -/

/-- CLEAR has no condition (40_control.md R108). -/
theorem exec_clear (s : State) : exec .clear s = .next (resetCore s) := sequenced_of_ok (i := .clear) (s := s) rfl

/-- The listed release of an asserted reset input is a reset of the CORE (70_reset_and_hazards.md R280). -/
theorem step_releaseReset {s : State} {ts : List Turn} (hturn : s.turns = .releaseReset :: ts)
    (hreset : s.phase = .resetAsserted) : step s = .next (resetCore { s with turns := ts }) := by
  rw [step_of_listed hturn, turnOf, releaseTurn, if_pos hreset]

/-- Settles O58: the guard refuses while reset is asserted, and the release and CLEAR are the same reset of the CORE. -/
theorem resetReleaseGivesResetValues : Obligations.ResetReleaseGivesResetValues := by
  refine fun s hreset => ⟨fun width addr v var _ => ?_, fun ts hturn => ?_⟩
  · exact ⟨guardAccess_resetAsserted hreset width _, guardAccess_resetAsserted hreset width _⟩
  · exact ⟨_, step_releaseReset hturn hreset, atReset_resetCore _, rfl, rfl, rfl, exec_clear _, rfl, rfl, rfl⟩

/-! ## A pending command completes -/

/-- A command is pending in a state that meets the invariants (40_control.md R103). -/
structure Waiting (s : State) : Prop where
  inv  : SysInv s
  run  : s.phase = .running
  busy : s.busy = true

/-- The host's program holds an access of another width than 32 bits (20_memory.md R62). -/
def HoldsForeignAccess (prog : List HostOp) : Prop :=
  ∃ width addr, width ≠ 32 ∧ ((∃ v, HostOp.wr width addr v ∈ prog) ∨ ∃ var, HostOp.rd width addr var ∈ prog)

/-- After finitely many steps the core completes the word that is pending in `s`, or the machine stops at a foreign access. -/
def Completes (s : State) : Prop :=
  ∃ n, (∃ t u, runSteps n s = .next t ∧ CoreMoves t ∧ t.pending = s.pending ∧ t.pendingData = s.pendingData ∧
      step t = .next u ∧ u.busy = false) ∨ (runSteps n s = .refused .accessWidth ∧ HoldsForeignAccess s.host.prog)

/-- `t` has what decides in `s` which word completes and who moves until then: the reset line, BUSY, the latched word and operand,
the turns and the host's program. -/
structure SamePending (s t : State) : Prop where
  run   : t.phase = s.phase
  busy  : t.busy = s.busy
  word  : t.pending = s.pending
  data  : t.pendingData = s.pendingData
  turns : t.turns = s.turns
  prog  : t.host.prog = s.host.prog

theorem SamePending.refl (s : State) : SamePending s s := ⟨rfl, rfl, rfl, rfl, rfl, rfl⟩

theorem SamePending.hostNext {s t : State} (h : SamePending s t) : SamePending s (hostNext t) :=
  ⟨h.run, h.busy, h.word, h.data, h.turns, h.prog⟩

theorem SamePending.hostBranch {s t : State} (h : SamePending s t) (cond : Bool) (target : Nat) :
    SamePending s (hostBranch cond target t) := by
  unfold Machine.hostBranch
  split
  · exact ⟨h.run, h.busy, h.word, h.data, h.turns, h.prog⟩
  · exact h.hostNext

theorem SamePending.hostStore {s t : State} (h : SamePending s t) (var : Nat) (v : Word) : SamePending s (hostStore var v t) :=
  ⟨h.run, h.busy, h.word, h.data, h.turns, h.prog⟩

theorem samePending_afterRead (slot : Slot) (s : State) : SamePending s (afterRead slot s) := by
  unfold afterRead
  split
  · exact ⟨rfl, rfl, rfl, rfl, rfl, rfl⟩
  · exact .refl s

/-- While BUSY = 1 a write to CMD is an overrun, so no other word is accepted (40_control.md R101). -/
theorem samePending_writeSlot {s : State} (hbusy : s.busy = true) (slot : Slot) (v : Word) :
    SamePending s (writeSlot slot v s) := by
  rcases writeSlot_cases slot v s with h | h | ⟨hidle, -⟩ | ⟨-, h⟩
  · rw [h]; exact .refl s
  · rw [h]; exact ⟨rfl, rfl, rfl, rfl, rfl, rfl⟩
  · simp [hbusy] at hidle
  · rw [h, recordErr_eq]; exact ⟨rfl, rfl, rfl, rfl, rfl, rfl⟩

/-- A host operation while BUSY = 1 leaves the pending command, or it is an access of another width and is refused
(20_memory.md R62). -/
theorem hostOp_of_busy {s : State} (hrun : s.phase = .running) (hbusy : s.busy = true) (op : HostOp) :
    (∃ t, hostOp op s = .next t ∧ SamePending s t) ∨
      (hostOp op s = .refused .accessWidth ∧ ∀ prog, op ∈ prog → HoldsForeignAccess prog) := by
  cases op with
  | wr width addr v =>
    by_cases hwidth : width = 32
    · subst hwidth
      exact .inl ⟨_, hostOp_wr hrun addr v, (samePending_writeSlot hbusy _ v).hostNext⟩
    · exact .inr ⟨guardAccess_width_ne hrun hwidth _, fun _ hop => ⟨width, addr, hwidth, .inl ⟨v, hop⟩⟩⟩
  | rd width addr var =>
    by_cases hwidth : width = 32
    · subst hwidth
      exact .inl ⟨_, hostOp_rd hrun addr var, ((samePending_afterRead _ s).hostStore var _).hostNext⟩
    · exact .inr ⟨guardAccess_width_ne hrun hwidth _, fun _ hop => ⟨width, addr, hwidth, .inr ⟨var, hop⟩⟩⟩
  | bnz var bit target => exact .inl ⟨_, rfl, (SamePending.refl s).hostBranch _ target⟩
  | bz var bit target => exact .inl ⟨_, rfl, (SamePending.refl s).hostBranch _ target⟩
  | requireNoErr var =>
    simp only [hostOp]
    split
    · exact .inl ⟨_, rfl, (SamePending.refl s).hostNext⟩
    · exact .inl ⟨_, rfl, rfl, rfl, rfl, rfl, rfl, rfl⟩

/-- The host's turn while BUSY = 1, its next operation being one of its program (30_encoding.md R89). -/
theorem hostTurn_of_busy {s : State} (hrun : s.phase = .running) (hbusy : s.busy = true) :
    (∃ t, hostTurn s = .next t ∧ SamePending s t) ∨
      (hostTurn s = .refused .accessWidth ∧ HoldsForeignAccess s.host.prog) := by
  by_cases hdone : s.host.failed = true ∨ s.host.prog[s.host.pc]? = none
  · exact .inl ⟨s, hostTurn_of_done hdone, .refl s⟩
  · obtain ⟨hok, hsome⟩ := not_or.1 hdone
    obtain ⟨op, hop⟩ := Option.ne_none_iff_exists'.1 hsome
    rw [hostTurn_of_op (Bool.eq_false_iff.2 hok) hop]
    exact (hostOp_of_busy hrun hbusy op).imp_right fun ⟨href, hforeign⟩ => ⟨href, hforeign _ (List.mem_of_getElem? hop)⟩

/-- The core's turn completes the pending word (40_control.md R103): the step answers, and BUSY is 0 after it. -/
theorem Waiting.completes_of_core {s u : State} (hs : Waiting s) (hstep : step s = turnOf .core u)
    (hu : Scheduled s .core u) : Completes s := by
  have henabled : coreEnabled u = true := by
    obtain ⟨ts, n, rfl⟩ := hu.frame
    exact coreEnabled_iff.2 ⟨hs.run, hs.busy⟩
  obtain ⟨t, ht⟩ := (hs.inv.scheduled hu).answers_coreTurn
  have hidle : t.busy = false := by
    rw [coreTurn, if_pos henabled] at ht
    obtain ⟨v, -, rfl⟩ := complete_next ht
    rfl
  exact ⟨0, .inl ⟨s, t, rfl, hu.coreMoves henabled, rfl, rfl, hstep.trans ht, hidle⟩⟩

/-- A turn of the host puts the completion off by one step, or stops the machine. -/
theorem Waiting.completes_of_host {s u : State} (hs : Waiting s) (hstep : step s = turnOf .host u)
    (hu : Scheduled s .host u) (hrest : ∀ t, Waiting t → t.turns = u.turns → Completes t) : Completes s := by
  obtain ⟨ts, n, rfl⟩ := hu.frame
  rw [turnOf] at hstep
  rcases hostTurn_of_busy (s := { s with turns := ts, draws := n }) hs.run hs.busy with
    ⟨t, ht, hsame⟩ | ⟨href, hforeign⟩
  · have hnext : step s = .next t := hstep.trans ht
    have hwaiting : Waiting t :=
      ⟨stepKeepsInvariants s t hs.inv hnext, hsame.run.trans hs.run, hsame.busy.trans hs.busy⟩
    obtain ⟨k, hk⟩ := hrest t hwaiting hsame.turns
    have hrun : runSteps (k + 1) s = runSteps k t := by rw [runSteps, hnext]
    rw [hsame.word, hsame.data, hsame.prog, ← hrun] at hk
    exact ⟨k + 1, hk⟩
  · exact ⟨1, .inr ⟨by rw [runSteps, hstep, href], hforeign⟩⟩

/-- Turns of core and host before turns under which a pending command completes. -/
theorem completes_of_turns_append {rest : List Turn} (hrest : ∀ t, Waiting t → t.turns = rest → Completes t) {ts : List Turn}
    (hts : ∀ a ∈ ts, a = .core ∨ a = .host) {s : State} (hs : Waiting s) (hturns : s.turns = ts ++ rest) : Completes s := by
  induction ts generalizing s with
  | nil => exact hrest s hs hturns
  | cons a ts ih =>
    obtain ⟨ha, htail⟩ := List.forall_mem_cons.1 hts
    rcases ha with rfl | rfl
    · exact hs.completes_of_core (step_of_listed hturns) (.listed .core _ hturns)
    · exact hs.completes_of_host (step_of_listed hturns) (.listed .host _ hturns) fun _ => ih htail

/-- The turns up to the core's, `d` of them the host's (70_reset_and_hazards.md R291). -/
theorem completes_of_fairTurns {d : Nat} {s : State} (hs : Waiting s) (hturns : s.turns = fairTurns d) : Completes s :=
  completes_of_turns_append
    (fun _ ht h => ht.completes_of_core (step_of_listed h) (.listed .core _ h))
    (fun _ ha => .inr (List.eq_of_mem_replicate ha)) hs hturns

/-- With no turn listed the core's comes after a free number of the host's (70_reset_and_hazards.md R291). -/
theorem completes_of_no_turns {s : State} (hs : Waiting s) (hturns : s.turns = []) : Completes s := by
  obtain ⟨a, u, hstep, hu⟩ := step_eq s
  cases hu with
  | listed _ ts h => simp [hturns] at h
  | idle _ hc => simp [coreEnabled_iff.2 ⟨hs.run, hs.busy⟩] at hc
  | core h hc hd => exact hs.completes_of_core hstep (.core h hc hd)
  | delayed d h hc hd => exact hs.completes_of_host hstep (.delayed d h hc hd) fun _ => completes_of_fairTurns

/-- Settles O6: each listed turn is the core's, which completes the command, or the host's, which leaves it pending; after them
comes the core's turn, delayed by finitely many of the host's. -/
theorem pendingCommandCompletes : Obligations.PendingCommandCompletes := fun s hinv hrun hbusy hturns =>
  completes_of_turns_append (fun _ => completes_of_no_turns) hturns ⟨hinv, hrun, hbusy⟩ (List.append_nil s.turns).symm

end Sys2Proof.Machine
end
